-- ==== Sys2Proof/Word.lean ====
section
/-! DEFINITION. The word of the unit: 32 bits (spec/00_scope.md R12), and the byte of a bus lane (20_memory.md R76). -/

namespace Sys2Proof

/-- R12: a *word* is 32 bits. -/
abbrev Word := BitVec 32

/-- One byte lane of the bus (R76). -/
abbrev Byte := BitVec 8

end Sys2Proof
end

