-- ==== Sys2Proof/Config.lean ====
section
/-! DEFINITION. What an implementation fixes (spec/00_scope.md R8, R9; 93_implementation_defined.md U5 to U9) and the
free values the spec leaves open (93_implementation_defined.md U1). -/

namespace Sys2Proof

/-- R8: NPOLY, the number of polynomial registers, is 16, 32 or 64. -/
inductive NPoly where
  | n16 | n32 | n64
deriving DecidableEq, Repr

/-- The number an `NPoly` stands for. -/
def NPoly.count : NPoly → Nat
  | .n16 => 16
  | .n32 => 32
  | .n64 => 64

/-- The two parameters of a unit that its behaviour depends on (R8, R9; log 2). -/
structure Config where
  /-- NPOLY (R8). -/
  npoly : NPoly
  /-- CQ_DEPTH, the depth of the command queue (R9); legal values 1 to 255, see `Config.wf`. -/
  cqDepth : Nat
deriving DecidableEq, Repr

namespace Config

/-- R9: CQ_DEPTH is 1 to 255. -/
abbrev wf (c : Config) : Prop := 1 ≤ c.cqDepth ∧ c.cqDepth ≤ 255

/-- R8, R9: the spec's defaults, NPOLY 64 and CQ_DEPTH 16 (log 2). -/
def default : Config := { npoly := .n64, cqDepth := 16 }

/-- FREE VALUE (log 1; 93_implementation_defined.md U1, "any value"): the word that the n-th read of a ⊥ storage word
returns. It has no body, so no proof can rest on what it is. -/
opaque freeWord : Nat → Word

/-- PARAMETER FAU_BASE (log 9; U8): where the register window sits in the host's own address space. -/
opaque fauBase : Nat

/-- PARAMETER FAU_IRQ (log 9; U9): the platform interrupt line that `irq` drives. -/
opaque fauIrq : Nat

/-- PARAMETER LAT(cmd) (log 9; U5): a function of the command word only; no functional rule depends on it (R302). -/
opaque lat : Word → Nat

end Config
end Sys2Proof
end

