-- ==== Sys2Proof/Syntax.lean ====
section
/-! DEFINITION. The commands of the unit, one constructor for each row of spec/opcode_table.json (30_encoding.md R111),
with the fields R113 gives each. Arguments stand in the order of the command word's fields: D, A, B, VLM1, BC, G, IMM. -/

namespace Sys2Proof

/-- A scalar register s0 to s15 (10_state.md R31). -/
abbrev SReg := Fin 16

/-- A polynomial register field, p0 to p63 (30_encoding.md R104); which of them exist depends on NPOLY. -/
abbrev PReg := Fin 64

/-- The field VLM1: the vector length minus one (R105). -/
abbrev VLen := Fin 8

/-- The vector length vl = VLM1 + 1 (R105). -/
def VLen.vl (v : VLen) : Nat := v.val + 1

/-- The field G: which γ₂ (R106). -/
inductive Gamma where
  /-- G = 0: γ₂ = (q−1)/88 = 95232, m = 44. -/
  | g88
  /-- G = 1: γ₂ = (q−1)/32 = 261888, m = 16. -/
  | g32
deriving DecidableEq, Repr

/-- The field BC: does every element read p[B] (R107)? -/
inductive Bcast where
  /-- BC = 0: element i reads p[B+i]. -/
  | each
  /-- BC = 1: every element reads p[B]. -/
  | one
deriving DecidableEq, Repr

/-- The commands (R111, R113). For `p2r`, `decomp`, `pp2r` and `pdecomp` the field B names the second destination. -/
inductive Instr where
  | nop
  | add (d a b : SReg)
  | sub (d a b : SReg)
  | neg (d a : SReg)
  | mul (d a b : SReg)
  | red (d a : SReg)
  | tosym (d a : SReg)
  | fromsym (d a : SReg)
  | norm (d a : SReg)
  | mov (d a : SReg)
  | li (d : SReg) (imm : BitVec 20)
  | zeta (d : SReg) (k : Fin 256)
  | p2r (d a b : SReg)
  | decomp (d a b : SReg) (g : Gamma)
  | high (d a : SReg) (g : Gamma)
  | low (d a : SReg) (g : Gamma)
  | mkhint (d a b : SReg) (g : Gamma)
  | usehint (d a b : SReg) (g : Gamma)
  | padd (d a b : PReg) (v : VLen) (c : Bcast)
  | psub (d a b : PReg) (v : VLen) (c : Bcast)
  | pneg (d a : PReg) (v : VLen)
  | psmul (d a : PReg) (b : SReg) (v : VLen)
  | pmov (d a : PReg) (v : VLen)
  | ptosym (d a : PReg) (v : VLen)
  | pfromsym (d a : PReg) (v : VLen)
  | pred (d a : PReg) (v : VLen)
  | pnorm (d : SReg) (a : PReg) (v : VLen)
  | pnormz (d : SReg) (a : PReg) (v : VLen)
  | ntt (d a : PReg) (v : VLen)
  | intt (d a : PReg) (v : VLen)
  | pmul (d a b : PReg) (v : VLen) (c : Bcast)
  | pdot (d a b : PReg) (v : VLen) (c : Bcast)
  | pp2r (d a b : PReg) (v : VLen)
  | pdecomp (d a b : PReg) (v : VLen) (g : Gamma)
  | phigh (d a : PReg) (v : VLen) (g : Gamma)
  | plow (d a : PReg) (v : VLen) (g : Gamma)
  | pmkhint (d a b : PReg) (v : VLen) (c : Bcast) (g : Gamma)
  | pusehint (d a b : PReg) (v : VLen) (c : Bcast) (g : Gamma)
  | pwgt (d : SReg) (a : PReg) (v : VLen)
deriving DecidableEq, Repr

end Sys2Proof
end

