-- ==== Sys2Proof/WellFormed.lean ====
section
/-! DEFINITION. Which terms of `Instr` are legal commands of a unit with NPOLY polynomial registers: the conditions 3, 4
and 5 of spec/30_encoding.md R112, the ones that relate several fields. (Conditions 1 and 2 are about the word's bits; a
term of `Instr` has no bits that could break them.) -/

namespace Sys2Proof

/-- R112.3: the vector p[r] .. p[r+vl−1] lies inside the NPOLY polynomial registers. -/
def vectorFits (np : NPoly) (r : PReg) (v : VLen) : Bool := decide (r.val + v.vl ≤ np.count)

/-- R112.3, "for the single destination of PDOT: D ≥ NPOLY", "for B with BC = 1: B ≥ NPOLY": one register inside. -/
def registerFits (np : NPoly) (r : PReg) : Bool := decide (r.val < np.count)

/-- R112.3 for the B operand: one register when it is broadcast, a vector otherwise. -/
def operandBFits (np : NPoly) (r : PReg) (v : VLen) : Bcast → Bool
  | .each => vectorFits np r v
  | .one => registerFits np r

/-- R112.5: the two destination vectors [D, D+vl) and [B, B+vl) do not intersect. -/
def vectorsDisjoint (d b : PReg) (v : VLen) : Bool := decide (d.val + v.vl ≤ b.val ∨ b.val + v.vl ≤ d.val)

/-- R112, conditions 3 to 5: the command is legal on a unit with this NPOLY. -/
def Instr.wf (np : NPoly) : Instr → Bool
  | .nop => true
  | .add _ _ _ => true
  | .sub _ _ _ => true
  | .neg _ _ => true
  | .mul _ _ _ => true
  | .red _ _ => true
  | .tosym _ _ => true
  | .fromsym _ _ => true
  | .norm _ _ => true
  | .mov _ _ => true
  | .li _ _ => true
  | .zeta _ _ => true
  | .p2r d _ b => decide (d ≠ b)
  | .decomp d _ b _ => decide (d ≠ b)
  | .high _ _ _ => true
  | .low _ _ _ => true
  | .mkhint _ _ _ _ => true
  | .usehint _ _ _ _ => true
  | .padd d a b v c => vectorFits np d v && vectorFits np a v && operandBFits np b v c
  | .psub d a b v c => vectorFits np d v && vectorFits np a v && operandBFits np b v c
  | .pneg d a v => vectorFits np d v && vectorFits np a v
  | .psmul d a _ v => vectorFits np d v && vectorFits np a v
  | .pmov d a v => vectorFits np d v && vectorFits np a v
  | .ptosym d a v => vectorFits np d v && vectorFits np a v
  | .pfromsym d a v => vectorFits np d v && vectorFits np a v
  | .pred d a v => vectorFits np d v && vectorFits np a v
  | .pnorm _ a v => vectorFits np a v
  | .pnormz _ a v => vectorFits np a v
  | .ntt d a v => vectorFits np d v && vectorFits np a v
  | .intt d a v => vectorFits np d v && vectorFits np a v
  | .pmul d a b v c => vectorFits np d v && vectorFits np a v && operandBFits np b v c
  | .pdot d a b v c => registerFits np d && vectorFits np a v && operandBFits np b v c
  | .pp2r d a b v => vectorFits np d v && vectorFits np a v && vectorFits np b v && vectorsDisjoint d b v
  | .pdecomp d a b v _ => vectorFits np d v && vectorFits np a v && vectorFits np b v && vectorsDisjoint d b v
  | .phigh d a v _ => vectorFits np d v && vectorFits np a v
  | .plow d a v _ => vectorFits np d v && vectorFits np a v
  | .pmkhint d a b v c _ => vectorFits np d v && vectorFits np a v && operandBFits np b v c
  | .pusehint d a b v c _ => vectorFits np d v && vectorFits np a v && operandBFits np b v c
  | .pwgt _ a v => vectorFits np a v

end Sys2Proof
end

