-- ==== Sys2Proof/Decode.lean ====
section
/-! DEFINITION. The command word (spec/30_encoding.md): its fields (R101, R102), the opcode map (R111), the decoder,
total on every word and rejecting by name (R112, R116), and the encoder written from the same tables. -/

namespace Sys2Proof

/-- R12: `v[hi:lo]`, the bit field of v from bit hi down to bit lo inclusive, as an unsigned number. -/
def bits {n : Nat} (v : BitVec n) (hi lo : Nat) : Nat := v.toNat / 2 ^ lo % 2 ^ (hi - lo + 1)

/-! ## Fields of the command word (R101, R102, R104 to R110) -/

/-- OP = w[31:26]. -/
def fOp (w : Word) : Nat := bits w 31 26
/-- D = w[25:20]. -/
def fD (w : Word) : Nat := bits w 25 20
/-- A = w[19:14]. -/
def fA (w : Word) : Nat := bits w 19 14
/-- B = w[13:8]. -/
def fB (w : Word) : Nat := bits w 13 8
/-- VLM1 = w[7:5]. -/
def fV (w : Word) : Nat := bits w 7 5
/-- BC = w[4]. -/
def fC (w : Word) : Nat := bits w 4 4
/-- G = w[3]. -/
def fG (w : Word) : Nat := bits w 3 3
/-- RSV = w[2:0]. -/
def fRsv (w : Word) : Nat := bits w 2 0
/-- IMM = w[19:0] (Format I). -/
def fImm (w : Word) : Nat := bits w 19 0
/-- The ZROM index of ZETA, w[7:0] (R110). -/
def fK (w : Word) : Nat := bits w 7 0
/-- ZETA's bits that must be 0, w[19:8] (R110). -/
def fKHigh (w : Word) : Nat := bits w 19 8

/-! ## The opcode map as a table (R111) -/

/-- One row of the opcode map: a word w selects the row when (w AND mask) = match. -/
structure OpRow where
  /-- The row's mnemonic, as spec/opcode_table.json spells it. -/
  mnemonic : String
  mask : Word
  value : Word
deriving DecidableEq, Repr

/-- R111: the word selects the row. -/
def OpRow.selects (r : OpRow) (w : Word) : Bool := (w &&& r.mask) == r.value

/-- R111, the scalar field commands. -/
def fieldRows : List OpRow := [
  ⟨"NOP", 0xFFFFFFFF#32, 0x00000000#32⟩,
  ⟨"ADD", 0xFF0C30FF#32, 0x04000000#32⟩,
  ⟨"SUB", 0xFF0C30FF#32, 0x08000000#32⟩,
  ⟨"NEG", 0xFF0C3FFF#32, 0x0C000000#32⟩,
  ⟨"MUL", 0xFF0C30FF#32, 0x10000000#32⟩,
  ⟨"RED", 0xFF0C3FFF#32, 0x14000000#32⟩,
  ⟨"TOSYM", 0xFF0C3FFF#32, 0x18000000#32⟩,
  ⟨"FROMSYM", 0xFF0C3FFF#32, 0x1C000000#32⟩,
  ⟨"NORM", 0xFF0C3FFF#32, 0x20000000#32⟩,
  ⟨"MOV", 0xFF0C3FFF#32, 0x24000000#32⟩,
  ⟨"LI", 0xFF000000#32, 0x28000000#32⟩,
  ⟨"ZETA", 0xFF0FFF00#32, 0x2C000000#32⟩]

/-- R111, the scalar rounding and hint commands. -/
def roundingRows : List OpRow := [
  ⟨"P2R", 0xFF0C30FF#32, 0x40000000#32⟩,
  ⟨"DECOMP", 0xFF0C30F7#32, 0x44000000#32⟩,
  ⟨"HIGH", 0xFF0C3FF7#32, 0x48000000#32⟩,
  ⟨"LOW", 0xFF0C3FF7#32, 0x4C000000#32⟩,
  ⟨"MKHINT", 0xFF0C30F7#32, 0x50000000#32⟩,
  ⟨"USEHINT", 0xFF0C30F7#32, 0x54000000#32⟩]

/-- R111, the ring commands. -/
def ringRows : List OpRow := [
  ⟨"PADD", 0xFC00000F#32, 0x80000000#32⟩,
  ⟨"PSUB", 0xFC00000F#32, 0x84000000#32⟩,
  ⟨"PNEG", 0xFC003F1F#32, 0x88000000#32⟩,
  ⟨"PSMUL", 0xFC00301F#32, 0x8C000000#32⟩,
  ⟨"PMOV", 0xFC003F1F#32, 0x90000000#32⟩,
  ⟨"PTOSYM", 0xFC003F1F#32, 0x94000000#32⟩,
  ⟨"PFROMSYM", 0xFC003F1F#32, 0x98000000#32⟩,
  ⟨"PRED", 0xFC003F1F#32, 0x9C000000#32⟩,
  ⟨"PNORM", 0xFF003F1F#32, 0xA0000000#32⟩,
  ⟨"PNORMZ", 0xFF003F1F#32, 0xA4000000#32⟩]

/-- R111, the NTT commands. -/
def nttRows : List OpRow := [
  ⟨"NTT", 0xFC003F1F#32, 0xC0000000#32⟩,
  ⟨"INTT", 0xFC003F1F#32, 0xC4000000#32⟩,
  ⟨"PMUL", 0xFC00000F#32, 0xC8000000#32⟩,
  ⟨"PDOT", 0xFC00000F#32, 0xCC000000#32⟩]

/-- R111, the polynomial rounding and hint commands. -/
def polyRoundingRows : List OpRow := [
  ⟨"PP2R", 0xFC00001F#32, 0xE0000000#32⟩,
  ⟨"PDECOMP", 0xFC000017#32, 0xE4000000#32⟩,
  ⟨"PHIGH", 0xFC003F17#32, 0xE8000000#32⟩,
  ⟨"PLOW", 0xFC003F17#32, 0xEC000000#32⟩,
  ⟨"PMKHINT", 0xFC000007#32, 0xF0000000#32⟩,
  ⟨"PUSEHINT", 0xFC000007#32, 0xF4000000#32⟩,
  ⟨"PWGT", 0xFF003F1F#32, 0xF8000000#32⟩]

/-- R111: the opcode map. -/
def opRows : List OpRow := fieldRows ++ roundingRows ++ ringRows ++ nttRows ++ polyRoundingRows

/-- The mnemonic of a command. -/
def Instr.mnemonic : Instr → String
  | .nop => "NOP"
  | .add _ _ _ => "ADD"
  | .sub _ _ _ => "SUB"
  | .neg _ _ => "NEG"
  | .mul _ _ _ => "MUL"
  | .red _ _ => "RED"
  | .tosym _ _ => "TOSYM"
  | .fromsym _ _ => "FROMSYM"
  | .norm _ _ => "NORM"
  | .mov _ _ => "MOV"
  | .li _ _ => "LI"
  | .zeta _ _ => "ZETA"
  | .p2r _ _ _ => "P2R"
  | .decomp _ _ _ _ => "DECOMP"
  | .high _ _ _ => "HIGH"
  | .low _ _ _ => "LOW"
  | .mkhint _ _ _ _ => "MKHINT"
  | .usehint _ _ _ _ => "USEHINT"
  | .padd _ _ _ _ _ => "PADD"
  | .psub _ _ _ _ _ => "PSUB"
  | .pneg _ _ _ => "PNEG"
  | .psmul _ _ _ _ => "PSMUL"
  | .pmov _ _ _ => "PMOV"
  | .ptosym _ _ _ => "PTOSYM"
  | .pfromsym _ _ _ => "PFROMSYM"
  | .pred _ _ _ => "PRED"
  | .pnorm _ _ _ => "PNORM"
  | .pnormz _ _ _ => "PNORMZ"
  | .ntt _ _ _ => "NTT"
  | .intt _ _ _ => "INTT"
  | .pmul _ _ _ _ _ => "PMUL"
  | .pdot _ _ _ _ _ => "PDOT"
  | .pp2r _ _ _ _ => "PP2R"
  | .pdecomp _ _ _ _ _ => "PDECOMP"
  | .phigh _ _ _ _ => "PHIGH"
  | .plow _ _ _ _ => "PLOW"
  | .pmkhint _ _ _ _ _ _ => "PMKHINT"
  | .pusehint _ _ _ _ _ _ => "PUSEHINT"
  | .pwgt _ _ _ => "PWGT"

/-! ## The decoder -/

/-- Why a word is no command: every one of these is an ILLEGAL_COMMAND (R112), except `truncated`, which only the
reading of a byte sequence can give. -/
inductive Reject where
  /-- R112.1, R114: OP is a reserved opcode. -/
  | reservedOpcode
  /-- R112.2: a reserved, unused or disallowed bit is set. -/
  | badBits
  /-- R112.3: a polynomial register range beyond NPOLY. -/
  | polyRange
  /-- R112.4: P2R or DECOMP with D = B. -/
  | sameDestination
  /-- R112.5: PP2R or PDECOMP whose destination vectors intersect. -/
  | destinationsOverlap
  /-- Fewer than four bytes. -/
  | truncated
deriving DecidableEq, Repr

/-- A scalar register field (R104). -/
def sField (n : Nat) : SReg := Fin.ofNat 16 n
/-- A polynomial register field (R104). -/
def pField (n : Nat) : PReg := Fin.ofNat 64 n
/-- The field VLM1 (R105). -/
def vField (n : Nat) : VLen := Fin.ofNat 8 n
/-- The field G (R106). -/
def gField (n : Nat) : Gamma := if n = 0 then .g88 else .g32
/-- The field BC (R107). -/
def cField (n : Nat) : Bcast := if n = 0 then .each else .one

/-- Give the command when the fields that must be zero or small are. -/
def guardBits (ok : Bool) (i : Instr) : Except Reject Instr := if ok then .ok i else .error .badBits

/-- `dddd.. aaaa.. bbbb..`: three scalar registers. -/
def formDAB (w : Word) (mk : SReg → SReg → SReg → Instr) : Except Reject Instr :=
  guardBits (fD w < 16 && fA w < 16 && fB w < 16 && fV w = 0 && fC w = 0 && fG w = 0 && fRsv w = 0)
    (mk (sField (fD w)) (sField (fA w)) (sField (fB w)))

/-- Three scalar registers and G. -/
def formDABG (w : Word) (mk : SReg → SReg → SReg → Gamma → Instr) : Except Reject Instr :=
  guardBits (fD w < 16 && fA w < 16 && fB w < 16 && fV w = 0 && fC w = 0 && fRsv w = 0)
    (mk (sField (fD w)) (sField (fA w)) (sField (fB w)) (gField (fG w)))

/-- Two scalar registers. -/
def formDA (w : Word) (mk : SReg → SReg → Instr) : Except Reject Instr :=
  guardBits (fD w < 16 && fA w < 16 && fB w = 0 && fV w = 0 && fC w = 0 && fG w = 0 && fRsv w = 0)
    (mk (sField (fD w)) (sField (fA w)))

/-- Two scalar registers and G. -/
def formDAG (w : Word) (mk : SReg → SReg → Gamma → Instr) : Except Reject Instr :=
  guardBits (fD w < 16 && fA w < 16 && fB w = 0 && fV w = 0 && fC w = 0 && fRsv w = 0)
    (mk (sField (fD w)) (sField (fA w)) (gField (fG w)))

/-- LI: Format I (R109). -/
def formLI (w : Word) (mk : SReg → BitVec 20 → Instr) : Except Reject Instr :=
  guardBits (fD w < 16) (mk (sField (fD w)) (BitVec.ofNat 20 (fImm w)))

/-- ZETA: Format I with w[19:8] = 0 (R110). -/
def formZETA (w : Word) (mk : SReg → Fin 256 → Instr) : Except Reject Instr :=
  guardBits (fD w < 16 && fKHigh w = 0) (mk (sField (fD w)) (Fin.ofNat 256 (fK w)))

/-- Three polynomial registers, VLM1 and BC. -/
def formP3C (w : Word) (mk : PReg → PReg → PReg → VLen → Bcast → Instr) : Except Reject Instr :=
  guardBits (fG w = 0 && fRsv w = 0)
    (mk (pField (fD w)) (pField (fA w)) (pField (fB w)) (vField (fV w)) (cField (fC w)))

/-- Three polynomial registers, VLM1, BC and G. -/
def formP3CG (w : Word) (mk : PReg → PReg → PReg → VLen → Bcast → Gamma → Instr) : Except Reject Instr :=
  guardBits (fRsv w = 0)
    (mk (pField (fD w)) (pField (fA w)) (pField (fB w)) (vField (fV w)) (cField (fC w)) (gField (fG w)))

/-- Three polynomial registers and VLM1. -/
def formP3 (w : Word) (mk : PReg → PReg → PReg → VLen → Instr) : Except Reject Instr :=
  guardBits (fC w = 0 && fG w = 0 && fRsv w = 0)
    (mk (pField (fD w)) (pField (fA w)) (pField (fB w)) (vField (fV w)))

/-- Three polynomial registers, VLM1 and G. -/
def formP3G (w : Word) (mk : PReg → PReg → PReg → VLen → Gamma → Instr) : Except Reject Instr :=
  guardBits (fC w = 0 && fRsv w = 0)
    (mk (pField (fD w)) (pField (fA w)) (pField (fB w)) (vField (fV w)) (gField (fG w)))

/-- Two polynomial registers and VLM1. -/
def formP2 (w : Word) (mk : PReg → PReg → VLen → Instr) : Except Reject Instr :=
  guardBits (fB w = 0 && fC w = 0 && fG w = 0 && fRsv w = 0)
    (mk (pField (fD w)) (pField (fA w)) (vField (fV w)))

/-- Two polynomial registers, VLM1 and G. -/
def formP2G (w : Word) (mk : PReg → PReg → VLen → Gamma → Instr) : Except Reject Instr :=
  guardBits (fB w = 0 && fC w = 0 && fRsv w = 0)
    (mk (pField (fD w)) (pField (fA w)) (vField (fV w)) (gField (fG w)))

/-- PSMUL: two polynomial registers, a scalar register and VLM1. -/
def formP2S (w : Word) (mk : PReg → PReg → SReg → VLen → Instr) : Except Reject Instr :=
  guardBits (fB w < 16 && fC w = 0 && fG w = 0 && fRsv w = 0)
    (mk (pField (fD w)) (pField (fA w)) (sField (fB w)) (vField (fV w)))

/-- A scalar destination, a polynomial source and VLM1. -/
def formSP (w : Word) (mk : SReg → PReg → VLen → Instr) : Except Reject Instr :=
  guardBits (fD w < 16 && fB w = 0 && fC w = 0 && fG w = 0 && fRsv w = 0)
    (mk (sField (fD w)) (pField (fA w)) (vField (fV w)))

/-- R112, conditions 1 and 2: the row of the word, with its fields. -/
def decodeRow (w : Word) : Except Reject Instr :=
  match fOp w with
  | 0x00 => if w = 0#32 then .ok .nop else .error .badBits
  | 0x01 => formDAB w .add
  | 0x02 => formDAB w .sub
  | 0x03 => formDA w .neg
  | 0x04 => formDAB w .mul
  | 0x05 => formDA w .red
  | 0x06 => formDA w .tosym
  | 0x07 => formDA w .fromsym
  | 0x08 => formDA w .norm
  | 0x09 => formDA w .mov
  | 0x0A => formLI w .li
  | 0x0B => formZETA w .zeta
  | 0x10 => formDAB w .p2r
  | 0x11 => formDABG w .decomp
  | 0x12 => formDAG w .high
  | 0x13 => formDAG w .low
  | 0x14 => formDABG w .mkhint
  | 0x15 => formDABG w .usehint
  | 0x20 => formP3C w .padd
  | 0x21 => formP3C w .psub
  | 0x22 => formP2 w .pneg
  | 0x23 => formP2S w .psmul
  | 0x24 => formP2 w .pmov
  | 0x25 => formP2 w .ptosym
  | 0x26 => formP2 w .pfromsym
  | 0x27 => formP2 w .pred
  | 0x28 => formSP w .pnorm
  | 0x29 => formSP w .pnormz
  | 0x30 => formP2 w .ntt
  | 0x31 => formP2 w .intt
  | 0x32 => formP3C w .pmul
  | 0x33 => formP3C w .pdot
  | 0x38 => formP3 w .pp2r
  | 0x39 => formP3G w .pdecomp
  | 0x3A => formP2G w .phigh
  | 0x3B => formP2G w .plow
  | 0x3C => formP3CG w .pmkhint
  | 0x3D => formP3CG w .pusehint
  | 0x3E => formSP w .pwgt
  | _ => .error .reservedOpcode

/-- How many polynomial registers the B operand names: vl of them, or one when it is broadcast (R107). -/
def Bcast.span (c : Bcast) (v : VLen) : Nat :=
  match c with
  | .each => v.vl
  | .one => 1

/-- R112.3: each polynomial register field of a command with the number of registers it names. -/
def Instr.vectors : Instr → List (PReg × Nat)
  | .padd d a b v c => [(d, v.vl), (a, v.vl), (b, c.span v)]
  | .psub d a b v c => [(d, v.vl), (a, v.vl), (b, c.span v)]
  | .pneg d a v => [(d, v.vl), (a, v.vl)]
  | .psmul d a _ v => [(d, v.vl), (a, v.vl)]
  | .pmov d a v => [(d, v.vl), (a, v.vl)]
  | .ptosym d a v => [(d, v.vl), (a, v.vl)]
  | .pfromsym d a v => [(d, v.vl), (a, v.vl)]
  | .pred d a v => [(d, v.vl), (a, v.vl)]
  | .pnorm _ a v => [(a, v.vl)]
  | .pnormz _ a v => [(a, v.vl)]
  | .ntt d a v => [(d, v.vl), (a, v.vl)]
  | .intt d a v => [(d, v.vl), (a, v.vl)]
  | .pmul d a b v c => [(d, v.vl), (a, v.vl), (b, c.span v)]
  | .pdot d a b v c => [(d, 1), (a, v.vl), (b, c.span v)]
  | .pp2r d a b v => [(d, v.vl), (a, v.vl), (b, v.vl)]
  | .pdecomp d a b v _ => [(d, v.vl), (a, v.vl), (b, v.vl)]
  | .phigh d a v _ => [(d, v.vl), (a, v.vl)]
  | .plow d a v _ => [(d, v.vl), (a, v.vl)]
  | .pmkhint d a b v c _ => [(d, v.vl), (a, v.vl), (b, c.span v)]
  | .pusehint d a b v c _ => [(d, v.vl), (a, v.vl), (b, c.span v)]
  | .pwgt _ a v => [(a, v.vl)]
  | .nop => []
  | .add _ _ _ => []
  | .sub _ _ _ => []
  | .neg _ _ => []
  | .mul _ _ _ => []
  | .red _ _ => []
  | .tosym _ _ => []
  | .fromsym _ _ => []
  | .norm _ _ => []
  | .mov _ _ => []
  | .li _ _ => []
  | .zeta _ _ => []
  | .p2r _ _ _ => []
  | .decomp _ _ _ _ => []
  | .high _ _ _ => []
  | .low _ _ _ => []
  | .mkhint _ _ _ _ => []
  | .usehint _ _ _ _ => []

/-- R112.5: the vectors [d, d+vl) and [b, b+vl) intersect. -/
def overlapReject (d b : PReg) (v : VLen) : Option Reject :=
  if d.val < b.val + v.vl ∧ b.val < d.val + v.vl then some .destinationsOverlap else none

/-- R112, conditions 3, 4 and 5: why the command of a row is still illegal, if it is. -/
def operandReject (np : NPoly) (i : Instr) : Option Reject :=
  if i.vectors.all (fun x => x.1.val + x.2 ≤ np.count) then
    match i with
    | .p2r d _ b => if d = b then some .sameDestination else none
    | .decomp d _ b _ => if d = b then some .sameDestination else none
    | .pp2r d _ b v => overlapReject d b v
    | .pdecomp d _ b v _ => overlapReject d b v
    | _ => none
  else some .polyRange

/-- R116: the decoder. It reads only the word and NPOLY. -/
def decodeWord (np : NPoly) (w : Word) : Except Reject Instr :=
  match decodeRow w with
  | .error e => .error e
  | .ok i =>
    match operandReject np i with
    | none => .ok i
    | some e => .error e

/-- R76: the word whose bits 7:0 are at the lowest address. -/
def wordOfBytes (b0 b1 b2 b3 : Byte) : Word :=
  BitVec.ofNat 32 (b0.toNat + b1.toNat * 2 ^ 8 + b2.toNat * 2 ^ 16 + b3.toNat * 2 ^ 24)

/-- The decoder over a sequence of bytes, four a command, lowest address first (log 10): the command and the rest. -/
def decodeBytes (np : NPoly) : List Byte → Except Reject (Instr × List Byte)
  | b0 :: b1 :: b2 :: b3 :: rest =>
    match decodeWord np (wordOfBytes b0 b1 b2 b3) with
    | .ok i => .ok (i, rest)
    | .error e => .error e
  | _ => .error .truncated

/-! ## The encoder -/

/-- The bit of the field G. -/
def Gamma.bit : Gamma → Nat
  | .g88 => 0
  | .g32 => 1

/-- The bit of the field BC. -/
def Bcast.bit : Bcast → Nat
  | .each => 0
  | .one => 1

/-- Format R (R101); RSV is 0. -/
def formR (op d a b v c g : Nat) : Word :=
  BitVec.ofNat 32 (op * 2 ^ 26 + d * 2 ^ 20 + a * 2 ^ 14 + b * 2 ^ 8 + v * 2 ^ 5 + c * 2 ^ 4 + g * 2 ^ 3)

/-- Format I (R102). -/
def formI (op d imm : Nat) : Word := BitVec.ofNat 32 (op * 2 ^ 26 + d * 2 ^ 20 + imm)

/-- The word of a command (R101, R102, R111, R113). -/
def encode : Instr → Word
  | .nop => 0#32
  | .add d a b => formR 0x01 d a b 0 0 0
  | .sub d a b => formR 0x02 d a b 0 0 0
  | .neg d a => formR 0x03 d a 0 0 0 0
  | .mul d a b => formR 0x04 d a b 0 0 0
  | .red d a => formR 0x05 d a 0 0 0 0
  | .tosym d a => formR 0x06 d a 0 0 0 0
  | .fromsym d a => formR 0x07 d a 0 0 0 0
  | .norm d a => formR 0x08 d a 0 0 0 0
  | .mov d a => formR 0x09 d a 0 0 0 0
  | .li d imm => formI 0x0A d imm.toNat
  | .zeta d k => formI 0x0B d k
  | .p2r d a b => formR 0x10 d a b 0 0 0
  | .decomp d a b g => formR 0x11 d a b 0 0 g.bit
  | .high d a g => formR 0x12 d a 0 0 0 g.bit
  | .low d a g => formR 0x13 d a 0 0 0 g.bit
  | .mkhint d a b g => formR 0x14 d a b 0 0 g.bit
  | .usehint d a b g => formR 0x15 d a b 0 0 g.bit
  | .padd d a b v c => formR 0x20 d a b v c.bit 0
  | .psub d a b v c => formR 0x21 d a b v c.bit 0
  | .pneg d a v => formR 0x22 d a 0 v 0 0
  | .psmul d a b v => formR 0x23 d a b v 0 0
  | .pmov d a v => formR 0x24 d a 0 v 0 0
  | .ptosym d a v => formR 0x25 d a 0 v 0 0
  | .pfromsym d a v => formR 0x26 d a 0 v 0 0
  | .pred d a v => formR 0x27 d a 0 v 0 0
  | .pnorm d a v => formR 0x28 d a 0 v 0 0
  | .pnormz d a v => formR 0x29 d a 0 v 0 0
  | .ntt d a v => formR 0x30 d a 0 v 0 0
  | .intt d a v => formR 0x31 d a 0 v 0 0
  | .pmul d a b v c => formR 0x32 d a b v c.bit 0
  | .pdot d a b v c => formR 0x33 d a b v c.bit 0
  | .pp2r d a b v => formR 0x38 d a b v 0 0
  | .pdecomp d a b v g => formR 0x39 d a b v 0 g.bit
  | .phigh d a v g => formR 0x3A d a 0 v 0 g.bit
  | .plow d a v g => formR 0x3B d a 0 v 0 g.bit
  | .pmkhint d a b v c g => formR 0x3C d a b v c.bit g.bit
  | .pusehint d a b v c g => formR 0x3D d a b v c.bit g.bit
  | .pwgt d a v => formR 0x3E d a 0 v 0 0

/-- The four bytes of a command, lowest address first. -/
def encodeBytes (i : Instr) : List Byte :=
  let w := encode i
  [BitVec.ofNat 8 (bits w 7 0), BitVec.ofNat 8 (bits w 15 8), BitVec.ofNat 8 (bits w 23 16),
    BitVec.ofNat 8 (bits w 31 24)]

/-- The host's question of one row of the opcode table: the command the decoder of a unit with the default NPOLY reads
from the word whose bits are w (every bit from nbits up is 0). -/
def decodeTableWord (nbits w : Nat) : Option Instr :=
  match decodeWord Config.default.npoly (BitVec.ofNat 32 (w % 2 ^ nbits)) with
  | .ok i => some i
  | .error _ => none

end Sys2Proof
end

