-- ==== Sys2Proof/Machine/State.lean ====
section
/-! DEFINITION. The state of the unit, all of it (spec/10_state.md R30), with the host's side of the bus (20_memory.md
R70) and the model's own fields, and the state after a hardware reset (R60). -/

namespace Sys2Proof.Machine

/-- R15: a storage word of SREG or PMEM is a 32-bit value or ⊥, a word whose value the spec does not fix. The ⊥ mark is
the spec's own state ("A model holds each word of SREG and PMEM as either a 32-bit value or ⊥"). -/
inductive Slot where
  /-- ⊥: a read returns a free value, a fresh one at each read (93_implementation_defined.md U1; log 1). -/
  | bot
  /-- A 32-bit value. -/
  | val (w : Word)
deriving DecidableEq, Repr

/-- PMEM (R33) as sparse data: the words that hold a value, as pairs of a word's number and its value; word
256·i + c is p[i][c]. Any word not listed is ⊥ (R35). Canonical form: `Mem.wf` in Ops.lean (log 5). -/
abbrev Mem := List (Nat × Word)

/-- R38: the engine state. -/
inductive Engine where
  | idle
  /-- Exec(w): the command word w is being executed. -/
  | exec (w : Word)
deriving DecidableEq, Repr

/-- R260: the error codes of STATUS.ERRCODE. -/
inductive ErrCode where
  /-- 0, NONE. -/
  | none
  /-- 1, ILLEGAL_COMMAND. -/
  | illegalCommand
  /-- 2, OPERAND_RANGE. -/
  | operandRange
deriving DecidableEq, Repr

/-- R70: one bus transaction as the host issues it: `write`, `addr[16:0]` (byte address), `wdata`, `wstrb`. -/
structure BusReq where
  write : Bool
  addr : BitVec 17
  wdata : Word
  wstrb : BitVec 4
deriving DecidableEq, Repr

/-- R70: how the unit completes a transaction: `rdata` and `err`. (A write completes with rdata 0, log 12; no rule gives a
write's rdata another meaning.) -/
structure BusResp where
  rdata : Word
  err : Bool
deriving DecidableEq, Repr

/-- Who moves next (log 3): the engine (R38), the host (R11), or the reset input is driven to a level
(R290; to the level it has already: log 8). -/
inductive Turn where
  | engine
  | host
  | resetPin (level : Bool)
deriving DecidableEq, Repr

/-- The state of the unit. -/
structure State where
  /-- NPOLY and CQ_DEPTH: configuration, never changed by a step (R8, R9, R30; log 2). -/
  cfg : Config
  /-- SREG, s0 to s15 (R31). -/
  sreg : Vector Slot 16
  /-- PMEM (R33). -/
  pmem : Mem
  /-- The command queue, head first (R37). -/
  queue : List Word
  /-- The engine state (R38). -/
  engine : Engine
  /-- STATUS.DONE (R46). -/
  done : Bool
  /-- STATUS.ERR (R47). -/
  err : Bool
  /-- STATUS.DROP (R48). -/
  drop : Bool
  /-- STATUS.ERRCODE (R49). -/
  errcode : ErrCode
  /-- IE.DONE_IE (R51). -/
  doneIe : Bool
  /-- IE.ERR_IE (R51). -/
  errIe : Bool
  /-- RETIRED (R53). -/
  retired : Word
  /-- ERRCMD (R54). -/
  errcmd : Word
  /-- ERRIDX (R55). -/
  erridx : Word
  /-- ERRLOC (R56). -/
  errloc : Word
  /-- The level of the reset input rst_n (R70, R290). -/
  rstN : Bool
  /-- The transactions the host has yet to complete, in issue order; the head is the outstanding one (R82; log 4). -/
  txns : List BusReq
  /-- The responses the host has received, newest first (R70; log 4). -/
  responses : List BusResp
  /-- The order of moves to come; when it is empty the engine moves if it can, else the host (log 3). -/
  sched : List Turn
  /-- How many free values have been drawn (log 1). -/
  draws : Nat
deriving DecidableEq, Repr

/-- Reasons a step of the model can stop with a model fault: none. Every fault of the unit (ILLEGAL_COMMAND,
OPERAND_RANGE) is a next state (60_exceptions.md R264), and a read of ⊥ goes on with a free value (log 1). -/
inductive Fault where
deriving DecidableEq, Repr

/-- Reasons a step of the model is refused. -/
inductive Refusal where
  /-- An instruction with no meaning: raised by exec's refused arms only, of which this model has none. Safe. -/
  | notModelled (mnemonic : String)
  /-- A bus transaction is performed while rst_n = 0: raised by the host's turn (`hostTurn` in Bus.lean). Safe: R290
  says "a model refuses one" (93_implementation_defined.md U11; log 8). -/
  | busWhileReset
deriving DecidableEq, Repr

/-- R60: the unit after a hardware reset, for a configuration, rst_n being 1 again: SREG and PMEM ⊥, everything else 0,
empty or Idle; the host has issued nothing and nothing is scheduled (log 3, 4). -/
def State.resetWith (cfg : Config) : State where
  cfg := cfg
  sreg := Vector.replicate 16 .bot
  pmem := []
  queue := []
  engine := .idle
  done := false
  err := false
  drop := false
  errcode := .none
  doneIe := false
  errIe := false
  retired := 0#32
  errcmd := 0#32
  erridx := 0#32
  errloc := 0#32
  rstN := true
  txns := []
  responses := []
  sched := []
  draws := 0

/-- The machine right after reset: a unit with the default parameters (R8, R9; log 2). -/
def State.reset : State := State.resetWith Config.default

end Sys2Proof.Machine
end

