-- ==== Sys2Proof/Machine/Arith.lean ====
section
/-! DEFINITION. The arithmetic of the commands: the constants (spec/00_scope.md R6, R7), the field helpers (R16), the
rounding helpers (R17) and the word of an integer (R21). Everything is exact integer arithmetic (R12, 40_field.md R142). -/

namespace Sys2Proof.Machine

/-- R6: q = 8380417. -/
def q : Int := 8380417

/-- R21: the 32-bit word of an integer, v mod 2^32. -/
def wordOf (v : Int) : Word := BitVec.ofInt 32 v

/-! ## Field helpers (R16) -/

/-- R16: one conditional subtraction of q, for 0 ≤ a < 2q. -/
def reduceOnce (a : Int) : Int := if a ≥ q then a - q else a

/-- R16: field addition. -/
def fadd (x y : Int) : Int := reduceOnce (x + y)

/-- R16: field subtraction. -/
def fsub (x y : Int) : Int := reduceOnce (x - y + q)

/-- R16: field negation. -/
def fneg (x : Int) : Int := fsub 0 x

/-- R16: field multiplication. -/
def fmul (x y : Int) : Int := (x * y) % q

/-- R16: the symmetric representative. -/
def toSym (x : Int) : Int := if x ≤ (q - 1) / 2 then x else x - q

/-- R16: the field element of a symmetric integer. -/
def fromSym (x : Int) : Int := if x < 0 then x + q else x

/-- R16: the infinity norm of a field element. -/
def fnorm (x : Int) : Int := min x (q - x)

/-! ## Rounding helpers (R17) -/

/-- R7, R106: γ₂. -/
def gamma2 : Gamma → Int
  | .g88 => 95232
  | .g32 => 261888

/-- R7, R106: m = (q−1)/(2γ₂). -/
def bands : Gamma → Int
  | .g88 => 44
  | .g32 => 16

/-- R17: a mod 2^13, then minus 2^13 if above 2^12: the low part of Power2Round. -/
def power2Low (a : Int) : Int :=
  let r := a % 8192
  if r > 4096 then r - 8192 else r

/-- R17: Power2Round, (r1, r0). `>> 13` is floor division by 2^13 (R12). -/
def power2round (a : Int) : Int × Int := ((a - power2Low a) / 8192, power2Low a)

/-- R17: the centred remainder of a modulo 2γ₂, in (−γ₂, γ₂]. -/
def centred (a : Int) (g : Gamma) : Int :=
  let r := a % (2 * gamma2 g)
  if r > gamma2 g then r - 2 * gamma2 g else r

/-- R17: Decompose, (r1, r0), with the special case at q − 1 (90_conflicts.md C1). -/
def decompose (a : Int) (g : Gamma) : Int × Int :=
  let r0 := centred a g
  if a - r0 = q - 1 then (0, r0 - 1) else ((a - r0) / (2 * gamma2 g), r0)

/-- R17: HighBits. -/
def highbits (a : Int) (g : Gamma) : Int := (decompose a g).1

/-- R17: LowBits. -/
def lowbits (a : Int) (g : Gamma) : Int := (decompose a g).2

/-- R17: MakeHint. -/
def makehint (z r : Int) (g : Gamma) : Int := if highbits r g ≠ highbits (fadd r z) g then 1 else 0

/-- R17: UseHint. -/
def usehint (h r : Int) (g : Gamma) : Int :=
  let (r1, r0) := decompose r g
  if h = 0 then r1
  else if r0 > 0 then (r1 + 1) % bands g
  else (r1 - 1 + bands g) % bands g

end Sys2Proof.Machine
end

