-- ==== Sys2Proof/Machine/Ops.lean ====
section
/-! DEFINITION. The shared operations: PMEM (spec/10_state.md R33), SREG (R31), reading a word that may be ⊥ (R15,
93_implementation_defined.md U1), completing a command (60_exceptions.md R263), TAKING A FAULT (R264, R265), the return
from one (R270), and the two resets (70_reset_and_hazards.md R290, R292, R293). -/

namespace Sys2Proof.Machine

/-! ## PMEM -/

/-- The word's number of p[i][c] (R33): 256·i + c. -/
def wordNo (i c : Nat) : Nat := 256 * i + c

/-- The word at number a: the listed value, else ⊥ (R35; log 5). -/
def Mem.get : Mem → Nat → Slot
  | [], _ => .bot
  | (k, w) :: m, a => if k = a then .val w else Mem.get m a

/-- The listed words of consecutive slots from number `lo` on. -/
def cells : Nat → List Slot → Mem
  | _, [] => []
  | lo, .bot :: vs => cells (lo + 1) vs
  | lo, .val w :: vs => (lo, w) :: cells (lo + 1) vs

/-- Write consecutive words from number `lo` on; writing ⊥ takes the word off the list. -/
def Mem.write (m : Mem) (lo : Nat) (vs : List Slot) : Mem :=
  m.filter (fun x => x.1 < lo) ++ cells lo vs ++ m.filter (fun x => lo + vs.length ≤ x.1)

/-- The word numbers rise strictly from above `lo`. -/
def Mem.risesFrom : Option Nat → Mem → Bool
  | _, [] => true
  | none, (k, _) :: m => Mem.risesFrom (some k) m
  | some j, (k, _) :: m => decide (j < k) && Mem.risesFrom (some k) m

/-- The canonical form of PMEM (log 5): word numbers strictly rising. (A listed word is never ⊥ by its type.) -/
def Mem.wf (m : Mem) : Bool := Mem.risesFrom none m

/-- The 2^d words from number a on, each as `Mem.get` reads it (`Mem.span_eq` in Laws/Memory.lean), taken half by half. -/
def Mem.span : Nat → Mem → Nat → List Slot
  | 0, m, a => [Mem.get m a]
  | d + 1, m, a =>
    Mem.span d (m.filter fun x => x.1 < a + 2 ^ d) a ++ Mem.span d (m.filter fun x => a + 2 ^ d ≤ x.1) (a + 2 ^ d)

/-- The 256 words of p[i] (R13, R33). -/
def Mem.poly (m : Mem) (i : Nat) : List Slot := Mem.span 8 m (wordNo i 0)

/-- R13, `p[i] <- P`: write all 256 words of p[i]. -/
def Mem.setPoly (m : Mem) (i : Nat) (vs : List Slot) : Mem := Mem.write m (wordNo i 0) (vs.take 256)

/-- ⊥ in all 256 words of p[i]. -/
def Mem.clearPoly (m : Mem) (i : Nat) : Mem := Mem.setPoly m i (List.replicate 256 .bot)

/-! ## Registers of the state -/

/-- The word s[i] (R13). -/
def State.s (st : State) (i : SReg) : Slot := st.sreg.get i

/-- The word p[i][c] (R13). -/
def State.p (st : State) (i c : Nat) : Slot := Mem.get st.pmem (wordNo i c)

/-- Store a slot in s[i]. -/
def State.setS (st : State) (i : SReg) (v : Slot) : State := { st with sreg := st.sreg.set i v }

/-- R21, `s[i] <- wordOf(v)`. -/
def State.writeS (st : State) (i : SReg) (v : Int) : State := st.setS i (.val (wordOf v))

/-- Replace PMEM. -/
def State.setMem (st : State) (m : Mem) : State := { st with pmem := m }

/-- Store a slot in p[i][c]. -/
def State.setP (st : State) (i c : Nat) (v : Slot) : State := st.setMem (Mem.write st.pmem (wordNo i c) [v])

/-- U1, "any value" (log 1): what a read of a slot returns when n free values have been drawn, and how many have been
drawn after it. A value is itself; ⊥ is a free value, a fresh one. -/
def look (v : Slot) (n : Nat) : Word × Nat :=
  match v with
  | .val w => (w, n)
  | .bot => (Config.freeWord n, n + 1)

/-! ## Destinations (R264) -/

/-- A destination of a command: a scalar register or a whole polynomial register. -/
inductive Dest where
  | s (r : SReg)
  | p (r : Nat)
deriving DecidableEq, Repr

/-- The registers p[r] .. p[r+vl−1]. -/
def vectorDests (r : PReg) (v : VLen) : List Dest := (List.range v.vl).map fun i => .p (r.val + i)

/-- R264: every destination of a command: s[D], and s[B] for P2R and DECOMP; p[D..D+vl−1], p[D] for PDOT, and
p[B..B+vl−1] for PP2R and PDECOMP. -/
def destsOf : Instr → List Dest
  | .nop => []
  | .add d _ _ => [.s d]
  | .sub d _ _ => [.s d]
  | .neg d _ => [.s d]
  | .mul d _ _ => [.s d]
  | .red d _ => [.s d]
  | .tosym d _ => [.s d]
  | .fromsym d _ => [.s d]
  | .norm d _ => [.s d]
  | .mov d _ => [.s d]
  | .li d _ => [.s d]
  | .zeta d _ => [.s d]
  | .p2r d _ b => [.s d, .s b]
  | .decomp d _ b _ => [.s d, .s b]
  | .high d _ _ => [.s d]
  | .low d _ _ => [.s d]
  | .mkhint d _ _ _ => [.s d]
  | .usehint d _ _ _ => [.s d]
  | .padd d _ _ v _ => vectorDests d v
  | .psub d _ _ v _ => vectorDests d v
  | .pneg d _ v => vectorDests d v
  | .psmul d _ _ v => vectorDests d v
  | .pmov d _ v => vectorDests d v
  | .ptosym d _ v => vectorDests d v
  | .pfromsym d _ v => vectorDests d v
  | .pred d _ v => vectorDests d v
  | .pnorm d _ _ => [.s d]
  | .pnormz d _ _ => [.s d]
  | .ntt d _ v => vectorDests d v
  | .intt d _ v => vectorDests d v
  | .pmul d _ _ v _ => vectorDests d v
  | .pdot d _ _ _ _ => [.p d]
  | .pp2r d _ b v => vectorDests d v ++ vectorDests b v
  | .pdecomp d _ b v _ => vectorDests d v ++ vectorDests b v
  | .phigh d _ v _ => vectorDests d v
  | .plow d _ v _ => vectorDests d v
  | .pmkhint d _ _ v _ _ => vectorDests d v
  | .pusehint d _ _ v _ _ => vectorDests d v
  | .pwgt d _ _ => [.s d]

/-- Make one destination ⊥. -/
def clobberOne (st : State) : Dest → State
  | .s r => st.setS r .bot
  | .p r => st.setMem (Mem.clearPoly st.pmem r)

/-- R264, R293: make every listed destination ⊥. -/
def clobber (ds : List Dest) (st : State) : State := ds.foldl clobberOne st

/-! ## Completing a command, taking a fault, the return, and the resets -/

/-- R263: a command has completed without a fault (its writes are in the state already). -/
def State.completed (st : State) : State :=
  { st with retired := st.retired + 1#32, done := st.done || st.queue.isEmpty, engine := .idle }

/-- The register file of a fault location (R14). -/
inductive RegFile where
  | sreg
  | pmem
deriving DecidableEq, Repr

/-- A fault location: a register file, a register index and a coefficient index (R14). -/
structure Loc where
  file : RegFile
  reg : Nat
  coef : Nat
deriving DecidableEq, Repr

/-- R265: the FILE bit. -/
def RegFile.bit : RegFile → Nat
  | .sreg => 0
  | .pmem => 1

/-- R265: the ERRLOC word of a fault; `none` is the location of an ILLEGAL_COMMAND. -/
def errlocWord : Option Loc → Word
  | none => 0#32
  | some l => BitVec.ofNat 32 (2 ^ 15 + l.file.bit * 2 ^ 14 + l.reg * 2 ^ 8 + l.coef)

/-- TAKING A FAULT (R264): the command word w ends with the code and the location; ds are its destinations. -/
def takeFault (w : Word) (code : ErrCode) (loc : Option Loc) (ds : List Dest) (st : State) : State :=
  { clobber ds st with
    err := true
    errcode := code
    errcmd := w
    erridx := st.retired
    errloc := errlocWord loc
    queue := []
    engine := .idle }

/-- R261: an ILLEGAL_COMMAND reads no operand and has no destinations. -/
def takeIllegal (w : Word) (st : State) : State := takeFault w .illegalCommand none [] st

/-- THE RETURN (R270): CTRL.CLRERR clears ERR and ERRCODE when ERR = 1, and does nothing otherwise. -/
def clearError (st : State) : State :=
  if st.err then { st with err := false, errcode := .none } else st

/-- R293: the destinations of the command in flight, if there is one; a word that is no legal command has none
(R261; log 17). -/
def inFlightDests (st : State) : List Dest :=
  match st.engine with
  | .idle => []
  | .exec w =>
    match decodeWord st.cfg.npoly w with
    | .ok i => destsOf i
    | .error _ => []

/-- R292: the soft reset. SREG and PMEM keep their values but for the destinations of an aborted command (R293). -/
def softReset (st : State) : State :=
  { clobber (inFlightDests st) st with
    queue := []
    engine := .idle
    done := false
    err := false
    drop := false
    errcode := .none
    doneIe := false
    errIe := false
    retired := 0#32
    errcmd := 0#32
    erridx := 0#32
    errloc := 0#32 }

/-- R290: the hardware reset of the unit's own state to R60, at the given level of rst_n, whatever the level before
(DESIGN CHOICE, log 8: R290 speaks only of rst_n going to 0 and returning to 1). The configuration, the host's
side of the bus, the schedule and the count of free values are not the unit's (log 8). -/
def hardReset (level : Bool) (st : State) : State :=
  { State.resetWith st.cfg with
    rstN := level
    txns := st.txns
    responses := st.responses
    sched := st.sched
    draws := st.draws }

end Sys2Proof.Machine
end

