-- ==== Sys2Proof/Machine/Flags.lean ====
section
/-! DEFINITION. The status of the unit as the host sees it: BUSY, QLEVEL, the STATUS, IE and CONFIG words (spec/10_state.md
R40 to R51) and the interrupt output (R57). There are no condition codes read by commands (R58). -/

namespace Sys2Proof.Machine

/-- R45: STATUS.BUSY, the engine executes or the queue holds a word. "The unit is idle" is BUSY = 0. -/
def State.busy (st : State) : Bool := st.engine != .idle || !st.queue.isEmpty

/-- R50: STATUS.QLEVEL, the number of words accepted and not yet started. -/
def State.qlevel (st : State) : Nat := st.queue.length

/-- R260: the number of an error code. -/
def ErrCode.code : ErrCode → Nat
  | .none => 0
  | .illegalCommand => 1
  | .operandRange => 2

/-- R44: the STATUS word: BUSY 0, DONE 1, ERR 2, DROP 3, ERRCODE 11:8, QLEVEL 23:16, every other bit 0. -/
def State.statusWord (st : State) : Word :=
  BitVec.ofNat 32 (st.busy.toNat + st.done.toNat * 2 + st.err.toNat * 4 + st.drop.toNat * 8 +
    st.errcode.code * 2 ^ 8 + st.qlevel % 2 ^ 8 * 2 ^ 16)

/-- R51: the IE word: DONE_IE 0, ERR_IE 1. -/
def State.ieWord (st : State) : Word := BitVec.ofNat 32 (st.doneIe.toNat + st.errIe.toNat * 2)

/-- R40: the ID word. -/
def idWord : Word := 0x4D4C4441#32

/-- R41: the CONFIG word: NPOLY 7:0, NSREG 15:8 (16), CQ_DEPTH 23:16, VERSION 31:24 (1). -/
def configWord (c : Config) : Word :=
  BitVec.ofNat 32 (c.npoly.count + 16 * 2 ^ 8 + c.cqDepth % 2 ^ 8 * 2 ^ 16 + 1 * 2 ^ 24)

/-- R42: the QVAL word, q. -/
def qvalWord : Word := wordOf q

/-- R57, R266: the level output irq. -/
def State.irq (st : State) : Bool := (st.done && st.doneIe) || (st.err && st.errIe)

/-- U9 (log 9): the level of a line of the platform's interrupt inputs that this unit drives: its own line is FAU_IRQ. -/
def State.platformIrq (st : State) (line : Nat) : Bool := decide (line = Config.fauIrq) && st.irq

end Sys2Proof.Machine
end

