-- ==== Sys2Proof/Machine/Operands.lean ====
section
/-! DEFINITION. Operand types (spec/00_scope.md R18), the typed reads (R21, 60_exceptions.md R262), the element loop of a
vector command (R20, 42_ring.md R180), the shapes the commands share, and how a command's complete step ends (R263,
R264). -/

namespace Sys2Proof.Machine

/-- R18: the operand types. -/
inductive OpType where
  /-- F: a field element, unsigned(w) < q. -/
  | F
  /-- W: unreduced, unsigned(w) < 2q. -/
  | W
  /-- S: a symmetric integer, −(q−1)/2 ≤ signed(w) ≤ (q−1)/2. -/
  | S
  /-- H: a hint bit, unsigned(w) ∈ {0, 1}. -/
  | H
  /-- Z: a signed integer, any word. -/
  | Z
deriving DecidableEq, Repr

/-- R18, R262: the word is a legal value of the type. -/
def OpType.legal : OpType → Word → Bool
  | .F, w => decide ((w.toNat : Int) < q)
  | .W, w => decide ((w.toNat : Int) < 2 * q)
  | .S, w => decide (-((q - 1) / 2) ≤ w.toInt) && decide (w.toInt ≤ (q - 1) / 2)
  | .H, w => decide (w.toNat ≤ 1)
  | .Z, _ => true

/-- R21: the integer a typed read returns: unsigned for F, W, H; signed for S, Z. -/
def OpType.value : OpType → Word → Int
  | .F, w => w.toNat
  | .W, w => w.toNat
  | .S, w => w.toInt
  | .H, w => w.toNat
  | .Z, w => w.toInt

/-- What reading operands gives: a value, or the location of the first illegal word (R268); with it how many free values
have been drawn by then (log 1). -/
inductive Fetched (α : Type) where
  | ok (v : α) (draws : Nat)
  | bad (loc : Loc) (draws : Nat)
deriving DecidableEq, Repr

/-- Go on with the value; an illegal word ends the command there (R14). -/
def Fetched.bind {α β : Type} (r : Fetched α) (f : α → Nat → Fetched β) : Fetched β :=
  match r with
  | .ok v n => f v n
  | .bad l n => .bad l n

/-- R21: read one slot as a type; `loc` is where it stands. -/
def readTyped (t : OpType) (loc : Loc) (v : Slot) (n : Nat) : Fetched Int :=
  let r := look v n
  if t.legal r.1 then .ok (t.value r.1) r.2 else .bad loc r.2

/-- R21, `readS(i, T)`. -/
def readS (st : State) (i : SReg) (t : OpType) (n : Nat) : Fetched Int :=
  readTyped t ⟨.sreg, i.val, 0⟩ (st.s i) n

/-- R21: the slots of p[i] from coefficient c on, checked in ascending order. -/
def readWords (t : OpType) (i : Nat) : List Slot → Nat → Nat → Fetched (List Int)
  | [], _, n => .ok [] n
  | v :: vs, c, n =>
    (readTyped t ⟨.pmem, i, c⟩ v n).bind fun x n =>
      (readWords t i vs (c + 1) n).bind fun xs n => .ok (x :: xs) n

/-- R21, `readPoly(i, T)`: the 256 integers of p[i]. -/
def readPoly (m : Mem) (i : Nat) (t : OpType) (n : Nat) : Fetched (List Int) :=
  readWords t i (Mem.poly m i) 0 n

/-- The 256 words of a result (R21, `p[i][c] <- wordOf(v)` for every c). -/
def polyOf (xs : List Int) : List Slot := xs.map fun x => .val (wordOf x)

/-- R20, R180: `for i in i0 .. i0+k−1`, ascending, each element starting from what the one before it left. -/
def overElements {α : Type} (body : Nat → α → Nat → Fetched α) : Nat → Nat → α → Nat → Fetched α
  | 0, _, x, n => .ok x n
  | k + 1, i, x, n => (body i x n).bind fun x n => overElements body k (i + 1) x n

/-- R107: the register of operand B at element i. -/
def operandB (c : Bcast) (b i : Nat) : Nat :=
  match c with
  | .each => b + i
  | .one => b

/-! ## How a complete step ends -/

/-- The end of command i's complete step, from state st: on success the writes and R263; on an illegal operand word the
fault OPERAND_RANGE with the command word recorded (R264; log 10). -/
def finish (i : Instr) (st : State) : Fetched State → State
  | .ok t n => { t with draws := n }.completed
  | .bad loc n => takeFault (encode i) .operandRange (some loc) (destsOf i) { st with draws := n }

/-- A command's meaning always gives a next state (R264: a fault is one too). -/
def conclude (i : Instr) (st : State) (r : Fetched State) : Host.Outcome State Fault Refusal :=
  .next (finish i st r)

/-! ## The shapes of the scalar commands -/

/-- s[D] <- wordOf(f(readS(A, T))). -/
def scalarUnary (i : Instr) (t : OpType) (f : Int → Int) (d a : SReg) (st : State) :
    Host.Outcome State Fault Refusal :=
  conclude i st ((readS st a t st.draws).bind fun x n => .ok (st.writeS d (f x)) n)

/-- s[D] <- wordOf(f(readS(A, T), readS(B, U))), A read and checked before B (R268). -/
def scalarBinary (i : Instr) (t u : OpType) (f : Int → Int → Int) (d a b : SReg) (st : State) :
    Host.Outcome State Fault Refusal :=
  conclude i st ((readS st a t st.draws).bind fun x n => (readS st b u n).bind fun y n =>
    .ok (st.writeS d (f x y)) n)

/-- s[D] <- wordOf(f(x).1); s[B] <- wordOf(f(x).2), x = readS(A, T) read before either write. -/
def scalarPair (i : Instr) (t : OpType) (f : Int → Int × Int) (d a b : SReg) (st : State) :
    Host.Outcome State Fault Refusal :=
  conclude i st ((readS st a t st.draws).bind fun x n => .ok ((st.writeS d (f x).1).writeS b (f x).2) n)

/-- s[D] <- a word the command itself names. -/
def scalarConst (i : Instr) (v : Int) (d : SReg) (st : State) : Host.Outcome State Fault Refusal :=
  conclude i st (.ok (st.writeS d v) st.draws)

/-! ## The shapes of the polynomial commands (R180) -/

/-- p[D+i] <- f(readPoly(A+i, T)) for i < vl; f maps the 256 integers of a polynomial to 256 integers. -/
def polyUnary (i : Instr) (t : OpType) (f : List Int → List Int) (d a : PReg) (v : VLen) (st : State) :
    Host.Outcome State Fault Refusal :=
  conclude i st
    ((overElements (fun e m n => (readPoly m (a.val + e) t n).bind fun xs n =>
      .ok (Mem.setPoly m (d.val + e) (polyOf (f xs))) n) v.vl 0 st.pmem st.draws).bind fun m n => .ok (st.setMem m) n)

/-- p[D+i][c] <- f(A's coefficient, B's coefficient) for i < vl, all of A's checked before B's (R268). -/
def polyBinary (i : Instr) (t u : OpType) (f : Int → Int → Int) (d a b : PReg) (v : VLen) (c : Bcast) (st : State) :
    Host.Outcome State Fault Refusal :=
  conclude i st
    ((overElements (fun e m n => (readPoly m (a.val + e) t n).bind fun xs n =>
      (readPoly m (operandB c b.val e) u n).bind fun ys n =>
      .ok (Mem.setPoly m (d.val + e) (polyOf (List.zipWith f xs ys))) n) v.vl 0 st.pmem st.draws).bind
        fun m n => .ok (st.setMem m) n)

/-- p[D+i] <- the first parts and p[B+i] <- the second parts of f over p[A+i], the source read in full before either
write. -/
def polyPair (i : Instr) (t : OpType) (f : Int → Int × Int) (d a b : PReg) (v : VLen) (st : State) :
    Host.Outcome State Fault Refusal :=
  conclude i st
    ((overElements (fun e m n => (readPoly m (a.val + e) t n).bind fun xs n =>
      .ok (Mem.setPoly (Mem.setPoly m (d.val + e) (polyOf (xs.map fun x => (f x).1))) (b.val + e)
        (polyOf (xs.map fun x => (f x).2))) n) v.vl 0 st.pmem st.draws).bind fun m n => .ok (st.setMem m) n)

/-- s[D] <- the fold of g over every coefficient of p[A] .. p[A+vl−1], from 0. -/
def polyReduce (i : Instr) (t : OpType) (g : Int → Int → Int) (d : SReg) (a : PReg) (v : VLen) (st : State) :
    Host.Outcome State Fault Refusal :=
  conclude i st
    ((overElements (fun e acc n => (readPoly st.pmem (a.val + e) t n).bind fun xs n => .ok (xs.foldl g acc) n)
      v.vl 0 (0 : Int) st.draws).bind fun acc n => .ok (st.writeS d acc) n)

end Sys2Proof.Machine
end

