-- ==== Sys2Proof/Machine/Transform.lean ====
section
/-! DEFINITION. The forward and inverse transforms of one polynomial (spec/43_ntt.md R212, R213; log 15), as recursions
over the list of its 256 integers: a layer walks its groups from left to right, and a group of 2·len entries is a block
of len entries followed by its partner block. The twiddle index m is carried along as the rules carry it. -/

namespace Sys2Proof.Machine

/-- R212, the butterflies of one group: with t = z·w[j+len], w[j] becomes w[j] + t and w[j+len] becomes w[j] − t. -/
def ctGroup (z : Int) (lo hi : List Int) : List Int :=
  List.zipWith (fun x y => fadd x (fmul z y)) lo hi ++ List.zipWith (fun x y => fsub x (fmul z y)) lo hi

/-- R212, `while start < 256`: the groups of a layer. `m` is the index used last; each group uses the next. -/
def nttGroups (len : Nat) : Nat → Nat → List Int → List Int
  | 0, _, w => w
  | k + 1, m, w =>
    ctGroup (zrom (m + 1)) (w.take len) ((w.drop len).take len) ++ nttGroups len k (m + 1) (w.drop (2 * len))

/-- R212, `while len >= 1`: one layer, with the twiddle index carried along. -/
def nttLayer (s : Nat × List Int) (len : Nat) : Nat × List Int :=
  (s.1 + 128 / len, nttGroups len (128 / len) s.1 s.2)

/-- R212: `ntt(w)`: m from 0, len = 128, 64, …, 1. -/
def nttForward (w : List Int) : List Int := (([128, 64, 32, 16, 8, 4, 2, 1] : List Nat).foldl nttLayer (0, w)).2

/-- R213, the butterflies of one group: w[j] becomes w[j] + w[j+len] and w[j+len] becomes z·(w[j] − w[j+len]). -/
def gsGroup (z : Int) (lo hi : List Int) : List Int :=
  List.zipWith fadd lo hi ++ List.zipWith (fun x y => fmul z (fsub x y)) lo hi

/-- R213: the groups of a layer. `m` is the index used last; each group uses the one before it, negated. -/
def inttGroups (len : Nat) : Nat → Nat → List Int → List Int
  | 0, _, w => w
  | k + 1, m, w =>
    gsGroup (fneg (zrom (m - 1))) (w.take len) ((w.drop len).take len) ++ inttGroups len k (m - 1) (w.drop (2 * len))

/-- R213, `while len < 256`: one layer, with the twiddle index carried along. -/
def inttLayer (s : Nat × List Int) (len : Nat) : Nat × List Int :=
  (s.1 - 128 / len, inttGroups len (128 / len) s.1 s.2)

/-- R6: f = 256^(−1) mod q. -/
def inttScale : Int := 8347681

/-- R213: `intt(w)`: m from 256, len = 1, 2, …, 128, then the scale by f. -/
def nttInverse (w : List Int) : List Int :=
  ((([1, 2, 4, 8, 16, 32, 64, 128] : List Nat).foldl inttLayer (256, w)).2).map (fmul inttScale)

end Sys2Proof.Machine
end

