-- ==== Sys2Proof/Machine/Ntt.lean ====
section
/-! DEFINITION. The NTT commands (spec/43_ntt.md R214 to R217). -/

namespace Sys2Proof.Machine

/-- R214 NTT: the forward transform of each polynomial. -/
def execNtt (d a : PReg) (v : VLen) (s : State) : Host.Outcome State Fault Refusal :=
  polyUnary (.ntt d a v) .F nttForward d a v s

/-- R215 INTT: the inverse transform of each polynomial. -/
def execIntt (d a : PReg) (v : VLen) (s : State) : Host.Outcome State Fault Refusal :=
  polyUnary (.intt d a v) .F nttInverse d a v s

/-- R216 PMUL: coefficient-wise fmul. -/
def execPmul (d a b : PReg) (v : VLen) (c : Bcast) (s : State) : Host.Outcome State Fault Refusal :=
  polyBinary (.pmul d a b v c) .F .F fmul d a b v c s

/-- R217 PDOT: the dot product, accumulated over the vl terms; the only write is after all terms are read. -/
def execPdot (d a b : PReg) (v : VLen) (c : Bcast) (s : State) : Host.Outcome State Fault Refusal :=
  conclude (.pdot d a b v c) s
    ((overElements (fun e acc n => (readPoly s.pmem (a.val + e) .F n).bind fun xs n =>
      (readPoly s.pmem (operandB c b.val e) .F n).bind fun ys n =>
      .ok (List.zipWith fadd acc (List.zipWith fmul xs ys)) n) v.vl 0 (List.replicate 256 (0 : Int)) s.draws).bind
        fun acc n => .ok (s.setMem (Mem.setPoly s.pmem d.val (polyOf acc))) n)

end Sys2Proof.Machine
end

