-- ==== Sys2Proof/Machine/PolyRounding.lean ====
section
/-! DEFINITION. The polynomial rounding, hint and weight commands (spec/44_poly_rounding_hint.md R240 to R246). -/

namespace Sys2Proof.Machine

/-- R240 PP2R: r1 to p[D+i], r0 to p[B+i]. -/
def execPp2r (d a b : PReg) (v : VLen) (s : State) : Host.Outcome State Fault Refusal :=
  polyPair (.pp2r d a b v) .F power2round d a b v s

/-- R241 PDECOMP: r1 to p[D+i], r0 to p[B+i]. -/
def execPdecomp (d a b : PReg) (v : VLen) (g : Gamma) (s : State) : Host.Outcome State Fault Refusal :=
  polyPair (.pdecomp d a b v g) .F (fun x => decompose x g) d a b v s

/-- R242 PHIGH: coefficient-wise HighBits. -/
def execPhigh (d a : PReg) (v : VLen) (g : Gamma) (s : State) : Host.Outcome State Fault Refusal :=
  polyUnary (.phigh d a v g) .F (List.map fun x => highbits x g) d a v s

/-- R243 PLOW: coefficient-wise LowBits. -/
def execPlow (d a : PReg) (v : VLen) (g : Gamma) (s : State) : Host.Outcome State Fault Refusal :=
  polyUnary (.plow d a v g) .F (List.map fun x => lowbits x g) d a v s

/-- R244 PMKHINT: z = p[A+i], r the B operand. -/
def execPmkhint (d a b : PReg) (v : VLen) (c : Bcast) (g : Gamma) (s : State) : Host.Outcome State Fault Refusal :=
  polyBinary (.pmkhint d a b v c g) .F .F (fun z r => makehint z r g) d a b v c s

/-- R245 PUSEHINT: h = p[A+i] of type H, r the B operand. -/
def execPusehint (d a b : PReg) (v : VLen) (c : Bcast) (g : Gamma) (s : State) : Host.Outcome State Fault Refusal :=
  polyBinary (.pusehint d a b v c g) .H .F (fun h r => usehint h r g) d a b v c s

/-- R246 PWGT: the number of non-zero words of the vector. -/
def execPwgt (d : SReg) (a : PReg) (v : VLen) (s : State) : Host.Outcome State Fault Refusal :=
  polyReduce (.pwgt d a v) .Z (fun n x => if x ≠ 0 then n + 1 else n) d a v s

end Sys2Proof.Machine
end

