-- ==== Sys2Proof/Machine/Ring.lean ====
section
/-! DEFINITION. The polynomial ring commands (spec/42_ring.md R181 to R190). -/

namespace Sys2Proof.Machine

/-- R181 PADD: coefficient-wise fadd. -/
def execPadd (d a b : PReg) (v : VLen) (c : Bcast) (s : State) : Host.Outcome State Fault Refusal :=
  polyBinary (.padd d a b v c) .F .F fadd d a b v c s

/-- R182 PSUB: coefficient-wise fsub. -/
def execPsub (d a b : PReg) (v : VLen) (c : Bcast) (s : State) : Host.Outcome State Fault Refusal :=
  polyBinary (.psub d a b v c) .F .F fsub d a b v c s

/-- R183 PNEG: coefficient-wise fneg. -/
def execPneg (d a : PReg) (v : VLen) (s : State) : Host.Outcome State Fault Refusal :=
  polyUnary (.pneg d a v) .F (List.map fneg) d a v s

/-- R184 PSMUL: every coefficient times the scalar s[B], which is read and checked before any coefficient (R268). -/
def execPsmul (d a : PReg) (b : SReg) (v : VLen) (s : State) : Host.Outcome State Fault Refusal :=
  conclude (.psmul d a b v) s ((readS s b .F s.draws).bind fun k n =>
    (overElements (fun e m n => (readPoly m (a.val + e) .F n).bind fun xs n =>
      .ok (Mem.setPoly m (d.val + e) (polyOf (xs.map fun x => fmul x k))) n) v.vl 0 s.pmem n).bind
        fun m n => .ok (s.setMem m) n)

/-- R185 PMOV: every word unchanged. -/
def execPmov (d a : PReg) (v : VLen) (s : State) : Host.Outcome State Fault Refusal :=
  polyUnary (.pmov d a v) .Z (fun xs => xs) d a v s

/-- R186 PTOSYM: coefficient-wise to_sym. -/
def execPtosym (d a : PReg) (v : VLen) (s : State) : Host.Outcome State Fault Refusal :=
  polyUnary (.ptosym d a v) .F (List.map toSym) d a v s

/-- R187 PFROMSYM: coefficient-wise from_sym, source of type S. -/
def execPfromsym (d a : PReg) (v : VLen) (s : State) : Host.Outcome State Fault Refusal :=
  polyUnary (.pfromsym d a v) .S (List.map fromSym) d a v s

/-- R188 PRED: coefficient-wise reduce_once, source of type W. -/
def execPred (d a : PReg) (v : VLen) (s : State) : Host.Outcome State Fault Refusal :=
  polyUnary (.pred d a v) .W (List.map reduceOnce) d a v s

/-- R189 PNORM: the maximum of fnorm over the vector, from 0. -/
def execPnorm (d : SReg) (a : PReg) (v : VLen) (s : State) : Host.Outcome State Fault Refusal :=
  polyReduce (.pnorm d a v) .F (fun acc x => max acc (fnorm x)) d a v s

/-- R190 PNORMZ: the maximum absolute value over the vector, from 0, exact for −2^31 too. -/
def execPnormz (d : SReg) (a : PReg) (v : VLen) (s : State) : Host.Outcome State Fault Refusal :=
  polyReduce (.pnormz d a v) .Z (fun acc x => max acc |x|) d a v s

end Sys2Proof.Machine
end

