-- ==== Sys2Proof/Machine/Rounding.lean ====
section
/-! DEFINITION. The scalar rounding and hint commands (spec/41_rounding.md R160 to R165). -/

namespace Sys2Proof.Machine

/-- R160 P2R: r1 to s[D], r0 to s[B]. -/
def execP2r (d a b : SReg) (s : State) : Host.Outcome State Fault Refusal :=
  scalarPair (.p2r d a b) .F power2round d a b s

/-- R161 DECOMP: r1 to s[D], r0 to s[B]. -/
def execDecomp (d a b : SReg) (g : Gamma) (s : State) : Host.Outcome State Fault Refusal :=
  scalarPair (.decomp d a b g) .F (fun x => decompose x g) d a b s

/-- R162 HIGH: HighBits. -/
def execHigh (d a : SReg) (g : Gamma) (s : State) : Host.Outcome State Fault Refusal :=
  scalarUnary (.high d a g) .F (fun x => highbits x g) d a s

/-- R163 LOW: LowBits. -/
def execLow (d a : SReg) (g : Gamma) (s : State) : Host.Outcome State Fault Refusal :=
  scalarUnary (.low d a g) .F (fun x => lowbits x g) d a s

/-- R164 MKHINT: z = s[A], r = s[B]. -/
def execMkhint (d a b : SReg) (g : Gamma) (s : State) : Host.Outcome State Fault Refusal :=
  scalarBinary (.mkhint d a b g) .F .F (fun z r => makehint z r g) d a b s

/-- R165 USEHINT: h = s[A] of type H, r = s[B]. -/
def execUsehint (d a b : SReg) (g : Gamma) (s : State) : Host.Outcome State Fault Refusal :=
  scalarBinary (.usehint d a b g) .H .F (fun h r => usehint h r g) d a b s

end Sys2Proof.Machine
end

