-- ==== Sys2Proof/Machine/Scalar.lean ====
section
/-! DEFINITION. The scalar field commands (spec/40_field.md R130 to R141). -/

namespace Sys2Proof.Machine

/-- R130 NOP: nothing but the completion (R263). -/
def execNop (s : State) : Host.Outcome State Fault Refusal :=
  conclude .nop s (.ok s s.draws)

/-- R131 ADD: reduce_once(x + y). -/
def execAdd (d a b : SReg) (s : State) : Host.Outcome State Fault Refusal :=
  scalarBinary (.add d a b) .F .F fadd d a b s

/-- R132 SUB: reduce_once(x − y + q). -/
def execSub (d a b : SReg) (s : State) : Host.Outcome State Fault Refusal :=
  scalarBinary (.sub d a b) .F .F fsub d a b s

/-- R133 NEG: reduce_once(0 − x + q). -/
def execNeg (d a : SReg) (s : State) : Host.Outcome State Fault Refusal :=
  scalarUnary (.neg d a) .F fneg d a s

/-- R134 MUL: (x · y) mod q. -/
def execMul (d a b : SReg) (s : State) : Host.Outcome State Fault Refusal :=
  scalarBinary (.mul d a b) .F .F fmul d a b s

/-- R135 RED: one conditional subtraction of q, source of type W. -/
def execRed (d a : SReg) (s : State) : Host.Outcome State Fault Refusal :=
  scalarUnary (.red d a) .W reduceOnce d a s

/-- R136 TOSYM: the symmetric representative. -/
def execTosym (d a : SReg) (s : State) : Host.Outcome State Fault Refusal :=
  scalarUnary (.tosym d a) .F toSym d a s

/-- R137 FROMSYM: the field element of a symmetric integer, source of type S. -/
def execFromsym (d a : SReg) (s : State) : Host.Outcome State Fault Refusal :=
  scalarUnary (.fromsym d a) .S fromSym d a s

/-- R138 NORM: min(x, q − x). -/
def execNorm (d a : SReg) (s : State) : Host.Outcome State Fault Refusal :=
  scalarUnary (.norm d a) .F fnorm d a s

/-- R139 MOV: the source word unchanged (type Z accepts every word). -/
def execMov (d a : SReg) (s : State) : Host.Outcome State Fault Refusal :=
  scalarUnary (.mov d a) .Z (fun x => x) d a s

/-- R140 LI: the zero-extended immediate (R109). -/
def execLi (d : SReg) (imm : BitVec 20) (s : State) : Host.Outcome State Fault Refusal :=
  scalarConst (.li d imm) imm.toNat d s

/-- R141 ZETA: ZROM[k]. -/
def execZeta (d : SReg) (k : Fin 256) (s : State) : Host.Outcome State Fault Refusal :=
  scalarConst (.zeta d k) (zrom k.val) d s

end Sys2Proof.Machine
end

