-- ==== Sys2Proof/Machine/Dispatch.lean ====
section
/-! DEFINITION. The dispatch: one arm for each command, one direct call of its meaning. -/

namespace Sys2Proof.Machine

def exec (i : Instr) (s : State) : Host.Outcome State Fault Refusal :=
  match i with
  | .nop => Sys2Proof.Machine.execNop s
  | .add d a b => Sys2Proof.Machine.execAdd d a b s
  | .sub d a b => Sys2Proof.Machine.execSub d a b s
  | .neg d a => Sys2Proof.Machine.execNeg d a s
  | .mul d a b => Sys2Proof.Machine.execMul d a b s
  | .red d a => Sys2Proof.Machine.execRed d a s
  | .tosym d a => Sys2Proof.Machine.execTosym d a s
  | .fromsym d a => Sys2Proof.Machine.execFromsym d a s
  | .norm d a => Sys2Proof.Machine.execNorm d a s
  | .mov d a => Sys2Proof.Machine.execMov d a s
  | .li d imm => Sys2Proof.Machine.execLi d imm s
  | .zeta d k => Sys2Proof.Machine.execZeta d k s
  | .p2r d a b => Sys2Proof.Machine.execP2r d a b s
  | .decomp d a b g => Sys2Proof.Machine.execDecomp d a b g s
  | .high d a g => Sys2Proof.Machine.execHigh d a g s
  | .low d a g => Sys2Proof.Machine.execLow d a g s
  | .mkhint d a b g => Sys2Proof.Machine.execMkhint d a b g s
  | .usehint d a b g => Sys2Proof.Machine.execUsehint d a b g s
  | .padd d a b v c => Sys2Proof.Machine.execPadd d a b v c s
  | .psub d a b v c => Sys2Proof.Machine.execPsub d a b v c s
  | .pneg d a v => Sys2Proof.Machine.execPneg d a v s
  | .psmul d a b v => Sys2Proof.Machine.execPsmul d a b v s
  | .pmov d a v => Sys2Proof.Machine.execPmov d a v s
  | .ptosym d a v => Sys2Proof.Machine.execPtosym d a v s
  | .pfromsym d a v => Sys2Proof.Machine.execPfromsym d a v s
  | .pred d a v => Sys2Proof.Machine.execPred d a v s
  | .pnorm d a v => Sys2Proof.Machine.execPnorm d a v s
  | .pnormz d a v => Sys2Proof.Machine.execPnormz d a v s
  | .ntt d a v => Sys2Proof.Machine.execNtt d a v s
  | .intt d a v => Sys2Proof.Machine.execIntt d a v s
  | .pmul d a b v c => Sys2Proof.Machine.execPmul d a b v c s
  | .pdot d a b v c => Sys2Proof.Machine.execPdot d a b v c s
  | .pp2r d a b v => Sys2Proof.Machine.execPp2r d a b v s
  | .pdecomp d a b v g => Sys2Proof.Machine.execPdecomp d a b v g s
  | .phigh d a v g => Sys2Proof.Machine.execPhigh d a v g s
  | .plow d a v g => Sys2Proof.Machine.execPlow d a v g s
  | .pmkhint d a b v c g => Sys2Proof.Machine.execPmkhint d a b v c g s
  | .pusehint d a b v c g => Sys2Proof.Machine.execPusehint d a b v c g s
  | .pwgt d a v => Sys2Proof.Machine.execPwgt d a v s

end Sys2Proof.Machine
end

