-- ==== Sys2Proof/Machine/Bus.lean ====
section
/-! DEFINITION. The host's side: the address map (spec/20_memory.md R71 to R75), bus transactions (R76 to R81, R84 to
R87), the register writes with effects (10_state.md R43 to R52), and the host's turn. -/

namespace Sys2Proof.Machine

/-- What a word address of the register window names (R71). -/
inductive Target where
  | id
  | config
  | qval
  | ctrl
  | status
  | ie
  | cmd
  | retired
  | errcmd
  | erridx
  | errloc
  /-- s[i] (R72). -/
  | sreg (i : SReg)
  /-- ZROM[k] (R73). -/
  | zrom (k : Nat)
  /-- p[i][c] (R74). -/
  | pmem (i c : Nat)
  /-- Any other address (R75). -/
  | reserved
deriving DecidableEq, Repr

/-- R71 to R75: the map, for a word-aligned address. PMEM registers from NPOLY on are reserved (R74). -/
def targetOf (np : NPoly) (addr : BitVec 17) : Target :=
  let a := addr.toNat
  if a = 0x00000 then .id
  else if a = 0x00004 then .config
  else if a = 0x00008 then .qval
  else if a = 0x0000C then .ctrl
  else if a = 0x00010 then .status
  else if a = 0x00014 then .ie
  else if a = 0x00018 then .cmd
  else if a = 0x0001C then .retired
  else if a = 0x00020 then .errcmd
  else if a = 0x00024 then .erridx
  else if a = 0x00028 then .errloc
  else if 0x00100 ≤ a ∧ a < 0x00140 then .sreg (sField ((a - 0x100) / 4))
  else if 0x00400 ≤ a ∧ a < 0x00800 then .zrom ((a - 0x400) / 4)
  else if 0x10000 ≤ a ∧ bits addr 15 10 < np.count then .pmem (bits addr 15 10) (bits addr 9 2)
  else .reserved

/-- U8 (log 9): the address in the host's own address space of an offset in the window. -/
def hostAddress (offset : BitVec 17) : Nat := Config.fauBase + offset.toNat

/-- R70: a transaction is held (`ready` = 0), or completes with a response. -/
inductive Handshake where
  | held
  | completes (resp : BusResp) (st : State)
deriving DecidableEq, Repr

/-- Complete without `err`. -/
def respond (rdata : Word) (st : State) : Handshake := .completes ⟨rdata, false⟩ st

/-- R72, R74, U1: read a window word; it is held while the unit is busy (R84). -/
def windowRead (v : Slot) (st : State) : Handshake :=
  if st.busy then .held
  else
    let r := look v st.draws
    respond r.1 { st with draws := r.2 }

/-- R72, R74: write a window word; it is held while the unit is busy (R84). -/
def windowWrite (st st' : State) : Handshake := if st.busy then .held else respond 0#32 st'

/-- R71, R80: a supported read. -/
def busRead (t : Target) (st : State) : Handshake :=
  match t with
  | .id => respond idWord st
  | .config => respond (configWord st.cfg) st
  | .qval => respond qvalWord st
  | .ctrl => respond 0#32 st
  | .status => respond st.statusWord st
  | .ie => respond st.ieWord st
  | .cmd => respond 0#32 st
  | .retired => respond st.retired st
  | .errcmd => respond st.errcmd st
  | .erridx => respond st.erridx st
  | .errloc => respond st.errloc st
  | .sreg i => windowRead (st.s i) st
  | .zrom k => respond (wordOf (zrom k)) st
  | .pmem i c => windowRead (st.p i c) st
  | .reserved => respond 0#32 st

/-- R86, R87: a CMD write. With ERR = 1 the word is dropped and DROP set; else it is queued, or held while the queue is
full. -/
def cmdWrite (w : Word) (st : State) : Handshake :=
  if st.err then respond 0#32 { st with drop := true }
  else if st.queue.length < st.cfg.cqDepth then respond 0#32 { st with queue := st.queue ++ [w] }
  else .held

/-- R43: a CTRL write: bit 1 SRST, which wins, else bit 0 CLRERR. -/
def ctrlWrite (w : Word) (st : State) : State :=
  if bits w 1 1 = 1 then softReset st
  else if bits w 0 0 = 1 then clearError st
  else st

/-- R44, R46, R48: a STATUS write clears DONE where bit 1 is 1 and DROP where bit 3 is 1. -/
def statusWrite (w : Word) (st : State) : State :=
  { st with
    done := st.done && decide (bits w 1 1 = 0)
    drop := st.drop && decide (bits w 3 3 = 0) }

/-- R51: an IE write stores bits 0 and 1. -/
def ieWrite (w : Word) (st : State) : State :=
  { st with doneIe := decide (bits w 0 0 = 1), errIe := decide (bits w 1 1 = 1) }

/-- R81: a supported write. Those with an effect are CMD, CTRL, STATUS, IE and the two windows; all others are ignored
(R75). -/
def busWrite (t : Target) (w : Word) (st : State) : Handshake :=
  match t with
  | .ctrl => respond 0#32 (ctrlWrite w st)
  | .status => respond 0#32 (statusWrite w st)
  | .ie => respond 0#32 (ieWrite w st)
  | .cmd => cmdWrite w st
  | .sreg i => windowWrite st (st.setS i (.val w))
  | .pmem i c => windowWrite st (st.setP i c (.val w))
  | .id => respond 0#32 st
  | .config => respond 0#32 st
  | .qval => respond 0#32 st
  | .retired => respond 0#32 st
  | .errcmd => respond 0#32 st
  | .erridx => respond 0#32 st
  | .errloc => respond 0#32 st
  | .zrom _ => respond 0#32 st
  | .reserved => respond 0#32 st

/-- R78: addr[1:0] ≠ 0, or a write with wstrb ≠ 0b1111. -/
def badAccess (t : BusReq) : Bool := decide (bits t.addr 1 0 ≠ 0) || (t.write && decide (t.wstrb ≠ 0b1111#4))

/-- R77, R78: one transaction. An unsupported access completes with `err`, rdata 0 and no effect (log 11). DESIGN CHOICE
(log 11): it does so at once, whatever it addresses; the spec does not say whether one that addresses a window of a busy
unit, or CMD with a full queue, first waits out the stall of R84 or R86. -/
def transact (t : BusReq) (st : State) : Handshake :=
  if badAccess t then .completes ⟨0#32, true⟩ st
  else if t.write then busWrite (targetOf st.cfg.npoly t.addr) t.wdata st
  else busRead (targetOf st.cfg.npoly t.addr) st

/-- The host's turn (R11, R82): the outstanding transaction completes, or is held. A transaction performed while
rst_n = 0 is refused (R290; log 8). -/
def hostTurn (st : State) : Host.Outcome State Fault Refusal :=
  match st.txns with
  | [] => .next st
  | t :: rest =>
    if st.rstN then
      match transact t st with
      | .held => .next st
      | .completes r st' => .next { st' with txns := rest, responses := r :: st'.responses }
    else .refused .busWhileReset

end Sys2Proof.Machine
end

