-- ==== Sys2Proof/Machine/Engine.lean ====
section
/-! DEFINITION. The command engine's two steps (spec/10_state.md R38), the reset input (70_reset_and_hazards.md R290) and
the choice of who moves (log 3). -/

namespace Sys2Proof.Machine

/-- R38, R112: the complete step of command word w: the meaning of the command it decodes to, or ILLEGAL_COMMAND. -/
def completeStep (w : Word) (st : State) : Host.Outcome State Fault Refusal :=
  match decodeWord st.cfg.npoly w with
  | .ok i => exec i st
  | .error _ => .next (takeIllegal w st)

/-- R38: the start step: with ERR = 0 and a word in the queue, take the head. Otherwise nothing happens. -/
def startStep (st : State) : State :=
  match st.queue with
  | [] => st
  | w :: ws => if st.err then st else { st with queue := ws, engine := .exec w }

/-- R38: the engine's turn. Nothing moves while rst_n = 0 (R290). -/
def engineTurn (st : State) : Host.Outcome State Fault Refusal :=
  if st.rstN then
    match st.engine with
    | .exec w => completeStep w st
    | .idle => .next (startStep st)
  else .next st

/-- The engine has a step to take. -/
def engineCanMove (st : State) : Bool :=
  st.rstN && (st.engine != .idle || (!st.err && !st.queue.isEmpty))

/-- One move (log 3): the next scheduled turn; with nothing scheduled, the engine if it can move, else the host.
DESIGN CHOICE (log 8): a turn that gives rst_n the level it has already is a hardware reset too, at 1 as if rst_n had been
0 for an instant within the move; R290 names no such event. -/
def move (st : State) : Host.Outcome State Fault Refusal :=
  match st.sched with
  | .engine :: ts => engineTurn { st with sched := ts }
  | .host :: ts => hostTurn { st with sched := ts }
  | .resetPin level :: ts => .next (hardReset level { st with sched := ts })
  | [] => if engineCanMove st then engineTurn st else hostTurn st

/-- The state in which the very next move completes the command word w (log 7): the engine is Exec(w), the reset input
is 1 and the engine has the next turn. -/
def loadCommand (w : Word) (st : State) : State :=
  { st with engine := .exec w, rstN := true, sched := .engine :: st.sched }

end Sys2Proof.Machine
end

