-- ==== Sys2Proof/Machine/Step.lean ====
section
/-! DEFINITION. One step of the machine: one move of an agent (Engine.lean), and the state in which the next step runs a
given command word. -/

namespace Sys2Proof.Machine

/-- One step of the unit: the start or the complete step of the engine (spec/10_state.md R38), one bus transaction of the
host (20_memory.md R70), or a change of the reset input (70_reset_and_hazards.md R290). -/
def step (st : State) : Host.Outcome State Fault Refusal := move st

/-- The state whose very next step completes the command whose word is w (nbits bits given, every bit above them 0): the
unit does not fetch (20_memory.md R90), so the word is put where the engine holds the command in flight (log 7). -/
def State.withFetchWord (s : State) (nbits w : Nat) : State := loadCommand (BitVec.ofNat 32 (w % 2 ^ nbits)) s

end Sys2Proof.Machine
end

