-- ==== Sys2Proof/Machine/Assembler.lean ====
section
/-! DEFINITION. The assembly language of the command words (spec/30_encoding.md R117 to R120): a line of text becomes the
list of commands it stands for. The machine never reads assembly; this file says which command a line names. -/

namespace Sys2Proof.Machine

/-- Why a line is no legal line. -/
inductive AsmError where
  /-- No command or pseudo-instruction has this name. -/
  | unknownMnemonic
  /-- A qualifier that does not exist, that the command does not allow (R118), that is given twice, or that MATVEC
  lacks (log 13). -/
  | badQualifier
  /-- Operands of the wrong number or kind (R119). -/
  | badOperands
  /-- A register number or an immediate outside its range (R104, R109, R110, R117, R120). -/
  | outOfRange
deriving DecidableEq, Repr

/-- A qualifier (R118; `k` and `l` are MATVEC's, R120). -/
inductive Qualifier where
  | v (n : Nat)
  | bc
  | g88
  | g32
  | k (n : Nat)
  | l (n : Nat)
deriving DecidableEq, Repr

/-- An operand (R117). -/
inductive AsmOperand where
  | s (n : Nat)
  | p (n : Nat)
  | imm (n : Nat)
deriving DecidableEq, Repr

/-! ## Reading a line of text (R117) -/

/-- The text before the comment. -/
def stripComment : List Char → List Char
  | [] => []
  | c :: cs => if c = ';' then [] else c :: stripComment cs

/-- White space. -/
def isBlank (c : Char) : Bool := c = ' ' || c = '\t' || c = '\r' || c = '\n'

/-- Without white space at either end. -/
def trimBlanks (cs : List Char) : List Char := ((cs.dropWhile isBlank).reverse.dropWhile isBlank).reverse

/-- The parts of a text between separators. -/
def splitAt (sep : Char) : List Char → List (List Char)
  | [] => [[]]
  | c :: cs =>
    match splitAt sep cs with
    | [] => [[c]]
    | p :: ps => if c = sep then [] :: p :: ps else (c :: p) :: ps

/-- The digit a character is, in a base up to 16 (upper case is lowered first). -/
def digit (base : Nat) (c : Char) : Option Nat :=
  let n := if '0' ≤ c ∧ c ≤ '9' then c.toNat - '0'.toNat
    else if 'a' ≤ c ∧ c ≤ 'f' then c.toNat - 'a'.toNat + 10
    else base
  if n < base then some n else none

/-- The number that digits stand for, `acc` being the ones before them. -/
def number (base : Nat) : Nat → List Char → Option Nat
  | acc, [] => some acc
  | acc, c :: cs =>
    match digit base c with
    | some d => number base (base * acc + d) cs
    | none => none

/-- R117: a decimal number, of at least one digit. DESIGN CHOICE (log 13): leading zeros are accepted, in register and
qualifier numbers too (`s01`, `p007`, `.v04`), of which the spec says nothing. -/
def decimal : List Char → Option Nat
  | [] => none
  | c :: cs => number 10 0 (c :: cs)

/-- R117: a decimal or `0x` hexadecimal number. (`0X` and upper-case digits: log 13; the line is lowered first.) -/
def immediate : List Char → Option Nat
  | '0' :: 'x' :: c :: cs => number 16 0 (c :: cs)
  | cs => decimal cs

/-- R117: an operand. -/
def readOperand (cs : List Char) : Except AsmError AsmOperand :=
  let r := match cs with
    | 's' :: ds => (decimal ds).map AsmOperand.s
    | 'p' :: ds => (decimal ds).map AsmOperand.p
    | ds => (immediate ds).map AsmOperand.imm
  match r with
  | some o => .ok o
  | none => .error .badOperands

/-- R118, R120: a qualifier, the text after its dot. -/
def readQualifier (cs : List Char) : Except AsmError Qualifier :=
  let r := match cs with
    | ['b', 'c'] => some Qualifier.bc
    | ['g', '8', '8'] => some Qualifier.g88
    | ['g', '3', '2'] => some Qualifier.g32
    | 'v' :: ds => (decimal ds).map Qualifier.v
    | 'k' :: ds => (decimal ds).map Qualifier.k
    | 'l' :: ds => (decimal ds).map Qualifier.l
    | _ => none
  match r with
  | some o => .ok o
  | none => .error .badQualifier

/-- Read each part, stopping at the first that cannot be read. -/
def readAll {α : Type} (read : List Char → Except AsmError α) : List (List Char) → Except AsmError (List α)
  | [] => .ok []
  | c :: cs =>
    match read c with
    | .error e => .error e
    | .ok x =>
      match readAll read cs with
      | .error e => .error e
      | .ok xs => .ok (x :: xs)

/-! ## Qualifiers of a command (R118) -/

/-- Which qualifiers a command allows (R113, R118). -/
structure Allowed where
  v : Bool := false
  c : Bool := false
  g : Bool := false
deriving DecidableEq, Repr

/-- The qualifiers of a command, each given at most once. -/
structure Quals where
  v : Option VLen := none
  c : Option Bcast := none
  g : Option Gamma := none
deriving DecidableEq, Repr

/-- R118: `.v1` to `.v8`, `.bc`, `.g88` and `.g32`, of those the command allows. -/
def readQuals (al : Allowed) : List Qualifier → Quals → Except AsmError Quals
  | [], q => .ok q
  | .v n :: qs, q =>
    if al.v && q.v.isNone && decide (1 ≤ n ∧ n ≤ 8) then readQuals al qs { q with v := some (Fin.ofNat 8 (n - 1)) }
    else .error .badQualifier
  | .bc :: qs, q =>
    if al.c && q.c.isNone then readQuals al qs { q with c := some .one } else .error .badQualifier
  | .g88 :: qs, q =>
    if al.g && q.g.isNone then readQuals al qs { q with g := some .g88 } else .error .badQualifier
  | .g32 :: qs, q =>
    if al.g && q.g.isNone then readQuals al qs { q with g := some .g32 } else .error .badQualifier
  | .k _ :: _, _ => .error .badQualifier
  | .l _ :: _, _ => .error .badQualifier

/-- R118: an absent `.vN` means `.v1`. -/
def Quals.vlen (q : Quals) : VLen := q.v.getD 0
/-- R118: an absent `.bc` means BC = 0. -/
def Quals.bcast (q : Quals) : Bcast := q.c.getD .each
/-- R118: an absent `.g` qualifier means `.g88`. -/
def Quals.gamma (q : Quals) : Gamma := q.g.getD .g88

/-! ## The operand shapes (R119): destinations first, then sources -/

/-- Give the commands when the numbers are in range. -/
def inRange (ok : Bool) (is : List Instr) : Except AsmError (List Instr) := if ok then .ok is else .error .outOfRange

/-- `OP sD, sA, sB`. -/
def shapeSSS (ops : List AsmOperand) (mk : SReg → SReg → SReg → Instr) : Except AsmError (List Instr) :=
  match ops with
  | [.s d, .s a, .s b] => inRange (d < 16 && a < 16 && b < 16) [mk (sField d) (sField a) (sField b)]
  | _ => .error .badOperands

/-- `OP sD, sA`. -/
def shapeSS (ops : List AsmOperand) (mk : SReg → SReg → Instr) : Except AsmError (List Instr) :=
  match ops with
  | [.s d, .s a] => inRange (d < 16 && a < 16) [mk (sField d) (sField a)]
  | _ => .error .badOperands

/-- `OP sD, n` with a limit on n. -/
def shapeSI (ops : List AsmOperand) (limit : Nat) (mk : SReg → Nat → Instr) : Except AsmError (List Instr) :=
  match ops with
  | [.s d, .imm n] => inRange (d < 16 && n < limit) [mk (sField d) n]
  | _ => .error .badOperands

/-- `OP pD, pA, pB`. -/
def shapePPP (ops : List AsmOperand) (mk : PReg → PReg → PReg → Instr) : Except AsmError (List Instr) :=
  match ops with
  | [.p d, .p a, .p b] => inRange (d < 64 && a < 64 && b < 64) [mk (pField d) (pField a) (pField b)]
  | _ => .error .badOperands

/-- `OP pD, pA`. -/
def shapePP (ops : List AsmOperand) (mk : PReg → PReg → Instr) : Except AsmError (List Instr) :=
  match ops with
  | [.p d, .p a] => inRange (d < 64 && a < 64) [mk (pField d) (pField a)]
  | _ => .error .badOperands

/-- `PSMUL pD, pA, sB`. -/
def shapePPS (ops : List AsmOperand) (mk : PReg → PReg → SReg → Instr) : Except AsmError (List Instr) :=
  match ops with
  | [.p d, .p a, .s b] => inRange (d < 64 && a < 64 && b < 16) [mk (pField d) (pField a) (sField b)]
  | _ => .error .badOperands

/-- `OP sD, pA`. -/
def shapeSP (ops : List AsmOperand) (mk : SReg → PReg → Instr) : Except AsmError (List Instr) :=
  match ops with
  | [.s d, .p a] => inRange (d < 16 && a < 64) [mk (sField d) (pField a)]
  | _ => .error .badOperands

/-- A command with the qualifiers it allows. -/
def qualified (al : Allowed) (qs : List Qualifier) (f : Quals → Except AsmError (List Instr)) :
    Except AsmError (List Instr) :=
  match readQuals al qs {} with
  | .ok q => f q
  | .error e => .error e

/-! ## The commands and the pseudo-instructions -/

/-- R120, `MATVEC.kK.lL pW, pA, pV`: row i is `PDOT.vL p(W+i), p(A+L·i), pV`. -/
def matvecRows (k l w a v : Nat) : List Instr :=
  (List.range k).map fun i => .pdot (pField (w + i)) (pField (a + l * i)) (pField v) (vField (l - 1)) .each

/-- R120: MATVEC has exactly its two qualifiers, 1 ≤ K, L ≤ 8, and names registers p0 to p63 only. -/
def matvec (qs : List Qualifier) (ops : List AsmOperand) : Except AsmError (List Instr) :=
  match qs, ops with
  | [.k k, .l l], [.p w, .p a, .p v] =>
    if 1 ≤ k ∧ k ≤ 8 ∧ 1 ≤ l ∧ l ≤ 8 then
      inRange (decide (w + k ≤ 64) && decide (a + k * l ≤ 64) && decide (v < 64)) (matvecRows k l w a v)
    else .error .badQualifier
  | [.k _, .l _], _ => .error .badOperands
  | _, _ => .error .badQualifier

/-- R120, `LIN sD, n`: `LI sD, n` then `NEG sD, sD`, for 1 ≤ n < 2^20. -/
def lin (ops : List AsmOperand) : Except AsmError (List Instr) :=
  match ops with
  | [.s d, .imm n] =>
    inRange (d < 16 && decide (1 ≤ n) && decide (n < 2 ^ 20))
      [.li (sField d) (BitVec.ofNat 20 n), .neg (sField d) (sField d)]
  | _ => .error .badOperands

/-- R120, `CLR sD`. -/
def clr (ops : List AsmOperand) : Except AsmError (List Instr) :=
  match ops with
  | [.s d] => inRange (d < 16) [.li (sField d) 0#20]
  | _ => .error .badOperands

/-- The commands a mnemonic (in lower case), its qualifiers and its operands stand for (R117 to R120). P2R, DECOMP, PP2R
and PDECOMP name the second destination before the source; SVMUL names the broadcast polynomial before the vector. -/
def assemble (mnemonic : String) (qs : List Qualifier) (ops : List AsmOperand) : Except AsmError (List Instr) :=
  match mnemonic with
  | "nop" => qualified {} qs fun _ =>
      match ops with
      | [] => .ok [.nop]
      | _ => .error .badOperands
  | "add" => qualified {} qs fun _ => shapeSSS ops .add
  | "sub" => qualified {} qs fun _ => shapeSSS ops .sub
  | "neg" => qualified {} qs fun _ => shapeSS ops .neg
  | "mul" => qualified {} qs fun _ => shapeSSS ops .mul
  | "red" => qualified {} qs fun _ => shapeSS ops .red
  | "tosym" => qualified {} qs fun _ => shapeSS ops .tosym
  | "fromsym" => qualified {} qs fun _ => shapeSS ops .fromsym
  | "norm" => qualified {} qs fun _ => shapeSS ops .norm
  | "mov" => qualified {} qs fun _ => shapeSS ops .mov
  | "li" => qualified {} qs fun _ => shapeSI ops (2 ^ 20) fun d n => .li d (BitVec.ofNat 20 n)
  | "zeta" => qualified {} qs fun _ => shapeSI ops 256 fun d n => .zeta d (Fin.ofNat 256 n)
  | "p2r" => qualified {} qs fun _ => shapeSSS ops fun d b a => .p2r d a b
  | "decomp" => qualified { g := true } qs fun q => shapeSSS ops fun d b a => .decomp d a b q.gamma
  | "high" => qualified { g := true } qs fun q => shapeSS ops fun d a => .high d a q.gamma
  | "low" => qualified { g := true } qs fun q => shapeSS ops fun d a => .low d a q.gamma
  | "mkhint" => qualified { g := true } qs fun q => shapeSSS ops fun d a b => .mkhint d a b q.gamma
  | "usehint" => qualified { g := true } qs fun q => shapeSSS ops fun d a b => .usehint d a b q.gamma
  | "padd" => qualified { v := true, c := true } qs fun q => shapePPP ops fun d a b => .padd d a b q.vlen q.bcast
  | "psub" => qualified { v := true, c := true } qs fun q => shapePPP ops fun d a b => .psub d a b q.vlen q.bcast
  | "pneg" => qualified { v := true } qs fun q => shapePP ops fun d a => .pneg d a q.vlen
  | "psmul" => qualified { v := true } qs fun q => shapePPS ops fun d a b => .psmul d a b q.vlen
  | "pmov" => qualified { v := true } qs fun q => shapePP ops fun d a => .pmov d a q.vlen
  | "ptosym" => qualified { v := true } qs fun q => shapePP ops fun d a => .ptosym d a q.vlen
  | "pfromsym" => qualified { v := true } qs fun q => shapePP ops fun d a => .pfromsym d a q.vlen
  | "pred" => qualified { v := true } qs fun q => shapePP ops fun d a => .pred d a q.vlen
  | "pnorm" => qualified { v := true } qs fun q => shapeSP ops fun d a => .pnorm d a q.vlen
  | "pnormz" => qualified { v := true } qs fun q => shapeSP ops fun d a => .pnormz d a q.vlen
  | "ntt" => qualified { v := true } qs fun q => shapePP ops fun d a => .ntt d a q.vlen
  | "intt" => qualified { v := true } qs fun q => shapePP ops fun d a => .intt d a q.vlen
  | "pmul" => qualified { v := true, c := true } qs fun q => shapePPP ops fun d a b => .pmul d a b q.vlen q.bcast
  | "pdot" => qualified { v := true, c := true } qs fun q => shapePPP ops fun d a b => .pdot d a b q.vlen q.bcast
  | "pp2r" => qualified { v := true } qs fun q => shapePPP ops fun d b a => .pp2r d a b q.vlen
  | "pdecomp" => qualified { v := true, g := true } qs fun q => shapePPP ops fun d b a => .pdecomp d a b q.vlen q.gamma
  | "phigh" => qualified { v := true, g := true } qs fun q => shapePP ops fun d a => .phigh d a q.vlen q.gamma
  | "plow" => qualified { v := true, g := true } qs fun q => shapePP ops fun d a => .plow d a q.vlen q.gamma
  | "pmkhint" => qualified { v := true, c := true, g := true } qs fun q =>
      shapePPP ops fun d a b => .pmkhint d a b q.vlen q.bcast q.gamma
  | "pusehint" => qualified { v := true, c := true, g := true } qs fun q =>
      shapePPP ops fun d a b => .pusehint d a b q.vlen q.bcast q.gamma
  | "pwgt" => qualified { v := true } qs fun q => shapeSP ops fun d a => .pwgt d a q.vlen
  | "clr" => qualified {} qs fun _ => clr ops
  | "sqr" => qualified {} qs fun _ => shapeSS ops fun d a => .mul d a a
  | "lin" => qualified {} qs fun _ => lin ops
  | "svmul" => qualified { v := true } qs fun q => shapePPP ops fun d c v => .pmul d v c q.vlen .one
  | "addv" => qualified { v := true } qs fun q => shapePPP ops fun d a b => .padd d a b q.vlen .each
  | "subv" => qualified { v := true } qs fun q => shapePPP ops fun d a b => .psub d a b q.vlen .each
  | "matvec" => matvec qs ops
  | _ => .error .unknownMnemonic

/-- R117: the commands of one line. Mnemonics and register names are case-insensitive, as R117 says. DESIGN CHOICE
(log 13): so are qualifiers, the prefix `0x` and hexadecimal digits, on which R117 is silent (the whole line is lowered);
white space is allowed around operands and at the ends of the line; a line with no text stands for no command. -/
def assembleLine (line : String) : Except AsmError (List Instr) :=
  let cs := trimBlanks (stripComment (line.toList.map Char.toLower))
  match splitAt '.' (cs.takeWhile fun c => !isBlank c) with
  | [] => .ok []
  | [[]] => .ok []
  | m :: qs =>
    let rest := trimBlanks (cs.dropWhile fun c => !isBlank c)
    match readAll readQualifier qs with
    | .error e => .error e
    | .ok qs =>
      match rest with
      | [] => assemble (String.ofList m) qs []
      | _ :: _ =>
        match readAll readOperand ((splitAt ',' rest).map trimBlanks) with
        | .error e => .error e
        | .ok ops => assemble (String.ofList m) qs ops

/-- The command words of the lines of a program, one after another. -/
def assembleLines : List String → Except AsmError (List Word)
  | [] => .ok []
  | l :: ls =>
    match assembleLine l with
    | .error e => .error e
    | .ok is =>
      match assembleLines ls with
      | .error e => .error e
      | .ok ws => .ok (is.map encode ++ ws)

end Sys2Proof.Machine
end

