-- ==== Sys2Proof/Safety.lean ====
section
/-! DEFINITION. What the statements speak of: the invariant of the machine, the two ways a command's complete step can
end written out field by field (spec/60_exceptions.md R263, R264), operands in memory and results in memory read word by
word, the conditions of 30_encoding.md R112 over the word's fields, and the run of a command list (70_reset_and_hazards.md
R303). -/

namespace Sys2Proof.Machine

/-! ## The invariant -/

/-- Every listed word of PMEM belongs to a polynomial register the unit has (10_state.md R33). -/
def PmemInRange (s : State) : Prop := ∀ x ∈ s.pmem, x.1 < 256 * s.cfg.npoly.count

/-- R49: ERRCODE is 0 exactly when ERR is 0. -/
def ErrcodeAgrees (s : State) : Prop := s.err = true ↔ s.errcode ≠ .none

/-- R264, R38, R87: while ERR = 1 the engine is Idle and the queue is empty. -/
def HaltedOnError (s : State) : Prop := s.err = true → s.queue = [] ∧ s.engine = .idle

/-- R56: bits 31:16 of ERRLOC are 0; with an OPERAND_RANGE fault pending VALID is 1; with an ILLEGAL_COMMAND pending the
whole word is 0. -/
def ErrlocLegal (s : State) : Prop :=
  bits s.errloc 31 16 = 0 ∧ (s.errcode = .operandRange → bits s.errloc 15 15 = 1) ∧
    (s.errcode = .illegalCommand → s.errloc = 0#32)

/-- R290: while rst_n = 0 the unit's own state is the reset state. -/
def HeldInReset (s : State) : Prop := s.rstN = false → hardReset false s = s

/-- The invariant of the machine: legal parameters (R8, R9), PMEM in its canonical form (log 5) and inside NPOLY
registers, at most CQ_DEPTH queued words (R37), and the status rules above. -/
def State.Inv (s : State) : Prop :=
  s.cfg.wf ∧ s.pmem.wf = true ∧ PmemInRange s ∧ s.queue.length ≤ s.cfg.cqDepth ∧ ErrcodeAgrees s ∧
    HaltedOnError s ∧ ErrlocLegal s ∧ HeldInReset s

/-! ## How a complete step ends, field by field -/

/-- R263: a command completed without a fault, leaving these registers, this PMEM and this count of drawn free values:
RETIRED one more, DONE set if the queue is empty, the engine Idle, and nothing else changed. -/
def retiredWith (s : State) (sreg : Vector Slot 16) (pmem : Mem) (draws : Nat) : State :=
  { s with
    sreg := sreg
    pmem := pmem
    draws := draws
    retired := s.retired + 1#32
    done := s.done || s.queue.isEmpty
    engine := .idle }

/-- R264: a command word ended with a fault, leaving these registers, this PMEM and this count of drawn free values: ERR,
ERRCODE, ERRCMD, ERRIDX and ERRLOC written, the queue emptied, the engine Idle, and nothing else changed. -/
def faultedWith (s : State) (w : Word) (code : ErrCode) (errloc : Word) (sreg : Vector Slot 16) (pmem : Mem)
    (draws : Nat) : State :=
  { s with
    sreg := sreg
    pmem := pmem
    draws := draws
    err := true
    errcode := code
    errcmd := w
    erridx := s.retired
    errloc := errloc
    queue := []
    engine := .idle }

/-- The scalar registers of t are those of s but for the scalar destinations in `ds`. -/
def SregKept (ds : List Dest) (sreg sreg' : Vector Slot 16) : Prop :=
  ∀ r : SReg, Dest.s r ∉ ds → sreg'.get r = sreg.get r

/-- Every word of PMEM is kept but for those of the polynomial destinations in `ds`. -/
def PmemKept (ds : List Dest) (m m' : Mem) : Prop :=
  ∀ i c, c < 256 → Dest.p i ∉ ds → Mem.get m' (wordNo i c) = Mem.get m (wordNo i c)

/-- Every scalar destination in `ds` is ⊥, every other scalar register is kept. -/
def SregCleared (ds : List Dest) (sreg sreg' : Vector Slot 16) : Prop :=
  ∀ r : SReg, sreg'.get r = if Dest.s r ∈ ds then .bot else sreg.get r

/-- Every word of the polynomial destinations in `ds` is ⊥, every other word of PMEM is kept. -/
def PmemCleared (ds : List Dest) (m m' : Mem) : Prop :=
  ∀ i c, c < 256 → Mem.get m' (wordNo i c) = if Dest.p i ∈ ds then .bot else Mem.get m (wordNo i c)

/-! ## Operands and results in PMEM -/

/-- The words of p[r] .. p[r+n−1] hold legal values of the type, whose integers are x e c. -/
def Operand (t : OpType) (m : Mem) (r n : Nat) (x : Nat → Nat → Int) : Prop :=
  ∀ e c, e < n → c < 256 → ∃ w, Mem.get m (wordNo (r + e) c) = .val w ∧ t.legal w = true ∧ t.value w = x e c

/-- The same for the B operand: element e reads p[b+e], or p[b] when it is broadcast (30_encoding.md R107). -/
def OperandB (t : OpType) (m : Mem) (k : Bcast) (b n : Nat) (x : Nat → Nat → Int) : Prop :=
  ∀ e c, e < n → c < 256 →
    ∃ w, Mem.get m (wordNo (operandB k b e) c) = .val w ∧ t.legal w = true ∧ t.value w = x e c

/-- Every word of p[d] .. p[d+n−1] is y e c in m', and every other word is as in m. -/
def WritesVector (m m' : Mem) (d n : Nat) (y : Nat → Nat → Word) : Prop :=
  ∀ j c, c < 256 →
    Mem.get m' (wordNo j c) = if d ≤ j ∧ j < d + n then .val (y (j - d) c) else Mem.get m (wordNo j c)

/-- Every word of p[d] .. p[d+n−1] is ⊥ in m', and every other word is as in m. -/
def ClearsVector (m m' : Mem) (d n : Nat) : Prop :=
  ∀ j c, c < 256 → Mem.get m' (wordNo j c) = if d ≤ j ∧ j < d + n then .bot else Mem.get m (wordNo j c)

/-- The first illegal word of the operand vector at p[r] is coefficient c₀ of element e₀ (60_exceptions.md R268): every
word read before it holds a legal value. -/
def FirstIllegal (t : OpType) (m : Mem) (src : Nat → Nat) (e₀ c₀ : Nat) : Prop :=
  (∀ e c, c < 256 → (e < e₀ ∨ (e = e₀ ∧ c < c₀)) → ∃ w, Mem.get m (wordNo (src e) c) = .val w ∧ t.legal w = true) ∧
    ∃ w, Mem.get m (wordNo (src e₀) c₀) = .val w ∧ t.legal w = false

/-- The words of the elements before element n hold legal values of the type. -/
def LegalElements (t : OpType) (m : Mem) (src : Nat → Nat) (n : Nat) : Prop :=
  ∀ e c, e < n → c < 256 → ∃ w, Mem.get m (wordNo (src e) c) = .val w ∧ t.legal w = true

/-- No element of the source is a register that an earlier element wrote (42_ring.md R180): true in place (d = r) and for
vectors that do not intersect. -/
def ReadsBeforeWrites (d n : Nat) (src : Nat → Nat) : Prop := ∀ e' e, e' < e → e < n → d + e' ≠ src e

/-- The 256 integers of element e as a list. -/
def elementList (x : Nat → Nat → Int) (e : Nat) : List Int := (List.range 256).map (x e)

/-- The negacyclic product of two polynomials, coefficient c (43_ntt.md R218.2): the product modulo X^256 + 1. -/
def negacyclic (x y : List Int) (c : Nat) : Int :=
  ((List.range 256).map fun i =>
    if i ≤ c then x.getD i 0 * y.getD (c - i) 0 else -(x.getD i 0 * y.getD (256 + c - i) 0)).sum

/-- A polynomial of field elements: 256 integers in [0, q). -/
def IsRq (x : List Int) : Prop := x.length = 256 ∧ ∀ a ∈ x, 0 ≤ a ∧ a < q

/-! ## Vector commands as sequences of elements (42_ring.md R180) -/

/-- The single-element commands of a vector command, in order; none for a command that is no vector of element writes
(the scalar commands, the reductions and PDOT). -/
def elementsOf : Instr → List Instr
  | .padd d a b v c => (List.range v.vl).map fun e =>
      .padd (Fin.ofNat 64 (d + e)) (Fin.ofNat 64 (a + e)) (Fin.ofNat 64 (operandB c b e)) 0 c
  | .psub d a b v c => (List.range v.vl).map fun e =>
      .psub (Fin.ofNat 64 (d + e)) (Fin.ofNat 64 (a + e)) (Fin.ofNat 64 (operandB c b e)) 0 c
  | .pneg d a v => (List.range v.vl).map fun e => .pneg (Fin.ofNat 64 (d + e)) (Fin.ofNat 64 (a + e)) 0
  | .psmul d a b v => (List.range v.vl).map fun e => .psmul (Fin.ofNat 64 (d + e)) (Fin.ofNat 64 (a + e)) b 0
  | .pmov d a v => (List.range v.vl).map fun e => .pmov (Fin.ofNat 64 (d + e)) (Fin.ofNat 64 (a + e)) 0
  | .ptosym d a v => (List.range v.vl).map fun e => .ptosym (Fin.ofNat 64 (d + e)) (Fin.ofNat 64 (a + e)) 0
  | .pfromsym d a v => (List.range v.vl).map fun e => .pfromsym (Fin.ofNat 64 (d + e)) (Fin.ofNat 64 (a + e)) 0
  | .pred d a v => (List.range v.vl).map fun e => .pred (Fin.ofNat 64 (d + e)) (Fin.ofNat 64 (a + e)) 0
  | .ntt d a v => (List.range v.vl).map fun e => .ntt (Fin.ofNat 64 (d + e)) (Fin.ofNat 64 (a + e)) 0
  | .intt d a v => (List.range v.vl).map fun e => .intt (Fin.ofNat 64 (d + e)) (Fin.ofNat 64 (a + e)) 0
  | .pmul d a b v c => (List.range v.vl).map fun e =>
      .pmul (Fin.ofNat 64 (d + e)) (Fin.ofNat 64 (a + e)) (Fin.ofNat 64 (operandB c b e)) 0 c
  | .pp2r d a b v => (List.range v.vl).map fun e =>
      .pp2r (Fin.ofNat 64 (d + e)) (Fin.ofNat 64 (a + e)) (Fin.ofNat 64 (b + e)) 0
  | .pdecomp d a b v g => (List.range v.vl).map fun e =>
      .pdecomp (Fin.ofNat 64 (d + e)) (Fin.ofNat 64 (a + e)) (Fin.ofNat 64 (b + e)) 0 g
  | .phigh d a v g => (List.range v.vl).map fun e => .phigh (Fin.ofNat 64 (d + e)) (Fin.ofNat 64 (a + e)) 0 g
  | .plow d a v g => (List.range v.vl).map fun e => .plow (Fin.ofNat 64 (d + e)) (Fin.ofNat 64 (a + e)) 0 g
  | .pmkhint d a b v c g => (List.range v.vl).map fun e =>
      .pmkhint (Fin.ofNat 64 (d + e)) (Fin.ofNat 64 (a + e)) (Fin.ofNat 64 (operandB c b e)) 0 c g
  | .pusehint d a b v c g => (List.range v.vl).map fun e =>
      .pusehint (Fin.ofNat 64 (d + e)) (Fin.ofNat 64 (a + e)) (Fin.ofNat 64 (operandB c b e)) 0 c g
  | .nop => []
  | .add _ _ _ => []
  | .sub _ _ _ => []
  | .neg _ _ => []
  | .mul _ _ _ => []
  | .red _ _ => []
  | .tosym _ _ => []
  | .fromsym _ _ => []
  | .norm _ _ => []
  | .mov _ _ => []
  | .li _ _ => []
  | .zeta _ _ => []
  | .p2r _ _ _ => []
  | .decomp _ _ _ _ => []
  | .high _ _ _ => []
  | .low _ _ _ => []
  | .mkhint _ _ _ _ => []
  | .usehint _ _ _ _ => []
  | .pnorm _ _ _ => []
  | .pnormz _ _ _ => []
  | .pdot _ _ _ _ _ => []
  | .pwgt _ _ _ => []

/-- Run commands one after another, stopping after the first that faults (one that leaves RETIRED as it was). -/
def runUntilFault : List Instr → State → State
  | [], s => s
  | i :: is, s =>
    match exec i s with
    | .next t => if t.retired = s.retired then t else runUntilFault is t
    | .fault _ => s
    | .refused _ => s

/-! ## The conditions of R112 over the fields of the word -/

/-- The opcodes whose field D names a `p` vector (R113). -/
def vectorDOps : List Nat :=
  [0x20, 0x21, 0x22, 0x23, 0x24, 0x25, 0x26, 0x27, 0x30, 0x31, 0x32, 0x38, 0x39, 0x3A, 0x3B, 0x3C, 0x3D]

/-- The opcodes whose field A names a `p` vector (R113): every polynomial command. -/
def vectorAOps : List Nat := vectorDOps ++ [0x28, 0x29, 0x33, 0x3E]

/-- The opcodes whose field B names a `p` vector or, with BC = 1, one `p` register (R113). -/
def vectorBOps : List Nat := [0x20, 0x21, 0x32, 0x33, 0x38, 0x39, 0x3C, 0x3D]

/-- R112: the word is an ILLEGAL_COMMAND on a unit with this NPOLY, conditions 1 and 2 by the masks of the opcode map,
3 to 5 over the word's fields. -/
def IllegalByRule (np : NPoly) (w : Word) : Prop :=
  (∀ r ∈ opRows, r.selects w = false) ∨
  (fOp w ∈ vectorDOps ∧ fD w + (fV w + 1) > np.count) ∨
  (fOp w ∈ vectorAOps ∧ fA w + (fV w + 1) > np.count) ∨
  (fOp w ∈ vectorBOps ∧ fC w = 0 ∧ fB w + (fV w + 1) > np.count) ∨
  (fOp w ∈ vectorBOps ∧ fC w = 1 ∧ fB w ≥ np.count) ∨
  (fOp w = 0x33 ∧ fD w ≥ np.count) ∨
  ((fOp w = 0x10 ∨ fOp w = 0x11) ∧ fD w = fB w) ∨
  ((fOp w = 0x38 ∨ fOp w = 0x39) ∧ fD w < fB w + (fV w + 1) ∧ fB w < fD w + (fV w + 1))

/-! ## Running a command list (R303) -/

/-- R303: "for each word w of L in order, if STATUS.ERR = 1 then w has no effect, else execute w to its complete
step". -/
def runList : List Word → State → State
  | [], s => s
  | w :: ws, s =>
    if s.err then runList ws s
    else
      match completeStep w s with
      | .next t => runList ws t
      | .fault _ => s
      | .refused _ => s

/-- The unit's part of a state that a command's effect may depend on or change besides the control registers: the
registers, PMEM, the configuration and the count of drawn free values. -/
def SameData (s t : State) : Prop :=
  s.cfg = t.cfg ∧ s.sreg = t.sreg ∧ s.pmem = t.pmem ∧ s.draws = t.draws

/-- n steps one after another, while they give next states. -/
def steps : Nat → State → Option State
  | 0, s => some s
  | n + 1, s =>
    match step s with
    | .next t => steps n t
    | .fault _ => none
    | .refused _ => none

/-- R100, R77: the transaction that pushes a command word. -/
def cmdReq (w : Word) : BusReq := { write := true, addr := 0x18#17, wdata := w, wstrb := 0b1111#4 }

/-- R303: the two end states agree on SREG, PMEM, RETIRED, ERR, ERRCODE, ERRCMD, ERRIDX and ERRLOC (not on DONE and
DROP). -/
def SameEnd (s t : State) : Prop :=
  s.sreg = t.sreg ∧ s.pmem = t.pmem ∧ s.retired = t.retired ∧ s.err = t.err ∧ s.errcode = t.errcode ∧
    s.errcmd = t.errcmd ∧ s.erridx = t.erridx ∧ s.errloc = t.errloc

/-! ## Whose move a step is, and the host's transactions -/

/-- The move the next step is (log 3). -/
def nextTurn (s : State) : Turn :=
  match s.sched with
  | t :: _ => t
  | [] => if engineCanMove s then .engine else .host

/-- The next step is the engine's, out of reset. -/
def EngineMoves (s : State) : Prop := s.rstN = true ∧ nextTurn s = .engine

/-- The next step performs a read of a byte address, `rest` being the transactions after it. -/
def HostReads (s : State) (a : Nat) (rest : List BusReq) : Prop :=
  s.rstN = true ∧ nextTurn s = .host ∧ ∃ t, s.txns = t :: rest ∧ t.write = false ∧ t.addr = BitVec.ofNat 17 a

/-- The next step performs a whole-word write of w to a byte address. -/
def HostWrites (s : State) (a : Nat) (w : Word) (rest : List BusReq) : Prop :=
  s.rstN = true ∧ nextTurn s = .host ∧
    ∃ t, s.txns = t :: rest ∧ t.write = true ∧ t.addr = BitVec.ofNat 17 a ∧ t.wdata = w ∧ t.wstrb = 0b1111#4

/-- The next step is the complete step of the word w (R38). -/
def CompleteMove (s : State) (w : Word) : Prop := EngineMoves s ∧ s.engine = .exec w

/-- The next step is a soft reset: a CTRL write with bit 1 set (R292). -/
def SoftResetMove (s : State) : Prop := ∃ w rest, HostWrites s 0x0C w rest ∧ w.getLsbD 1 = true

/-- The next step is an error clear: a CTRL write with bit 0 set and bit 1 clear (R270). -/
def ClearMove (s : State) : Prop := ∃ w rest, HostWrites s 0x0C w rest ∧ w.getLsbD 0 = true ∧ w.getLsbD 1 = false

/-- The next step is a STATUS write with bit k set (R44). -/
def StatusMove (s : State) (k : Nat) : Prop := ∃ w rest, HostWrites s 0x10 w rest ∧ w.getLsbD k = true

/-- The next step is a CMD write that is dropped (R87). -/
def DropMove (s : State) : Prop := s.err = true ∧ ∃ w rest, HostWrites s 0x18 w rest

/-- The next step is a turn of the reset input (R290); one that gives rst_n the level it has already counts (log 8). -/
def PinMove (s : State) : Prop := ∃ level, nextTurn s = .resetPin level

/-- The next step is a write of a word of the SREG or PMEM window by a host that is not stalled (R72, R74, R84). -/
def WindowMove (s : State) : Prop :=
  s.busy = false ∧ ∃ a w rest, HostWrites s a w rest ∧
    (0x00100 ≤ a ∧ a < 0x00140 ∨ 0x10000 ≤ a ∧ a < 0x10000 + 1024 * s.cfg.npoly.count)

/-- The step has been taken and the state is otherwise s: its place in the schedule is used up. -/
def passed (s : State) : State := { s with sched := s.sched.tail }

/-- The outstanding transaction has completed with this response; otherwise the state is s. -/
def answered (s : State) (rest : List BusReq) (rdata : Word) (err : Bool) : State :=
  { s with sched := s.sched.tail, txns := rest, responses := ⟨rdata, err⟩ :: s.responses }

/-- R72, R74: the address a names a ⊥ word of SREG or PMEM, so that a read of it draws a free value (U1, log 1). -/
def UnfixedWordAt (s : State) (a : Nat) : Prop :=
  (∃ i : SReg, a = 0x100 + 4 * i.val ∧ s.s i = .bot) ∨
    ∃ r c, r < s.cfg.npoly.count ∧ c < 256 ∧ a = 0x10000 + 1024 * r + 4 * c ∧ s.p r c = .bot

/-- R75: the word addresses that R71 to R74 assign to nothing on a unit with this NPOLY. -/
def ReservedAddress (np : NPoly) (a : Nat) : Prop :=
  a % 4 = 0 ∧
    (0x0002C ≤ a ∧ a < 0x00100 ∨ 0x00140 ≤ a ∧ a < 0x00400 ∨ 0x00800 ≤ a ∧ a < 0x10000 ∨
      0x10000 + 1024 * np.count ≤ a ∧ a < 0x20000)

/-! ## The rules of the commands, one shape each

Each command rule (00_scope.md R19) gives an opcode, a result and the words that raise OPERAND_RANGE; these are the
shapes they share. A `Completes` shape says that the command answers a next state and which, for every state whose
operands are legal; a `Faults` shape says where it raises OPERAND_RANGE and what is left then. -/

/-- R18: type F. -/
def IsF (w : Word) : Prop := w.toNat < 8380417
/-- R18: type W, below 2q. -/
def IsW (w : Word) : Prop := w.toNat < 16760834
/-- R18: type S. -/
def IsS (w : Word) : Prop := -4190208 ≤ w.toInt ∧ w.toInt ≤ 4190208
/-- R18: type H. -/
def IsH (w : Word) : Prop := w.toNat = 0 ∨ w.toNat = 1

/-- R265: ERRLOC of a failing scalar register. -/
def scalarLoc (a : SReg) : Word := BitVec.ofNat 32 (0x8000 + 256 * a.val)

/-- R265: ERRLOC of a failing coefficient c of p[r]. -/
def polyLoc (r c : Nat) : Word := BitVec.ofNat 32 (0xC000 + 256 * r + c)

/-- `OP sD, sA`. -/
def ScalarUnaryRule (mk : SReg → SReg → Instr) (op : Nat) (ok : Word → Prop) (f : Word → Int) : Prop :=
  ∀ (s : State) (d a : SReg) (x : Word), s.s a = .val x →
    fOp (encode (mk d a)) = op ∧
    (ok x → exec (mk d a) s = .next (retiredWith s (s.sreg.set d (.val (wordOf (f x)))) s.pmem s.draws)) ∧
    (¬ ok x → exec (mk d a) s =
      .next (faultedWith s (encode (mk d a)) .operandRange (scalarLoc a) (s.sreg.set d .bot) s.pmem s.draws))

/-- `OP sD, sA, sB`: A is read and checked first. -/
def ScalarBinaryRule (mk : SReg → SReg → SReg → Instr) (op : Nat) (okA okB : Word → Prop) (f : Word → Word → Int) :
    Prop :=
  ∀ (s : State) (d a b : SReg) (x : Word), s.s a = .val x →
    fOp (encode (mk d a b)) = op ∧
    (¬ okA x → exec (mk d a b) s =
      .next (faultedWith s (encode (mk d a b)) .operandRange (scalarLoc a) (s.sreg.set d .bot) s.pmem s.draws)) ∧
    ∀ y : Word, s.s b = .val y → okA x →
      (okB y → exec (mk d a b) s = .next (retiredWith s (s.sreg.set d (.val (wordOf (f x y)))) s.pmem s.draws)) ∧
      (¬ okB y → exec (mk d a b) s =
        .next (faultedWith s (encode (mk d a b)) .operandRange (scalarLoc b) (s.sreg.set d .bot) s.pmem s.draws))

/-- `OP sD, sB, sA` with two destinations, D ≠ B. -/
def ScalarPairRule (mk : SReg → SReg → SReg → Instr) (op : Nat) (f : Int → Int × Int) : Prop :=
  ∀ (s : State) (d a b : SReg) (x : Word), d ≠ b → s.s a = .val x →
    fOp (encode (mk d a b)) = op ∧
    (IsF x → exec (mk d a b) s =
      .next (retiredWith s ((s.sreg.set d (.val (wordOf (f x.toNat).1))).set b (.val (wordOf (f x.toNat).2)))
        s.pmem s.draws)) ∧
    (¬ IsF x → exec (mk d a b) s =
      .next (faultedWith s (encode (mk d a b)) .operandRange (scalarLoc a) ((s.sreg.set d .bot).set b .bot)
        s.pmem s.draws))

/-- The words of p[r] hold legal values of the type, whose integers are x c. -/
def PolyHolds (t : OpType) (m : Mem) (r : Nat) (x : Nat → Int) : Prop :=
  ∀ c, c < 256 → ∃ w, Mem.get m (wordNo r c) = .val w ∧ t.legal w = true ∧ t.value w = x c

/-- Word c of p[r] holds the first illegal value of p[r]. -/
def FirstIllegalWord (t : OpType) (m : Mem) (r c : Nat) : Prop :=
  (∀ c', c' < c → ∃ w, Mem.get m (wordNo r c') = .val w ∧ t.legal w = true) ∧
    ∃ w, Mem.get m (wordNo r c) = .val w ∧ t.legal w = false

/-- R180: the contents of PMEM between the elements of a vector command, from m on: `ms e` is what element e starts from,
and element e makes p[d+e] the words y e and changes no other word. Any overlap of the vectors is allowed. -/
def ElementSteps (m : Mem) (ms : Nat → Mem) (d n : Nat) (y : Nat → Nat → Word) : Prop :=
  ms 0 = m ∧ ∀ e, e < n → WritesVector (ms e) (ms (e + 1)) (d + e) 1 (fun _ c => y e c)

/-- The command completes, PMEM then holding the words of m. -/
def VectorCompletes (i : Instr) (s : State) (m : Mem) : Prop :=
  ∃ m' : Mem, (∀ j c, c < 256 → Mem.get m' (wordNo j c) = Mem.get m (wordNo j c)) ∧
    (s.pmem.wf = true → m'.wf = true) ∧ exec i s = .next (retiredWith s s.sreg m' s.draws)

/-- The command completes, changing no scalar register and drawing no free value. -/
def Completes (i : Instr) (s : State) : Prop := ∃ m : Mem, exec i s = .next (retiredWith s s.sreg m s.draws)

/-- The command raises OPERAND_RANGE at this ERRLOC, p[d] .. p[d+n−1] being ⊥ and every other word kept. -/
def VectorFaults (i : Instr) (s : State) (d n : Nat) (loc : Word) : Prop :=
  ∃ m' : Mem, ClearsVector s.pmem m' d n ∧ (s.pmem.wf = true → m'.wf = true) ∧
    exec i s = .next (faultedWith s (encode i) .operandRange loc s.sreg m' s.draws)

/-- `OP.vN pD, pA`: with n elements done, p[D+e] being f of p[A+e], the command completes when those are all, and faults
when the next element reads an illegal word. -/
def PolyUnaryRule (mk : PReg → PReg → VLen → Instr) (op : Nat) (t : OpType) (f : List Int → Nat → Int) : Prop :=
  (∀ d a v, fOp (encode (mk d a v)) = op) ∧
  ∀ (s : State) (d a : PReg) (v : VLen) (ms : Nat → Mem) (x : Nat → Nat → Int) (n : Nat), n ≤ v.vl →
    ElementSteps s.pmem ms d n (fun e c => wordOf (f (elementList x e) c)) →
    (∀ e, e < n → PolyHolds t (ms e) (a + e) (x e)) →
    (n = v.vl → VectorCompletes (mk d a v) s (ms n)) ∧
    ∀ c, n < v.vl → c < 256 → FirstIllegalWord t (ms n) (a + n) c →
      VectorFaults (mk d a v) s d v.vl (polyLoc (a + n) c)

/-- `OP.vN pD, pA, pB`, with or without `.bc`: within an element all of A is checked before all of B. -/
def PolyBinaryRule (mk : PReg → PReg → PReg → VLen → Bcast → Instr) (op : Nat) (t u : OpType)
    (f : Int → Int → Int) : Prop :=
  (∀ d a b v k, fOp (encode (mk d a b v k)) = op) ∧
  ∀ (s : State) (d a b : PReg) (v : VLen) (k : Bcast) (ms : Nat → Mem) (x y : Nat → Nat → Int) (n : Nat), n ≤ v.vl →
    ElementSteps s.pmem ms d n (fun e c => wordOf (f (x e c) (y e c))) →
    (∀ e, e < n → PolyHolds t (ms e) (a + e) (x e) ∧ PolyHolds u (ms e) (operandB k b e) (y e)) →
    (n = v.vl → VectorCompletes (mk d a b v k) s (ms n)) ∧
    (∀ c, n < v.vl → c < 256 → FirstIllegalWord t (ms n) (a + n) c →
      VectorFaults (mk d a b v k) s d v.vl (polyLoc (a + n) c)) ∧
    ∀ c, n < v.vl → c < 256 → PolyHolds t (ms n) (a + n) (x n) → FirstIllegalWord u (ms n) (operandB k b n) c →
      VectorFaults (mk d a b v k) s d v.vl (polyLoc (operandB k b n) c)

/-- The words of p[D] .. and p[B] .. are y₁ and y₂ in m', and every other word is as in m. -/
def WritesVectors (m m' : Mem) (d b n : Nat) (y₁ y₂ : Nat → Nat → Word) : Prop :=
  ∀ j c, c < 256 →
    Mem.get m' (wordNo j c) =
      if d ≤ j ∧ j < d + n then .val (y₁ (j - d) c)
      else if b ≤ j ∧ j < b + n then .val (y₂ (j - b) c)
      else Mem.get m (wordNo j c)

/-- The words of p[D] .. and p[B] .. are ⊥ in m', and every other word is as in m. -/
def ClearsVectors (m m' : Mem) (d b n : Nat) : Prop :=
  ∀ j c, c < 256 →
    Mem.get m' (wordNo j c) =
      if (d ≤ j ∧ j < d + n) ∨ (b ≤ j ∧ j < b + n) then .bot else Mem.get m (wordNo j c)

/-- `OP.vN pD, pB, pA` with two destination vectors that do not intersect. -/
def PolyPairRule (mk : PReg → PReg → PReg → VLen → Instr) (op : Nat) (f : Int → Int × Int) : Prop :=
  (∀ d a b v, fOp (encode (mk d a b v)) = op) ∧
  ∀ (s : State) (d a b : PReg) (v : VLen) (ms : Nat → Mem) (x : Nat → Nat → Int) (n : Nat),
    vectorsDisjoint d b v = true → n ≤ v.vl → ms 0 = s.pmem →
    (∀ e, e < n → PolyHolds .F (ms e) (a + e) (x e) ∧
      WritesVectors (ms e) (ms (e + 1)) (d + e) (b + e) 1 (fun _ c => wordOf (f (x e c)).1)
        (fun _ c => wordOf (f (x e c)).2)) →
    (n = v.vl → VectorCompletes (mk d a b v) s (ms n)) ∧
    ∀ c, n < v.vl → c < 256 → FirstIllegalWord .F (ms n) (a + n) c →
      ∃ m : Mem, ClearsVectors s.pmem m d b v.vl ∧ (s.pmem.wf = true → m.wf = true) ∧
        exec (mk d a b v) s =
          .next (faultedWith s (encode (mk d a b v)) .operandRange (polyLoc (a + n) c) s.sreg m s.draws)

/-- `OP.vN sD, pA` completes with a result that R describes. -/
def PolyReduceCompletes (mk : SReg → PReg → VLen → Instr) (op : Nat) (t : OpType)
    (R : (Nat → Nat → Int) → Nat → Int → Prop) : Prop :=
  (∀ d a v, fOp (encode (mk d a v)) = op) ∧
  ∀ (s : State) (d : SReg) (a : PReg) (v : VLen) (x : Nat → Nat → Int), Operand t s.pmem a v.vl x →
    ∃ r : Int, R x v.vl r ∧
      exec (mk d a v) s = .next (retiredWith s (s.sreg.set d (.val (wordOf r))) s.pmem s.draws)

/-- `OP.vN sD, pA` raises OPERAND_RANGE at the first illegal word. -/
def PolyReduceFaults (mk : SReg → PReg → VLen → Instr) (t : OpType) : Prop :=
  ∀ (s : State) (d : SReg) (a : PReg) (v : VLen) (e c : Nat), e < v.vl → c < 256 →
    FirstIllegal t s.pmem (fun e => a + e) e c →
    exec (mk d a v) s =
      .next (faultedWith s (encode (mk d a v)) .operandRange (polyLoc (a + e) c) (s.sreg.set d .bot) s.pmem s.draws)

/-- The greatest g of a word of the vector, at least 0. -/
def IsMaximum (g : Int → Int) (x : Nat → Nat → Int) (n : Nat) (r : Int) : Prop :=
  (∀ e c, e < n → c < 256 → g (x e c) ≤ r) ∧ (r = 0 ∨ ∃ e c, e < n ∧ c < 256 ∧ r = g (x e c))

/-- The number of words of the vector that are not 0. -/
def IsWeight (x : Nat → Nat → Int) (n : Nat) (r : Int) : Prop :=
  r = (((List.range n).map fun e => ((List.range 256).filter fun c => decide (x e c ≠ 0)).length).sum : Nat)

/-! ## The sources of a command, and scalar operands in general, ⊥ among them (log 1) -/

/-- The scalar sources of a command in the order they are read, with their types (30_encoding.md R113); of the commands
with a polynomial operand only PSMUL has one. -/
def scalarSources : Instr → List (SReg × OpType)
  | .nop => []
  | .add _ a b => [(a, .F), (b, .F)]
  | .sub _ a b => [(a, .F), (b, .F)]
  | .neg _ a => [(a, .F)]
  | .mul _ a b => [(a, .F), (b, .F)]
  | .red _ a => [(a, .W)]
  | .tosym _ a => [(a, .F)]
  | .fromsym _ a => [(a, .S)]
  | .norm _ a => [(a, .F)]
  | .mov _ a => [(a, .Z)]
  | .li _ _ => []
  | .zeta _ _ => []
  | .p2r _ a _ => [(a, .F)]
  | .decomp _ a _ _ => [(a, .F)]
  | .high _ a _ => [(a, .F)]
  | .low _ a _ => [(a, .F)]
  | .mkhint _ a b _ => [(a, .F), (b, .F)]
  | .usehint _ a b _ => [(a, .H), (b, .F)]
  | .padd _ _ _ _ _ => []
  | .psub _ _ _ _ _ => []
  | .pneg _ _ _ => []
  | .psmul _ _ b _ => [(b, .F)]
  | .pmov _ _ _ => []
  | .ptosym _ _ _ => []
  | .pfromsym _ _ _ => []
  | .pred _ _ _ => []
  | .pnorm _ _ _ => []
  | .pnormz _ _ _ => []
  | .ntt _ _ _ => []
  | .intt _ _ _ => []
  | .pmul _ _ _ _ _ => []
  | .pdot _ _ _ _ _ => []
  | .pp2r _ _ _ _ => []
  | .pdecomp _ _ _ _ _ => []
  | .phigh _ _ _ _ => []
  | .plow _ _ _ _ => []
  | .pmkhint _ _ _ _ _ _ => []
  | .pusehint _ _ _ _ _ _ => []
  | .pwgt _ _ _ => []

/-- The polynomial sources of a command, each with the number of registers it names (R113, R107): the A vector, and the B
vector or the one broadcast B register where B is a source and not a second destination. -/
def vectorSources : Instr → List (PReg × Nat)
  | .nop => []
  | .add _ _ _ => []
  | .sub _ _ _ => []
  | .neg _ _ => []
  | .mul _ _ _ => []
  | .red _ _ => []
  | .tosym _ _ => []
  | .fromsym _ _ => []
  | .norm _ _ => []
  | .mov _ _ => []
  | .li _ _ => []
  | .zeta _ _ => []
  | .p2r _ _ _ => []
  | .decomp _ _ _ _ => []
  | .high _ _ _ => []
  | .low _ _ _ => []
  | .mkhint _ _ _ _ => []
  | .usehint _ _ _ _ => []
  | .padd _ a b v c => [(a, v.vl), (b, c.span v)]
  | .psub _ a b v c => [(a, v.vl), (b, c.span v)]
  | .pneg _ a v => [(a, v.vl)]
  | .psmul _ a _ v => [(a, v.vl)]
  | .pmov _ a v => [(a, v.vl)]
  | .ptosym _ a v => [(a, v.vl)]
  | .pfromsym _ a v => [(a, v.vl)]
  | .pred _ a v => [(a, v.vl)]
  | .pnorm _ a v => [(a, v.vl)]
  | .pnormz _ a v => [(a, v.vl)]
  | .ntt _ a v => [(a, v.vl)]
  | .intt _ a v => [(a, v.vl)]
  | .pmul _ a b v c => [(a, v.vl), (b, c.span v)]
  | .pdot _ a b v c => [(a, v.vl), (b, c.span v)]
  | .pp2r _ a _ v => [(a, v.vl)]
  | .pdecomp _ a _ v _ => [(a, v.vl)]
  | .phigh _ a v _ => [(a, v.vl)]
  | .plow _ a v _ => [(a, v.vl)]
  | .pmkhint _ a b v c _ => [(a, v.vl), (b, c.span v)]
  | .pusehint _ a b v c _ => [(a, v.vl), (b, c.span v)]
  | .pwgt _ a v => [(a, v.vl)]

/-- Read the sources in order, a ⊥ one as the next free value: the first register whose word is not legal, if there is
one, and how many free values have been drawn by then. -/
def firstIllegalScalar (s : State) : List (SReg × OpType) → Nat → Option SReg × Nat
  | [], n => (none, n)
  | (a, t) :: rest, n =>
    let r := look (s.s a) n
    if t.legal r.1 then firstIllegalScalar s rest r.2 else (some a, r.2)

end Sys2Proof.Machine
end

