-- ==== Sys2Proof/Certificates/Slice0/Obligations.lean ====
section
/-! DEFINITION. The statements for the provers. Each docstring names the rule of spec/ a statement formalises; a clause
that rests on a choice of the model names the log entry. -/

open Sys2Proof Sys2Proof.Machine

/-! ## Encoding (30_encoding.md) -/

/-- R116: every legal command, with every operand at every value its fields admit, is read back from its own word. -/
def Obligations.DecodeOfEncode : Prop :=
  ∀ (np : NPoly) (i : Instr), i.wf np = true → decodeWord np (encode i) = .ok i

/-- R116: a word that decodes is the word of the command it decodes to, and that command is legal on the unit. -/
def Obligations.EncodeOfDecode : Prop :=
  ∀ (np : NPoly) (w : Word) (i : Instr), decodeWord np w = .ok i → encode i = w ∧ i.wf np = true

/-- R111: a word passes conditions 1 and 2 of R112 exactly when a row of the opcode map selects it, and is then a command
with that row's mnemonic; no two rows overlap. -/
def Obligations.OpcodeMapSelectsTheCommand : Prop :=
  (∀ (w : Word) (i : Instr), decodeRow w = .ok i → ∃ r ∈ opRows, r.mnemonic = i.mnemonic ∧ w &&& r.mask = r.value) ∧
  (∀ (w : Word), ∀ r ∈ opRows, w &&& r.mask = r.value → ∃ i, decodeRow w = .ok i ∧ i.mnemonic = r.mnemonic) ∧
  opRows.Pairwise (fun r r' => r.value &&& (r.mask &&& r'.mask) ≠ r'.value &&& (r.mask &&& r'.mask))

/-- R112, R261: the complete step of a word is an ILLEGAL_COMMAND, which changes what R264 says and no SREG or PMEM word,
exactly under the five conditions; otherwise it is the complete step of a command. -/
def Obligations.IllegalCommandExactlyByTheConditions : Prop :=
  ∀ (s : State) (w : Word), CompleteMove s w →
    (IllegalByRule s.cfg.npoly w →
      step s = .next (faultedWith (passed s) w .illegalCommand 0#32 s.sreg s.pmem s.draws)) ∧
    (¬ IllegalByRule s.cfg.npoly w → ∃ i, decodeWord s.cfg.npoly w = .ok i ∧ step s = exec i (passed s))

/-- R114, R115: the 25 reserved opcodes are no command, and neither is a word with OP = 0 other than 0. -/
def Obligations.ReservedOpcodesAreIllegal : Prop :=
  ∀ (np : NPoly) (w : Word),
    (fOp w ∈ [0x0C, 0x0D, 0x0E, 0x0F, 0x16, 0x17, 0x18, 0x19, 0x1A, 0x1B, 0x1C, 0x1D, 0x1E, 0x1F, 0x2A, 0x2B, 0x2C,
        0x2D, 0x2E, 0x2F, 0x34, 0x35, 0x36, 0x37, 0x3F] → decodeWord np w = .error .reservedOpcode) ∧
    (fOp w = 0 → w ≠ 0#32 → decodeWord np w = .error .badBits) ∧ decodeWord np 0#32 = .ok .nop

/-- 95_test_vectors.md: words written out from the spec's encodings, one or more of each family, legal and illegal. -/
def Obligations.DecodeOfSpecWords : Prop :=
  decodeWord .n64 0x04304200#32 = .ok (.add 3 1 2) ∧
  decodeWord .n64 0x2811E240#32 = .ok (.li 1 123456#20) ∧
  decodeWord .n64 0x44204308#32 = .ok (.decomp 2 1 3 .g32) ∧
  decodeWord .n64 0x80400230#32 = .ok (.padd 4 0 2 1 .one) ∧
  decodeWord .n64 0x8C400260#32 = .ok (.psmul 4 0 2 3) ∧
  decodeWord .n64 0xC48200E0#32 = .ok (.intt 8 8 7) ∧
  decodeWord .n64 0xCFF008E0#32 = .ok (.pdot 63 0 8 7 .each) ∧
  decodeWord .n64 0xE0400620#32 = .ok (.pp2r 4 0 6 1) ∧
  decodeWord .n64 0xF4308118#32 = .ok (.pusehint 3 2 1 0 .one .g32) ∧
  decodeWord .n64 0x83C008E0#32 = .error .polyRange ∧
  decodeWord .n16 0x80001000#32 = .error .polyRange ∧
  decodeWord .n64 0x40108100#32 = .error .sameDestination ∧
  decodeWord .n64 0xE0400520#32 = .error .destinationsOverlap ∧
  decodeWord .n64 0x2C200100#32 = .error .badBits

/-- R120: every pseudo-instruction's expansion. -/
def Obligations.PseudoInstructionExpansions : Prop :=
  ∀ (d a : SReg) (D A B : PReg) (v : VLen),
    assemble "clr" [] [.s d] = .ok [.li d 0#20] ∧
    assemble "sqr" [] [.s d, .s a] = .ok [.mul d a a] ∧
    (∀ n, 1 ≤ n → n < 2 ^ 20 → assemble "lin" [] [.s d, .imm n] = .ok [.li d (BitVec.ofNat 20 n), .neg d d]) ∧
    assemble "svmul" [.v v.vl] [.p D, .p A, .p B] = .ok [.pmul D B A v .one] ∧
    assemble "addv" [.v v.vl] [.p D, .p A, .p B] = .ok [.padd D A B v .each] ∧
    assemble "subv" [.v v.vl] [.p D, .p A, .p B] = .ok [.psub D A B v .each] ∧
    ∀ k l : Nat, 1 ≤ k → k ≤ 8 → 1 ≤ l → l ≤ 8 → D + k ≤ 64 → A + k * l ≤ 64 →
      assemble "matvec" [.k k, .l l] [.p D, .p A, .p B] =
        .ok ((List.range k).map fun i =>
          .pdot (Fin.ofNat 64 (D + i)) (Fin.ofNat 64 (A + l * i)) B (Fin.ofNat 8 (l - 1)) .each)

/-- R119, for the commands whose operand order is not the order of the word's fields; R118: what each qualifier sets and
what its absence means, and, for the columns of R113's table, that a qualifier a command does not allow is an error
whatever the operands. -/
def Obligations.AssemblerNamesDestinationsFirst : Prop :=
  (∀ (d a b : SReg) (D A B : PReg) (v : VLen),
    assemble "p2r" [] [.s d, .s b, .s a] = .ok [.p2r d a b] ∧
    assemble "decomp" [.g32] [.s d, .s b, .s a] = .ok [.decomp d a b .g32] ∧
    assemble "decomp" [.g88] [.s d, .s b, .s a] = .ok [.decomp d a b .g88] ∧
    assemble "pp2r" [.v v.vl] [.p D, .p B, .p A] = .ok [.pp2r D A B v] ∧
    assemble "pdecomp" [.v v.vl] [.p D, .p B, .p A] = .ok [.pdecomp D A B v .g88] ∧
    assemble "usehint" [] [.s d, .s a, .s b] = .ok [.usehint d a b .g88] ∧
    assemble "padd" [.v v.vl, .bc] [.p D, .p A, .p B] = .ok [.padd D A B v .one] ∧
    assemble "padd" [] [.p D, .p A, .p B] = .ok [.padd D A B 0 .each] ∧
    assemble "pmkhint" [.v v.vl] [.p D, .p A, .p B] = .ok [.pmkhint D A B v .each .g88] ∧
    assemble "pusehint" [.bc, .g32] [.p D, .p A, .p B] = .ok [.pusehint D A B 0 .one .g32] ∧
    assemble "psmul" [] [.p D, .p A, .s b] = .ok [.psmul D A b 0]) ∧
  ∀ (ops : List AsmOperand) (n : Nat),
    (∀ m ∈ ["nop", "add", "sub", "neg", "mul", "red", "tosym", "fromsym", "norm", "mov", "li", "zeta", "p2r", "decomp",
        "high", "low", "mkhint", "usehint"], assemble m [.v n] ops = .error .badQualifier) ∧
    (∀ m ∈ ["nop", "add", "sub", "neg", "mul", "red", "tosym", "fromsym", "norm", "mov", "li", "zeta", "p2r", "decomp",
        "high", "low", "mkhint", "usehint", "pneg", "psmul", "pmov", "ptosym", "pfromsym", "pred", "pnorm", "pnormz",
        "ntt", "intt", "pp2r", "pdecomp", "phigh", "plow", "pwgt"], assemble m [.bc] ops = .error .badQualifier) ∧
    (∀ m ∈ ["nop", "add", "sub", "neg", "mul", "red", "tosym", "fromsym", "norm", "mov", "li", "zeta", "p2r", "padd",
        "psub", "pneg", "psmul", "pmov", "ptosym", "pfromsym", "pred", "pnorm", "pnormz", "ntt", "intt", "pmul", "pdot",
        "pp2r", "pwgt"],
      assemble m [.g88] ops = .error .badQualifier ∧ assemble m [.g32] ops = .error .badQualifier) ∧
    (n = 0 ∨ 8 < n → ∀ m ∈ ["padd", "psub", "pneg", "psmul", "pmov", "ptosym", "pfromsym", "pred", "pnorm", "pnormz",
        "ntt", "intt", "pmul", "pdot", "pp2r", "pdecomp", "phigh", "plow", "pmkhint", "pusehint", "pwgt"],
      assemble m [.v n] ops = .error .badQualifier)

/-! ## The step of the machine -/

/-- R38, R112: the engine's complete step runs the command its word decodes to, and nothing else; so does the step after
a word is loaded into the engine (log 7). -/
def Obligations.StepRunsTheDecodedCommand : Prop :=
  (∀ (s : State) (w : Word) (i : Instr), CompleteMove s w → decodeWord s.cfg.npoly w = .ok i →
    step s = exec i (passed s)) ∧
  (∀ (s : State) (nbits w : Nat) (i : Instr), decodeWord s.cfg.npoly (BitVec.ofNat 32 (w % 2 ^ nbits)) = .ok i →
    step (s.withFetchWord nbits w) =
      exec i { s with engine := .exec (BitVec.ofNat 32 (w % 2 ^ nbits)), rstN := true })

/-- R38: the start step takes the head of the queue when the engine is Idle and ERR = 0, and no step starts a command
otherwise; the complete step ends with the engine Idle; the engine is Idle after reset. -/
def Obligations.EngineStartsAndCompletes : Prop :=
  State.reset.engine = .idle ∧
  ∀ s : State, EngineMoves s →
    (∀ w ws, s.engine = .idle → s.err = false → s.queue = w :: ws →
      step s = .next { passed s with queue := ws, engine := .exec w }) ∧
    (s.engine = .idle → (s.err = true ∨ s.queue = []) → step s = .next (passed s)) ∧
    (∀ w, s.engine = .exec w → ∃ t, step s = .next t ∧ completeStep w (passed s) = .next t ∧ t.engine = .idle)

/-- The invariant of the machine is kept by every step: legal parameters, PMEM in its canonical form (log 5) and inside
NPOLY registers, at most CQ_DEPTH queued words (R37), ERRCODE 0 exactly when ERR is 0 (R49), nothing queued or executing
while ERR = 1, ERRLOC of the form R56 gives, and, the model's own choice (log 8; R290 leaves open what the state is while rst_n = 0),
the reset state held while rst_n = 0. -/
def Obligations.InvariantKeptByEveryStep : Prop :=
  ∀ s t : State, s.Inv → step s = .next t → t.Inv

/-- The invariant holds right after reset, for every legal configuration. -/
def Obligations.InvariantAtReset : Prop :=
  State.reset.Inv ∧ ∀ cfg : Config, cfg.wf → (State.resetWith cfg).Inv

/-- R60: the state after a hardware reset. (The configuration, the host's side and the count of free values are the
model's, log 2 to 4.) -/
def Obligations.ResetValues : Prop :=
  State.reset = State.resetWith { npoly := .n64, cqDepth := 16 } ∧ configWord State.reset.cfg = 0x01101040#32 ∧
  (∀ k : Fin 256, zrom k.val = (1753 ^ brv8 k.val : Int) % q) ∧
  ∀ cfg : Config, let s := State.resetWith cfg
    (∀ r, s.s r = .bot) ∧ (∀ i c, s.p i c = .bot) ∧ s.queue = [] ∧ s.engine = .idle ∧
    idWord = 0x4D4C4441#32 ∧ qvalWord = 0x007FE001#32 ∧ s.statusWord = 0#32 ∧ s.ieWord = 0#32 ∧ s.retired = 0#32 ∧
    s.errcmd = 0#32 ∧ s.erridx = 0#32 ∧ s.errloc = 0#32 ∧ s.irq = false

/-- R46, R47, R48: exactly when DONE, ERR and DROP are 1 after a step, whatever the step; while ERR = 1 the engine starts
no command and a CMD write is dropped; all three are 0 after reset. That a hardware reset clears them already at the step
where rst_n falls is the model's own choice (log 8): R290 fixes the state when rst_n returns to 1; so is that a reset turn at
the level rst_n has already clears them. -/
def Obligations.StatusBitsChangeExactlyAsTheRulesSay : Prop :=
  State.reset.done = false ∧ State.reset.err = false ∧ State.reset.drop = false ∧
  ∀ s t : State, step s = .next t →
    (t.done = true ↔
      (s.queue = [] ∧ ∃ w, CompleteMove s w ∧ t.retired = s.retired + 1#32) ∨
        (s.done = true ∧ ¬ StatusMove s 1 ∧ ¬ SoftResetMove s ∧ ¬ PinMove s)) ∧
    (t.err = true ↔
      (∃ w, CompleteMove s w ∧ t.retired = s.retired) ∨
        (s.err = true ∧ ¬ ClearMove s ∧ ¬ SoftResetMove s ∧ ¬ PinMove s)) ∧
    (t.drop = true ↔
      DropMove s ∨ (s.drop = true ∧ ¬ StatusMove s 3 ∧ ¬ SoftResetMove s ∧ ¬ PinMove s)) ∧
    (s.err = true → s.engine = .idle → t.engine = .idle ∧ t.queue.length ≤ s.queue.length)

/-- R53, R54, R55, R56: what a step does to RETIRED, ERRCMD, ERRIDX and ERRLOC: a soft reset, and a hardware reset when
rst_n is 1 again, clear them; a complete step either leaves RETIRED and records its fault, or counts one and keeps the
three; every other step keeps all four. That a reset turn to 1 while rst_n is 1 already clears them too is the model's own
choice (log 8). -/
def Obligations.CounterAndDiagnosticsChangeExactlyAsTheRulesSay : Prop :=
  ∀ s t : State, step s = .next t →
    (SoftResetMove s ∨ nextTurn s = .resetPin true →
      t.retired = 0#32 ∧ t.errcmd = 0#32 ∧ t.erridx = 0#32 ∧ t.errloc = 0#32) ∧
    (∀ w, CompleteMove s w →
      (t.retired = s.retired →
        t.err = true ∧ t.errcmd = w ∧ t.erridx = s.retired ∧ bits t.errloc 31 16 = 0 ∧
          (t.errcode = .operandRange ∧ bits t.errloc 15 15 = 1 ∨ t.errcode = .illegalCommand ∧ t.errloc = 0#32)) ∧
      (t.retired ≠ s.retired →
        t.retired = s.retired + 1#32 ∧ t.err = s.err ∧ t.errcmd = s.errcmd ∧ t.erridx = s.erridx ∧
          t.errloc = s.errloc)) ∧
    (¬ SoftResetMove s → ¬ PinMove s → (∀ w, ¬ CompleteMove s w) →
      t.retired = s.retired ∧ t.errcmd = s.errcmd ∧ t.erridx = s.erridx ∧ t.errloc = s.errloc)

/-- R92, R81, R290: SREG and PMEM change only by a complete step, a window write of a host that is not stalled, a soft
reset while a command is in flight, or a change of the reset input; the configuration never changes. -/
def Obligations.StorageChangesOnlyByCommandsWindowsAndResets : Prop :=
  ∀ s t : State, step s = .next t →
    t.cfg = s.cfg ∧
    (t.sreg ≠ s.sreg ∨ t.pmem ≠ s.pmem →
      (∃ w, CompleteMove s w) ∨ WindowMove s ∨ (SoftResetMove s ∧ s.engine ≠ .idle) ∨ PinMove s)

/-- R303: however the engine's and the host's moves interleave, a list of command words pushed through CMD from an idle
unit without an error ends with the SREG, PMEM, RETIRED, ERR, ERRCODE, ERRCMD, ERRIDX and ERRLOC of running the list one
word after another. (The schedule is the model's own field, log 3.) -/
def Obligations.EveryInterleavingEndsAsTheCommandList : Prop :=
  ∀ (s t : State) (ws : List Word) (n : Nat), s.rstN = true → s.busy = false → s.err = false →
    (∀ level, Turn.resetPin level ∉ s.sched) → s.txns = ws.map cmdReq →
    steps n s = some t → t.txns = [] → t.busy = false → SameEnd t (runList ws s)

/-- R301, R84, R86: left to itself, a busy unit becomes idle, and no host transaction has moved meanwhile. The bound, at
most two steps a queued word and one for the command in flight, is the model's choice: one step completes a command
(log 16), and with nothing scheduled the engine moves before the host (log 3). -/
def Obligations.BusyUnitBecomesIdle : Prop :=
  ∀ s : State, s.rstN = true → s.sched = [] → s.busy = true → (s.err = true → s.queue = []) →
    ∃ n t, n ≤ 2 * s.queue.length + 1 ∧ steps n s = some t ∧ t.busy = false ∧ t.txns = s.txns ∧
      t.responses = s.responses

/-- R58, R92: what a command does to SREG and PMEM, and whether and where it faults, does not depend on any control
register, the queue, the engine or the host's side. -/
def Obligations.CommandsDoNotReadTheControlRegisters : Prop :=
  ∀ (i : Instr) (s t : State), SameData s t →
    ∃ s' t', exec i s = .next s' ∧ exec i t = .next t' ∧ SameData s' t' ∧
      (s'.retired = s.retired ↔ t'.retired = t.retired) ∧
      (s'.retired = s.retired → s'.errloc = t'.errloc ∧ s'.errcode = t'.errcode ∧ s'.errcmd = t'.errcmd)

/-! ## The end of a complete step, for all commands -/

/-- R263, R264, R265: the complete step of every command either completes, changing its destinations, RETIRED, DONE and
the engine and nothing else, or raises OPERAND_RANGE, making its destinations ⊥, naming a source word in ERRLOC and
changing what R264 lists and nothing else; a word that is no command raises ILLEGAL_COMMAND, with no destination and
ERRLOC 0. (The count of drawn free values is the model's, log 1.) -/
def Obligations.CommandFrame : Prop :=
  (∀ (i : Instr) (s : State),
    (∃ sreg m n, SregKept (destsOf i) s.sreg sreg ∧ PmemKept (destsOf i) s.pmem m ∧ s.draws ≤ n ∧
      exec i s = .next (retiredWith s sreg m n)) ∨
    (∃ file reg coef sreg m n,
      (file = 0 ∧ coef = 0 ∧ (∃ x ∈ scalarSources i, reg = x.1.val) ∨
        file = 1 ∧ coef < 256 ∧ ∃ x ∈ vectorSources i, x.1.val ≤ reg ∧ reg < x.1.val + x.2) ∧
      SregCleared (destsOf i) s.sreg sreg ∧ PmemCleared (destsOf i) s.pmem m ∧ s.draws ≤ n ∧
      exec i s = .next (faultedWith s (encode i) .operandRange
        (BitVec.ofNat 32 (2 ^ 15 + file * 2 ^ 14 + reg * 2 ^ 8 + coef)) sreg m n))) ∧
  ∀ (w : Word) (e : Reject) (s : State), decodeWord s.cfg.npoly w = .error e →
    completeStep w s = .next (faultedWith s w .illegalCommand 0#32 s.sreg s.pmem s.draws)

/-- R262, R130, R139 to R141, R185, R190, R246: a command with no typed source, or with sources of type Z only, completes
in every state, whatever its registers hold. -/
def Obligations.TypeZCommandsAlwaysComplete : Prop :=
  ∀ (s : State) (d a : SReg) (D A : PReg) (v : VLen) (imm : BitVec 20) (k : Fin 256),
    ∀ i ∈ [Instr.nop, .mov d a, .li d imm, .zeta d k, .pmov D A v, .pnormz d A v, .pwgt d A v],
      ∃ sreg m n, exec i s = .next (retiredWith s sreg m n)

/-! ## The scalar commands (40_field.md, 41_rounding.md) -/

/-- R131, R132, R134: ADD, SUB and MUL. -/
def Obligations.AddSubMul : Prop :=
  ScalarBinaryRule .add 0x01 IsF IsF
    (fun x y => if (x.toNat : Int) + y.toNat ≥ 8380417 then (x.toNat : Int) + y.toNat - 8380417 else x.toNat + y.toNat) ∧
  ScalarBinaryRule .sub 0x02 IsF IsF
    (fun x y => if (x.toNat : Int) - y.toNat + 8380417 ≥ 8380417 then (x.toNat : Int) - y.toNat
      else x.toNat - y.toNat + 8380417) ∧
  ScalarBinaryRule .mul 0x04 IsF IsF (fun x y => ((x.toNat : Int) * y.toNat) % 8380417)

/-- R133, R135, R136, R137, R138: NEG, RED, TOSYM, FROMSYM and NORM. -/
def Obligations.NegRedTosymFromsymNorm : Prop :=
  ScalarUnaryRule .neg 0x03 IsF (fun x => if x.toNat = 0 then 0 else 8380417 - x.toNat) ∧
  ScalarUnaryRule .red 0x05 IsW (fun x => if (x.toNat : Int) ≥ 8380417 then (x.toNat : Int) - 8380417 else x.toNat) ∧
  ScalarUnaryRule .tosym 0x06 IsF (fun x => if (x.toNat : Int) ≤ 4190208 then x.toNat else (x.toNat : Int) - 8380417) ∧
  ScalarUnaryRule .fromsym 0x07 IsS (fun x => if x.toInt < 0 then x.toInt + 8380417 else x.toInt) ∧
  ScalarUnaryRule .norm 0x08 IsF (fun x => min (x.toNat : Int) (8380417 - x.toNat))

/-- R130, R139, R140, R141: NOP, MOV, LI and ZETA complete in every state with these results. That MOV of a ⊥ word completes
with a free value, the next one drawn, is the model's choice among those of U1 (log 1); the word it writes is not known. -/
def Obligations.NopMovLiZeta : Prop :=
  ∀ (s : State) (d a : SReg) (x : Word) (imm : BitVec 20) (k : Fin 256),
    encode .nop = 0#32 ∧ fOp (encode (.mov d a)) = 0x09 ∧ fOp (encode (.li d imm)) = 0x0A ∧
    fOp (encode (.zeta d k)) = 0x0B ∧
    exec .nop s = .next (retiredWith s s.sreg s.pmem s.draws) ∧
    (s.s a = .val x → exec (.mov d a) s = .next (retiredWith s (s.sreg.set d (.val x)) s.pmem s.draws)) ∧
    (s.s a = .bot → ∃ y, exec (.mov d a) s = .next (retiredWith s (s.sreg.set d (.val y)) s.pmem (s.draws + 1))) ∧
    exec (.li d imm) s = .next (retiredWith s (s.sreg.set d (.val (imm.setWidth 32))) s.pmem s.draws) ∧
    exec (.zeta d k) s =
      .next (retiredWith s (s.sreg.set d (.val (BitVec.ofNat 32 (zromTable.getD k 0)))) s.pmem s.draws)

/-- R160, R161: P2R and DECOMP, the functions of R17 into two registers. -/
def Obligations.P2rDecomp : Prop :=
  ScalarPairRule .p2r 0x10 power2round ∧
  ∀ g : Gamma, ScalarPairRule (fun d a b => .decomp d a b g) 0x11 (fun a => decompose a g)

/-- R162, R163: HIGH and LOW. -/
def Obligations.HighLow : Prop :=
  ∀ g : Gamma,
    ScalarUnaryRule (fun d a => .high d a g) 0x12 IsF (fun x => (decompose x.toNat g).1) ∧
    ScalarUnaryRule (fun d a => .low d a g) 0x13 IsF (fun x => (decompose x.toNat g).2)

/-- R164, R165: MKHINT and USEHINT. -/
def Obligations.MkhintUsehint : Prop :=
  ∀ g : Gamma,
    ScalarBinaryRule (fun d a b => .mkhint d a b g) 0x14 IsF IsF
      (fun z r => if highbits r.toNat g ≠ highbits (reduceOnce (r.toNat + z.toNat)) g then 1 else 0) ∧
    ScalarBinaryRule (fun d a b => .usehint d a b g) 0x15 IsH IsF (fun h r => usehint h.toNat r.toNat g)

/-- R268 for the scalar commands, in every state, ⊥ sources among them: the sources are read in order, a ⊥ one as the next
free value (the model's choice, log 1; 93_implementation_defined.md U1), and the command faults at the first illegal one
or completes. -/
def Obligations.ScalarSourcesCheckedInOrder : Prop :=
  ∀ (i : Instr) (s : State), i.vectors = [] →
    match firstIllegalScalar s (scalarSources i) s.draws with
    | (none, n) => ∃ sreg, SregKept (destsOf i) s.sreg sreg ∧ exec i s = .next (retiredWith s sreg s.pmem n)
    | (some a, n) => ∃ sreg, SregCleared (destsOf i) s.sreg sreg ∧
        exec i s = .next (faultedWith s (encode i) .operandRange (scalarLoc a) sreg s.pmem n)

/-! ## The polynomial commands (42_ring.md, 43_ntt.md, 44_poly_rounding_hint.md) -/

/-- R183, R186, R187, R188: PNEG, PTOSYM, PFROMSYM and PRED, for any vectors, overlapping ones among them. -/
def Obligations.PnegPtosymPfromsymPred : Prop :=
  PolyUnaryRule .pneg 0x22 .F (fun a c => if a.getD c 0 = 0 then 0 else 8380417 - a.getD c 0) ∧
  PolyUnaryRule .ptosym 0x25 .F (fun a c => if a.getD c 0 ≤ 4190208 then a.getD c 0 else a.getD c 0 - 8380417) ∧
  PolyUnaryRule .pfromsym 0x26 .S (fun a c => if a.getD c 0 < 0 then a.getD c 0 + 8380417 else a.getD c 0) ∧
  PolyUnaryRule .pred 0x27 .W (fun a c => if a.getD c 0 ≥ 8380417 then a.getD c 0 - 8380417 else a.getD c 0)

/-- R185: PMOV copies every word unchanged, element after element. (A ⊥ word is copied as some word, the model's choice,
log 1; that the command completes then too is `TypeZCommandsAlwaysComplete`.) -/
def Obligations.PmovCopies : Prop := PolyUnaryRule .pmov 0x24 .Z (fun a c => a.getD c 0)

/-- R181, R182, R216: PADD, PSUB and PMUL, with and without broadcast, for any vectors, overlapping ones among them. -/
def Obligations.PaddPsubPmul : Prop :=
  PolyBinaryRule .padd 0x20 .F .F fadd ∧ PolyBinaryRule .psub 0x21 .F .F fsub ∧
  PolyBinaryRule .pmul 0x32 .F .F (fun x y => (x * y) % 8380417)

/-- R184: PSMUL, its scalar checked before any coefficient. -/
def Obligations.Psmul : Prop :=
  (∀ d a b v, fOp (encode (.psmul d a b v)) = 0x23) ∧
  ∀ (s : State) (d a : PReg) (b : SReg) (v : VLen) (k : Word), s.s b = .val k →
    (¬ IsF k → VectorFaults (.psmul d a b v) s d v.vl (scalarLoc b)) ∧
    (IsF k → ∀ (ms : Nat → Mem) (x : Nat → Nat → Int) (n : Nat), n ≤ v.vl →
      ElementSteps s.pmem ms d n (fun e c => wordOf ((x e c * (k.toNat : Int)) % 8380417)) →
      (∀ e, e < n → PolyHolds .F (ms e) (a + e) (x e)) →
      (n = v.vl → VectorCompletes (.psmul d a b v) s (ms n)) ∧
      ∀ c, n < v.vl → c < 256 → FirstIllegalWord .F (ms n) (a + n) c →
        VectorFaults (.psmul d a b v) s d v.vl (polyLoc (a + n) c))

/-- R242, R243: PHIGH and PLOW. -/
def Obligations.PhighPlow : Prop :=
  ∀ g : Gamma,
    PolyUnaryRule (fun d a v => .phigh d a v g) 0x3A .F (fun a c => (decompose (a.getD c 0) g).1) ∧
    PolyUnaryRule (fun d a v => .plow d a v g) 0x3B .F (fun a c => (decompose (a.getD c 0) g).2)

/-- R240, R241: PP2R and PDECOMP, the functions of R17 into two vectors. -/
def Obligations.Pp2rPdecomp : Prop :=
  PolyPairRule .pp2r 0x38 power2round ∧
  ∀ g : Gamma, PolyPairRule (fun d a b v => .pdecomp d a b v g) 0x39 (fun a => decompose a g)

/-- R244, R245: PMKHINT and PUSEHINT, with and without broadcast. -/
def Obligations.PmkhintPusehint : Prop :=
  ∀ g : Gamma,
    PolyBinaryRule (fun d a b v k => .pmkhint d a b v k g) 0x3C .F .F
      (fun z r => if highbits r g ≠ highbits (reduceOnce (r + z)) g then 1 else 0) ∧
    PolyBinaryRule (fun d a b v k => .pusehint d a b v k g) 0x3D .H .F (fun h r => usehint h r g)

/-- R214, R215: NTT and INTT apply the transforms of R212 and R213 to each polynomial, in place or not. -/
def Obligations.NttIntt : Prop :=
  PolyUnaryRule .ntt 0x30 .F (fun a c => (nttForward a).getD c 0) ∧
  PolyUnaryRule .intt 0x31 .F (fun a c => (nttInverse a).getD c 0)

/-- R217: PDOT writes the sum of the products, whatever register of the sources p[D] is, and faults at the first illegal
word, term by term, A before B. -/
def Obligations.PdotSumsTheProducts : Prop :=
  (∀ d a b v k, fOp (encode (.pdot d a b v k)) = 0x33) ∧
  ∀ (s : State) (d a b : PReg) (v : VLen) (k : Bcast),
    (∀ x y : Nat → Nat → Int, Operand .F s.pmem a v.vl x → OperandB .F s.pmem k b v.vl y →
      ∃ m : Mem,
        WritesVector s.pmem m d 1
          (fun _ c => wordOf ((((List.range v.vl).map fun e => x e c * y e c).sum) % 8380417)) ∧
        (s.pmem.wf = true → m.wf = true) ∧
        exec (.pdot d a b v k) s = .next (retiredWith s s.sreg m s.draws)) ∧
    ∀ e c : Nat, e < v.vl → c < 256 → LegalElements .F s.pmem (operandB k b) e →
      (FirstIllegal .F s.pmem (fun e => a + e) e c →
        ∃ m : Mem, ClearsVector s.pmem m d 1 ∧ (s.pmem.wf = true → m.wf = true) ∧
          exec (.pdot d a b v k) s =
            .next (faultedWith s (encode (.pdot d a b v k)) .operandRange (polyLoc (a + e) c) s.sreg m s.draws)) ∧
      (LegalElements .F s.pmem (fun e => a + e) (e + 1) → FirstIllegal .F s.pmem (operandB k b) e c →
        ∃ m : Mem, ClearsVector s.pmem m d 1 ∧ (s.pmem.wf = true → m.wf = true) ∧
          exec (.pdot d a b v k) s =
            .next (faultedWith s (encode (.pdot d a b v k)) .operandRange (polyLoc (operandB k b e) c) s.sreg m
              s.draws))

/-- R189, R190, R246: PNORM and PNORMZ write the maximum, PWGT the number of non-zero words; PNORM faults at the first
word that is not below q, and the other two never fault (`TypeZCommandsAlwaysComplete`). -/
def Obligations.PnormPnormzPwgt : Prop :=
  (PolyReduceCompletes .pnorm 0x28 .F (IsMaximum fun x => min x (8380417 - x)) ∧ PolyReduceFaults .pnorm .F) ∧
  PolyReduceCompletes .pnormz 0x29 .Z (IsMaximum fun x => |x|) ∧
  PolyReduceCompletes .pwgt 0x3E .Z IsWeight

/-- R180, R262, R263: the vector commands complete in every state whose source words are legal for the command's operand
types, in place or with vectors that do not intersect (for other overlaps: the rules above and
`VectorCommandIsItsElements`). -/
def Obligations.VectorCommandsCompleteOnLegalOperands : Prop :=
  ∀ (s : State) (d a b : PReg) (v : VLen) (k : Bcast) (g : Gamma), ReadsBeforeWrites d v.vl (fun e => a + e) →
    (LegalElements .F s.pmem (fun e => a + e) v.vl →
      (∀ i ∈ [Instr.pneg d a v, .ptosym d a v, .phigh d a v g, .plow d a v g, .ntt d a v, .intt d a v],
        Completes i s) ∧
      (∀ (r : SReg) (w : Word), s.s r = .val w → IsF w → Completes (.psmul d a r v) s) ∧
      (vectorsDisjoint d b v = true → ReadsBeforeWrites b v.vl (fun e => a + e) →
        ∀ i ∈ [Instr.pp2r d a b v, .pdecomp d a b v g], Completes i s) ∧
      (LegalElements .F s.pmem (operandB k b) v.vl → ReadsBeforeWrites d v.vl (operandB k b) →
        ∀ i ∈ [Instr.padd d a b v k, .psub d a b v k, .pmul d a b v k, .pmkhint d a b v k g], Completes i s)) ∧
    (LegalElements .S s.pmem (fun e => a + e) v.vl → Completes (.pfromsym d a v) s) ∧
    (LegalElements .W s.pmem (fun e => a + e) v.vl → Completes (.pred d a v) s) ∧
    (LegalElements .H s.pmem (fun e => a + e) v.vl → LegalElements .F s.pmem (operandB k b) v.vl →
      ReadsBeforeWrites d v.vl (operandB k b) → Completes (.pusehint d a b v k g) s)

/-- R180, R20: a vector command is its single-element commands one after another, overlapping ranges included: the same
SREG and PMEM when it completes, the same failing word when it faults. (A ⊥ scalar of PSMUL, which the elements would read
again, is set apart: log 1.) -/
def Obligations.VectorCommandIsItsElements : Prop :=
  ∀ (i : Instr) (s : State), i.wf s.cfg.npoly = true → s.pmem.wf = true → elementsOf i ≠ [] →
    (∀ d a b v, i = .psmul d a b v → s.s b ≠ .bot) →
    ∃ t, exec i s = .next t ∧
      (t.retired ≠ s.retired →
        t.sreg = (runUntilFault (elementsOf i) s).sreg ∧ t.pmem = (runUntilFault (elementsOf i) s).pmem ∧
          t.draws = (runUntilFault (elementsOf i) s).draws ∧
          (runUntilFault (elementsOf i) s).err = s.err) ∧
      (t.retired = s.retired →
        (runUntilFault (elementsOf i) s).err = true ∧
          t.errloc = (runUntilFault (elementsOf i) s).errloc ∧
          t.draws = (runUntilFault (elementsOf i) s).draws)

/-! ## Arithmetic laws (40_field.md, 41_rounding.md, 43_ntt.md) -/

/-- R142, R144: every field result is the exact residue in [0, q), and the laws of R144. -/
def Obligations.FieldResultsAreExactResidues : Prop :=
  ∀ x y : Int, 0 ≤ x → x < q → 0 ≤ y → y < q →
    (fadd x y = (x + y) % q ∧ fsub x y = (x - y) % q ∧ fneg x = (-x) % q ∧ fmul x y = (x * y) % q ∧
      fnorm x = |toSym x| ∧ 0 ≤ fnorm x ∧ fnorm x < q ∧ (toSym x - x) % q = 0 ∧ -4190208 ≤ toSym x ∧
      toSym x ≤ 4190208 ∧ fromSym (toSym x) = x) ∧
    (reduceOnce (x + q) = x ∧ reduceOnce x = x ∧ fadd x (fneg x) = 0 ∧ fmul x 1 = x ∧ fmul x 0 = 0)

/-- R166: Power2Round. -/
def Obligations.Power2roundLaw : Prop :=
  ∀ a : Int, 0 ≤ a → a < q →
    (power2round a).1 * 2 ^ 13 + (power2round a).2 = a ∧ -4095 ≤ (power2round a).2 ∧ (power2round a).2 ≤ 4096 ∧
      0 ≤ (power2round a).1 ∧ (power2round a).1 ≤ 1023

/-- R167: Decompose; outside the special case, which is a > q − 1 − γ₂, the sum is exact; −γ₂ occurs only for a = q − γ₂. -/
def Obligations.DecomposeLaw : Prop :=
  ∀ (g : Gamma) (a : Int), 0 ≤ a → a < q →
    ((decompose a g).1 * (2 * gamma2 g) + (decompose a g).2) % q = a ∧
      0 ≤ (decompose a g).1 ∧ (decompose a g).1 ≤ bands g - 1 ∧
      -gamma2 g ≤ (decompose a g).2 ∧ (decompose a g).2 ≤ gamma2 g ∧
      (a ≤ q - 1 - gamma2 g → (decompose a g).1 * (2 * gamma2 g) + (decompose a g).2 = a ∧ -gamma2 g < (decompose a g).2) ∧
      (q - 1 - gamma2 g < a → decompose a g = (0, a - q)) ∧
      ((decompose a g).2 = -gamma2 g → a = q - gamma2 g)

/-- R168: the hint law. -/
def Obligations.HintLaw : Prop :=
  ∀ (g : Gamma) (r z : Int), 0 ≤ r → r < q → 0 ≤ z → z < q → |toSym z| ≤ gamma2 g →
    usehint (makehint z r g) r g = highbits (reduceOnce (r + z)) g

/-- R210, R211: ZROM is the formula's table, of distinct values in [1, q); its sum is the one R211 gives. -/
def Obligations.ZromIsTheFormula : Prop :=
  (∀ k : Fin 256, zrom k.val = (1753 ^ brv8 k.val : Int) % q) ∧ zromTable.length = 256 ∧ zromTable.Nodup ∧
    (∀ x ∈ zromTable, 1 ≤ x ∧ x < 8380417) ∧ zromTable.sum = 1068914535

/-- R212, the closed form: coefficient j of the transform is the polynomial's value at ζ^(2·brv8(j)+1). -/
def Obligations.NttClosedForm : Prop :=
  ∀ x : List Int, IsRq x → IsRq (nttForward x) ∧
    ∀ j, j < 256 →
      (nttForward x).getD j 0 = (((List.range 256).map fun c => x.getD c 0 * 1753 ^ ((2 * brv8 j + 1) * c)).sum) % q

/-- R218.1: the round trip, both ways. -/
def Obligations.NttRoundTrip : Prop :=
  ∀ x : List Int, IsRq x → nttInverse (nttForward x) = x ∧ nttForward (nttInverse x) = x

/-- R218.2: the pointwise product of transforms is the transform of the negacyclic product. -/
def Obligations.NttTurnsProductsIntoPointwiseProducts : Prop :=
  ∀ x y : List Int, IsRq x → IsRq y → ∀ c, c < 256 →
    (nttInverse (List.zipWith fmul (nttForward x) (nttForward y))).getD c 0 = negacyclic x y c % q

/-- R218.3: linearity. -/
def Obligations.NttIsLinear : Prop :=
  ∀ (x y : List Int) (k : Int), IsRq x → IsRq y → 0 ≤ k → k < q →
    nttForward (List.zipWith fadd x y) = List.zipWith fadd (nttForward x) (nttForward y) ∧
      nttForward (x.map (fmul k)) = (nttForward x).map (fmul k)

/-! ## The host's side (20_memory.md, 10_state.md, 60_exceptions.md, 70_reset_and_hazards.md) -/

/-- R40, R41, R42: the constant registers. -/
def Obligations.ConstantRegisters : Prop :=
  ∀ (s : State) (rest : List BusReq), s.cfg.wf →
    (HostReads s 0x000 rest → step s = .next (answered s rest 0x4D4C4441#32 false)) ∧
    (HostReads s 0x008 rest → step s = .next (answered s rest 0x007FE001#32 false)) ∧
    (HostReads s 0x004 rest → ∃ w, step s = .next (answered s rest w false) ∧
      bits w 7 0 = s.cfg.npoly.count ∧ bits w 15 8 = 16 ∧ bits w 23 16 = s.cfg.cqDepth ∧ bits w 31 24 = 1 ∧
      (s.cfg = Config.default → w = 0x01101040#32))

/-- R44, R45, R50: every bit of a STATUS read, and what a STATUS write does. -/
def Obligations.StatusRegister : Prop :=
  State.reset.statusWord = 0#32 ∧
  ∀ (s : State) (rest : List BusReq), s.queue.length ≤ 255 →
    (HostReads s 0x010 rest → ∃ w, step s = .next (answered s rest w false) ∧
      bits w 0 0 = (if s.engine = .idle ∧ s.queue = [] then 0 else 1) ∧ bits w 1 1 = s.done.toNat ∧
      bits w 2 2 = s.err.toNat ∧ bits w 3 3 = s.drop.toNat ∧ bits w 7 4 = 0 ∧ bits w 11 8 = s.errcode.code ∧
      bits w 15 12 = 0 ∧ bits w 23 16 = s.queue.length ∧ bits w 31 24 = 0) ∧
    ∀ w, HostWrites s 0x010 w rest → ∃ r, step s = .next (answered
      { s with done := s.done && !w.getLsbD 1, drop := s.drop && !w.getLsbD 3 } rest r false)

/-- R57, R51, R53 to R56: `irq` is the level R57 gives, IE is stored and read back and `irq` follows at once, and the
counter and diagnostics are read. -/
def Obligations.InterruptEnableAndReadOnlyRegisters : Prop :=
  State.reset.ieWord = 0#32 ∧ State.reset.irq = false ∧
  (∀ s : State, s.irq = true ↔ (s.done = true ∧ s.doneIe = true) ∨ (s.err = true ∧ s.errIe = true)) ∧
  ∀ (s : State) (rest : List BusReq),
    (∀ w, HostWrites s 0x014 w rest → ∃ r, let t := { s with doneIe := w.getLsbD 0, errIe := w.getLsbD 1 }
      step s = .next (answered t rest r false) ∧
        (answered t rest r false).irq = (s.done && w.getLsbD 0 || s.err && w.getLsbD 1)) ∧
    (HostReads s 0x014 rest → ∃ w, step s = .next (answered s rest w false) ∧
      bits w 0 0 = s.doneIe.toNat ∧ bits w 1 1 = s.errIe.toNat ∧ bits w 31 2 = 0) ∧
    (HostReads s 0x01C rest → step s = .next (answered s rest s.retired false)) ∧
    (HostReads s 0x020 rest → step s = .next (answered s rest s.errcmd false)) ∧
    (HostReads s 0x024 rest → step s = .next (answered s rest s.erridx false)) ∧
    (HostReads s 0x028 rest → step s = .next (answered s rest s.errloc false))

/-- R75, R73: reserved addresses read 0 and ignore writes, writes to read-only registers and ZROM are ignored, ZROM reads
its table, CTRL and CMD read 0; none of these ever stalls. -/
def Obligations.ReservedReadOnlyAndRomAccesses : Prop :=
  ∀ (s : State) (rest : List BusReq) (a : Nat),
    (ReservedAddress s.cfg.npoly a → HostReads s a rest → step s = .next (answered s rest 0#32 false)) ∧
    (ReservedAddress s.cfg.npoly a ∨ a ∈ [0x000, 0x004, 0x008, 0x01C, 0x020, 0x024, 0x028] ∨
        (∃ k, k < 256 ∧ a = 0x400 + 4 * k) →
      ∀ w, HostWrites s a w rest → ∃ r, step s = .next (answered s rest r false)) ∧
    (∀ k, k < 256 → HostReads s (0x400 + 4 * k) rest →
      step s = .next (answered s rest (BitVec.ofNat 32 (zromTable.getD k 0)) false)) ∧
    (HostReads s 0x00C rest → step s = .next (answered s rest 0#32 false)) ∧
    (HostReads s 0x018 rest → step s = .next (answered s rest 0#32 false))

/-- R72, R74, R84: the SREG and PMEM windows: stalled while the unit is busy, else a read of the word, a write of the
word, and a read of a ⊥ word returns some word (93_implementation_defined.md U1); beyond NPOLY the window is reserved. -/
def Obligations.WindowAccesses : Prop :=
  (∀ (s : State) (rest : List BusReq) (r c : Nat), s.cfg.npoly.count ≤ r → r < 64 → c < 256 →
    (HostReads s (0x10000 + 1024 * r + 4 * c) rest → step s = .next (answered s rest 0#32 false)) ∧
    (∀ w, HostWrites s (0x10000 + 1024 * r + 4 * c) w rest →
      ∃ x, step s = .next (answered s rest x false))) ∧
  ∀ (s : State) (rest : List BusReq) (i : SReg) (r c : Nat), r < s.cfg.npoly.count → c < 256 →
    (s.busy = true →
      (HostReads s (0x100 + 4 * i) rest ∨ HostReads s (0x10000 + 1024 * r + 4 * c) rest ∨
        ∃ w, HostWrites s (0x100 + 4 * i) w rest ∨ HostWrites s (0x10000 + 1024 * r + 4 * c) w rest) →
      step s = .next (passed s)) ∧
    (s.busy = false →
      (∀ w, HostReads s (0x100 + 4 * i) rest → s.s i = .val w → step s = .next (answered s rest w false)) ∧
      (HostReads s (0x100 + 4 * i) rest → s.s i = .bot →
        ∃ w n, step s = .next (answered { s with draws := n } rest w false)) ∧
      (∀ w, HostWrites s (0x100 + 4 * i) w rest →
        ∃ x, step s = .next (answered { s with sreg := s.sreg.set i (.val w) } rest x false)) ∧
      (∀ w, HostReads s (0x10000 + 1024 * r + 4 * c) rest → s.p r c = .val w →
        step s = .next (answered s rest w false)) ∧
      (HostReads s (0x10000 + 1024 * r + 4 * c) rest → s.p r c = .bot →
        ∃ w n, step s = .next (answered { s with draws := n } rest w false)) ∧
      (∀ w, HostWrites s (0x10000 + 1024 * r + 4 * c) w rest → ∃ (x : Word) (m : Mem),
        (∀ j e, e < 256 → Mem.get m (wordNo j e) = if j = r ∧ e = c then .val w else Mem.get s.pmem (wordNo j e)) ∧
          (s.pmem.wf = true → m.wf = true) ∧ step s = .next (answered { s with pmem := m } rest x false)))

/-- R86, R87, R52: a CMD write is queued at the tail, held while the queue is full, or dropped while ERR = 1. -/
def Obligations.CommandWrites : Prop :=
  ∀ (s : State) (w : Word) (rest : List BusReq), HostWrites s 0x018 w rest →
    (s.err = false → s.queue.length < s.cfg.cqDepth →
      ∃ r, step s = .next (answered { s with queue := s.queue ++ [w] } rest r false)) ∧
    (s.err = false → s.queue.length ≥ s.cfg.cqDepth → step s = .next (passed s)) ∧
    (s.err = true → ∃ r, step s = .next (answered { s with drop := true } rest r false))

/-- R43, R270, R292, R293: a CTRL write: the soft reset, which wins, the error clear, or nothing. That a word in flight
which is no legal command has no destinations is the model's reading (log 17), not the spec's words. -/
def Obligations.ControlWrites : Prop :=
  ∀ (s : State) (w : Word) (rest : List BusReq), HostWrites s 0x00C w rest →
    (w.getLsbD 1 = true → ∃ (r : Word) (ds : List Dest) (sreg : Vector Slot 16) (m : Mem),
      (s.engine = .idle → ds = []) ∧
      (∀ x i, s.engine = .exec x → decodeWord s.cfg.npoly x = .ok i → ds = destsOf i) ∧
      (∀ x e, s.engine = .exec x → decodeWord s.cfg.npoly x = .error e → ds = []) ∧
      SregCleared ds s.sreg sreg ∧ PmemCleared ds s.pmem m ∧ (s.pmem.wf = true → m.wf = true) ∧
      step s = .next (answered
        { s with
          sreg := sreg, pmem := m, queue := [], engine := .idle, done := false, err := false, drop := false
          errcode := .none, doneIe := false, errIe := false, retired := 0#32, errcmd := 0#32, erridx := 0#32
          errloc := 0#32 } rest r false)) ∧
    (w.getLsbD 1 = false → w.getLsbD 0 = true → s.err = true →
      ∃ r, step s = .next (answered { s with err := false, errcode := .none } rest r false)) ∧
    (w.getLsbD 1 = false → (w.getLsbD 0 = false ∨ s.err = false) →
      ∃ r, step s = .next (answered s rest r false))

/-- R78, 93_implementation_defined.md U10: a misaligned access, or a write that is not of a whole word, completes with
err = 1 and rdata = 0 and has no other effect. That the model follows the hardware here, and that it answers at once,
whatever is busy or full, is its choice (log 11). -/
def Obligations.UnsupportedAccessesHaveNoEffect : Prop :=
  ∀ (s : State) (t : BusReq) (rest : List BusReq), s.rstN = true → nextTurn s = .host → s.txns = t :: rest →
    (bits t.addr 1 0 ≠ 0 ∨ (t.write = true ∧ t.wstrb ≠ 0b1111#4)) →
    step s = .next (answered s rest 0#32 true)

/-- R80: no read has a side effect, whatever its address: it is held, or it is answered and nothing else changes but, where
it answers a ⊥ word of a window, the count of drawn free values, by one (the model's own field, log 1). -/
def Obligations.ReadsHaveNoSideEffect : Prop :=
  ∀ (s u : State) (t : BusReq) (rest : List BusReq), s.rstN = true → nextTurn s = .host → s.txns = t :: rest →
    t.write = false → step s = .next u →
    (u = passed s ∧ s.busy = true) ∨ ∃ rdata err n, u = answered { s with draws := n } rest rdata err ∧
      (UnfixedWordAt s t.addr.toNat → n = s.draws + 1) ∧ (¬ UnfixedWordAt s t.addr.toNat → n = s.draws)

/-- R290, R60: when rst_n is 1 again every piece of the unit's state has its reset value, and a bus transaction while
rst_n = 0 is refused. That the state has those values from the moment rst_n falls, and that an engine turn changes nothing
while rst_n = 0, is the model's choice (log 8), which R290 leaves open; so is that a reset turn at the level rst_n has already
is a hardware reset (log 8). -/
def Obligations.HardwareReset : Prop :=
  ∀ s : State,
    (∀ level, nextTurn s = .resetPin level → ∃ t, step s = .next t ∧ t.rstN = level ∧ t.cfg = s.cfg ∧
      (∀ r, t.s r = .bot) ∧ (∀ i c, t.p i c = .bot) ∧ t.queue = [] ∧ t.engine = .idle ∧ t.statusWord = 0#32 ∧
      t.ieWord = 0#32 ∧ t.retired = 0#32 ∧ t.errcmd = 0#32 ∧ t.erridx = 0#32 ∧ t.errloc = 0#32 ∧ t.irq = false ∧
      t.txns = s.txns ∧ t.responses = s.responses) ∧
    (s.rstN = false →
      (nextTurn s = .engine → step s = .next (passed s)) ∧
      (∀ t rest, nextTurn s = .host → s.txns = t :: rest → step s = .refused .busWhileReset))
end

