-- ==== Sys2Proof/Laws/Decode.lean ====
section
/-! SUPPORT. The command word's fields: what each reads from a word built by Format R or Format I, and the two spellings
of the legality conditions R112.3 to R112.5 (`operandReject` of the decoder, `Instr.wf`) agree. -/

namespace Sys2Proof

/-- The fields of a Format R word. -/
theorem fields_formR {op d a b v c g : Nat} (ho : op < 64) (hd : d < 64) (ha : a < 64) (hb : b < 64)
    (hv : v < 8) (hc : c < 2) (hg : g < 2) :
    fOp (formR op d a b v c g) = op ∧ fD (formR op d a b v c g) = d ∧ fA (formR op d a b v c g) = a ∧
    fB (formR op d a b v c g) = b ∧ fV (formR op d a b v c g) = v ∧ fC (formR op d a b v c g) = c ∧
    fG (formR op d a b v c g) = g ∧ fRsv (formR op d a b v c g) = 0 := by
  simp only [fOp, fD, fA, fB, fV, fC, fG, fRsv, bits, formR, BitVec.toNat_ofNat]
  norm_num
  omega

section Fields

variable {op d a b v c g : Nat} (ho : op < 64) (hd : d < 64) (ha : a < 64) (hb : b < 64) (hv : v < 8) (hc : c < 2)
  (hg : g < 2)
include ho hd ha hb hv hc hg

theorem fOp_formR : fOp (formR op d a b v c g) = op := (fields_formR ho hd ha hb hv hc hg).1
theorem fD_formR : fD (formR op d a b v c g) = d := (fields_formR ho hd ha hb hv hc hg).2.1
theorem fA_formR : fA (formR op d a b v c g) = a := (fields_formR ho hd ha hb hv hc hg).2.2.1
theorem fB_formR : fB (formR op d a b v c g) = b := (fields_formR ho hd ha hb hv hc hg).2.2.2.1
theorem fV_formR : fV (formR op d a b v c g) = v := (fields_formR ho hd ha hb hv hc hg).2.2.2.2.1
theorem fC_formR : fC (formR op d a b v c g) = c := (fields_formR ho hd ha hb hv hc hg).2.2.2.2.2.1
theorem fG_formR : fG (formR op d a b v c g) = g := (fields_formR ho hd ha hb hv hc hg).2.2.2.2.2.2.1
theorem fRsv_formR : fRsv (formR op d a b v c g) = 0 := (fields_formR ho hd ha hb hv hc hg).2.2.2.2.2.2.2

end Fields

/-- The fields of a Format I word. -/
theorem fields_formI {op d imm : Nat} (ho : op < 64) (hd : d < 64) (hi : imm < 2 ^ 20) :
    fOp (formI op d imm) = op ∧ fD (formI op d imm) = d ∧ fImm (formI op d imm) = imm ∧
    fK (formI op d imm) = imm % 256 ∧ fKHigh (formI op d imm) = imm / 256 := by
  simp only [fOp, fD, fImm, fK, fKHigh, bits, formI, BitVec.toNat_ofNat]
  norm_num at *
  omega

/-- A word is its Format R fields. -/
theorem formR_fields (w : Word) (h : fRsv w = 0) :
    formR (fOp w) (fD w) (fA w) (fB w) (fV w) (fC w) (fG w) = w := by
  apply BitVec.eq_of_toNat_eq
  have := w.isLt
  simp only [fOp, fD, fA, fB, fV, fC, fG, fRsv, bits, formR, BitVec.toNat_ofNat] at *
  norm_num at *
  omega

/-- A word is its Format I fields. -/
theorem formI_fields (w : Word) : formI (fOp w) (fD w) (fImm w) = w := by
  apply BitVec.eq_of_toNat_eq
  have := w.isLt
  simp only [fOp, fD, fImm, bits, formI, BitVec.toNat_ofNat] at *
  norm_num at *
  omega

theorem fD_lt (w : Word) : fD w < 64 := Nat.mod_lt _ (by decide)
theorem fA_lt (w : Word) : fA w < 64 := Nat.mod_lt _ (by decide)
theorem fB_lt (w : Word) : fB w < 64 := Nat.mod_lt _ (by decide)
theorem fV_lt (w : Word) : fV w < 8 := Nat.mod_lt _ (by decide)
theorem fC_lt (w : Word) : fC w < 2 := Nat.mod_lt _ (by decide)
theorem fG_lt (w : Word) : fG w < 2 := Nat.mod_lt _ (by decide)

@[simp] theorem sField_val (r : SReg) : sField r.val = r := by simp [sField]
@[simp] theorem pField_val (r : PReg) : pField r.val = r := by simp [pField]
@[simp] theorem vField_val (v : VLen) : vField v.val = v := by simp [vField]
@[simp] theorem gField_bit (g : Gamma) : gField g.bit = g := by cases g <;> rfl
@[simp] theorem cField_bit (c : Bcast) : cField c.bit = c := by cases c <;> rfl
theorem Gamma.bit_lt (g : Gamma) : g.bit < 2 := by cases g <;> decide
theorem Bcast.bit_lt (c : Bcast) : c.bit < 2 := by cases c <;> decide

theorem bit_gField {n : Nat} (h : n < 2) : (gField n).bit = n := by
  unfold gField; split <;> simp only [Gamma.bit] <;> omega

theorem bit_cField {n : Nat} (h : n < 2) : (cField n).bit = n := by
  unfold cField; split <;> simp only [Bcast.bit] <;> omega

theorem VLen.vl_pos (v : VLen) : 0 < v.vl := Nat.succ_pos _
theorem VLen.vl_le (v : VLen) : v.vl ≤ 8 := v.isLt

theorem operandBFits_eq (np : NPoly) (b : PReg) (v : VLen) (c : Bcast) :
    operandBFits np b v c = decide (b.val + c.span v ≤ np.count) := by cases c <;> rfl

/-- The decoder's own conditions 3 to 5 are `Instr.wf`. -/
theorem operandReject_eq_none (np : NPoly) (i : Instr) : operandReject np i = none ↔ i.wf np = true := by
  cases i <;>
    simp only [operandReject, Instr.vectors, Instr.wf, vectorFits, registerFits, vectorsDisjoint, overlapReject,
      operandBFits_eq, List.all_cons, List.all_nil, Bool.and_true, Bool.and_eq_true, decide_eq_true_eq, if_true]
  all_goals first
    | done
    | (split <;> simp_all; done)
    | (split <;> simp_all <;> omega)

/-- What the decoder answers, in terms of its two halves. -/
theorem decodeWord_ok (np : NPoly) (w : Word) (i : Instr) :
    decodeWord np w = .ok i ↔ decodeRow w = .ok i ∧ i.wf np = true := by
  rw [← operandReject_eq_none]
  unfold decodeWord
  cases decodeRow w with
  | error e => simp
  | ok j =>
    simp only [Except.ok.injEq]
    constructor
    · intro h
      split at h
      · cases h; exact ⟨rfl, ‹_›⟩
      · cases h
    · rintro ⟨rfl, h⟩
      simp [h]

end Sys2Proof
end

