-- ==== Sys2Proof/Laws/State.lean ====
section
/-! SUPPORT. One lemma for each field of each update of the state, so that no proof unfolds a record update. -/

namespace Sys2Proof.Machine

/-! ## State.setS -/

@[simp] theorem State.setS_cfg (st : State) (i : SReg) (v : Slot) :
    (st.setS i v).cfg = st.cfg := rfl
@[simp] theorem State.setS_sreg (st : State) (i : SReg) (v : Slot) :
    (st.setS i v).sreg = st.sreg.set i v := rfl
@[simp] theorem State.setS_pmem (st : State) (i : SReg) (v : Slot) :
    (st.setS i v).pmem = st.pmem := rfl
@[simp] theorem State.setS_queue (st : State) (i : SReg) (v : Slot) :
    (st.setS i v).queue = st.queue := rfl
@[simp] theorem State.setS_engine (st : State) (i : SReg) (v : Slot) :
    (st.setS i v).engine = st.engine := rfl
@[simp] theorem State.setS_done (st : State) (i : SReg) (v : Slot) :
    (st.setS i v).done = st.done := rfl
@[simp] theorem State.setS_err (st : State) (i : SReg) (v : Slot) :
    (st.setS i v).err = st.err := rfl
@[simp] theorem State.setS_drop (st : State) (i : SReg) (v : Slot) :
    (st.setS i v).drop = st.drop := rfl
@[simp] theorem State.setS_errcode (st : State) (i : SReg) (v : Slot) :
    (st.setS i v).errcode = st.errcode := rfl
@[simp] theorem State.setS_doneIe (st : State) (i : SReg) (v : Slot) :
    (st.setS i v).doneIe = st.doneIe := rfl
@[simp] theorem State.setS_errIe (st : State) (i : SReg) (v : Slot) :
    (st.setS i v).errIe = st.errIe := rfl
@[simp] theorem State.setS_retired (st : State) (i : SReg) (v : Slot) :
    (st.setS i v).retired = st.retired := rfl
@[simp] theorem State.setS_errcmd (st : State) (i : SReg) (v : Slot) :
    (st.setS i v).errcmd = st.errcmd := rfl
@[simp] theorem State.setS_erridx (st : State) (i : SReg) (v : Slot) :
    (st.setS i v).erridx = st.erridx := rfl
@[simp] theorem State.setS_errloc (st : State) (i : SReg) (v : Slot) :
    (st.setS i v).errloc = st.errloc := rfl
@[simp] theorem State.setS_rstN (st : State) (i : SReg) (v : Slot) :
    (st.setS i v).rstN = st.rstN := rfl
@[simp] theorem State.setS_txns (st : State) (i : SReg) (v : Slot) :
    (st.setS i v).txns = st.txns := rfl
@[simp] theorem State.setS_responses (st : State) (i : SReg) (v : Slot) :
    (st.setS i v).responses = st.responses := rfl
@[simp] theorem State.setS_sched (st : State) (i : SReg) (v : Slot) :
    (st.setS i v).sched = st.sched := rfl
@[simp] theorem State.setS_draws (st : State) (i : SReg) (v : Slot) :
    (st.setS i v).draws = st.draws := rfl

/-! ## State.writeS -/

@[simp] theorem State.writeS_cfg (st : State) (i : SReg) (v : Int) :
    (st.writeS i v).cfg = st.cfg := rfl
@[simp] theorem State.writeS_sreg (st : State) (i : SReg) (v : Int) :
    (st.writeS i v).sreg = st.sreg.set i (.val (wordOf v)) := rfl
@[simp] theorem State.writeS_pmem (st : State) (i : SReg) (v : Int) :
    (st.writeS i v).pmem = st.pmem := rfl
@[simp] theorem State.writeS_queue (st : State) (i : SReg) (v : Int) :
    (st.writeS i v).queue = st.queue := rfl
@[simp] theorem State.writeS_engine (st : State) (i : SReg) (v : Int) :
    (st.writeS i v).engine = st.engine := rfl
@[simp] theorem State.writeS_done (st : State) (i : SReg) (v : Int) :
    (st.writeS i v).done = st.done := rfl
@[simp] theorem State.writeS_err (st : State) (i : SReg) (v : Int) :
    (st.writeS i v).err = st.err := rfl
@[simp] theorem State.writeS_drop (st : State) (i : SReg) (v : Int) :
    (st.writeS i v).drop = st.drop := rfl
@[simp] theorem State.writeS_errcode (st : State) (i : SReg) (v : Int) :
    (st.writeS i v).errcode = st.errcode := rfl
@[simp] theorem State.writeS_doneIe (st : State) (i : SReg) (v : Int) :
    (st.writeS i v).doneIe = st.doneIe := rfl
@[simp] theorem State.writeS_errIe (st : State) (i : SReg) (v : Int) :
    (st.writeS i v).errIe = st.errIe := rfl
@[simp] theorem State.writeS_retired (st : State) (i : SReg) (v : Int) :
    (st.writeS i v).retired = st.retired := rfl
@[simp] theorem State.writeS_errcmd (st : State) (i : SReg) (v : Int) :
    (st.writeS i v).errcmd = st.errcmd := rfl
@[simp] theorem State.writeS_erridx (st : State) (i : SReg) (v : Int) :
    (st.writeS i v).erridx = st.erridx := rfl
@[simp] theorem State.writeS_errloc (st : State) (i : SReg) (v : Int) :
    (st.writeS i v).errloc = st.errloc := rfl
@[simp] theorem State.writeS_rstN (st : State) (i : SReg) (v : Int) :
    (st.writeS i v).rstN = st.rstN := rfl
@[simp] theorem State.writeS_txns (st : State) (i : SReg) (v : Int) :
    (st.writeS i v).txns = st.txns := rfl
@[simp] theorem State.writeS_responses (st : State) (i : SReg) (v : Int) :
    (st.writeS i v).responses = st.responses := rfl
@[simp] theorem State.writeS_sched (st : State) (i : SReg) (v : Int) :
    (st.writeS i v).sched = st.sched := rfl
@[simp] theorem State.writeS_draws (st : State) (i : SReg) (v : Int) :
    (st.writeS i v).draws = st.draws := rfl

/-! ## State.setMem -/

@[simp] theorem State.setMem_cfg (st : State) (m : Mem) :
    (st.setMem m).cfg = st.cfg := rfl
@[simp] theorem State.setMem_sreg (st : State) (m : Mem) :
    (st.setMem m).sreg = st.sreg := rfl
@[simp] theorem State.setMem_pmem (st : State) (m : Mem) :
    (st.setMem m).pmem = m := rfl
@[simp] theorem State.setMem_queue (st : State) (m : Mem) :
    (st.setMem m).queue = st.queue := rfl
@[simp] theorem State.setMem_engine (st : State) (m : Mem) :
    (st.setMem m).engine = st.engine := rfl
@[simp] theorem State.setMem_done (st : State) (m : Mem) :
    (st.setMem m).done = st.done := rfl
@[simp] theorem State.setMem_err (st : State) (m : Mem) :
    (st.setMem m).err = st.err := rfl
@[simp] theorem State.setMem_drop (st : State) (m : Mem) :
    (st.setMem m).drop = st.drop := rfl
@[simp] theorem State.setMem_errcode (st : State) (m : Mem) :
    (st.setMem m).errcode = st.errcode := rfl
@[simp] theorem State.setMem_doneIe (st : State) (m : Mem) :
    (st.setMem m).doneIe = st.doneIe := rfl
@[simp] theorem State.setMem_errIe (st : State) (m : Mem) :
    (st.setMem m).errIe = st.errIe := rfl
@[simp] theorem State.setMem_retired (st : State) (m : Mem) :
    (st.setMem m).retired = st.retired := rfl
@[simp] theorem State.setMem_errcmd (st : State) (m : Mem) :
    (st.setMem m).errcmd = st.errcmd := rfl
@[simp] theorem State.setMem_erridx (st : State) (m : Mem) :
    (st.setMem m).erridx = st.erridx := rfl
@[simp] theorem State.setMem_errloc (st : State) (m : Mem) :
    (st.setMem m).errloc = st.errloc := rfl
@[simp] theorem State.setMem_rstN (st : State) (m : Mem) :
    (st.setMem m).rstN = st.rstN := rfl
@[simp] theorem State.setMem_txns (st : State) (m : Mem) :
    (st.setMem m).txns = st.txns := rfl
@[simp] theorem State.setMem_responses (st : State) (m : Mem) :
    (st.setMem m).responses = st.responses := rfl
@[simp] theorem State.setMem_sched (st : State) (m : Mem) :
    (st.setMem m).sched = st.sched := rfl
@[simp] theorem State.setMem_draws (st : State) (m : Mem) :
    (st.setMem m).draws = st.draws := rfl

/-! ## State.setP -/

@[simp] theorem State.setP_cfg (st : State) (i c : Nat) (v : Slot) :
    (st.setP i c v).cfg = st.cfg := rfl
@[simp] theorem State.setP_sreg (st : State) (i c : Nat) (v : Slot) :
    (st.setP i c v).sreg = st.sreg := rfl
@[simp] theorem State.setP_pmem (st : State) (i c : Nat) (v : Slot) :
    (st.setP i c v).pmem = Mem.write st.pmem (wordNo i c) [v] := rfl
@[simp] theorem State.setP_queue (st : State) (i c : Nat) (v : Slot) :
    (st.setP i c v).queue = st.queue := rfl
@[simp] theorem State.setP_engine (st : State) (i c : Nat) (v : Slot) :
    (st.setP i c v).engine = st.engine := rfl
@[simp] theorem State.setP_done (st : State) (i c : Nat) (v : Slot) :
    (st.setP i c v).done = st.done := rfl
@[simp] theorem State.setP_err (st : State) (i c : Nat) (v : Slot) :
    (st.setP i c v).err = st.err := rfl
@[simp] theorem State.setP_drop (st : State) (i c : Nat) (v : Slot) :
    (st.setP i c v).drop = st.drop := rfl
@[simp] theorem State.setP_errcode (st : State) (i c : Nat) (v : Slot) :
    (st.setP i c v).errcode = st.errcode := rfl
@[simp] theorem State.setP_doneIe (st : State) (i c : Nat) (v : Slot) :
    (st.setP i c v).doneIe = st.doneIe := rfl
@[simp] theorem State.setP_errIe (st : State) (i c : Nat) (v : Slot) :
    (st.setP i c v).errIe = st.errIe := rfl
@[simp] theorem State.setP_retired (st : State) (i c : Nat) (v : Slot) :
    (st.setP i c v).retired = st.retired := rfl
@[simp] theorem State.setP_errcmd (st : State) (i c : Nat) (v : Slot) :
    (st.setP i c v).errcmd = st.errcmd := rfl
@[simp] theorem State.setP_erridx (st : State) (i c : Nat) (v : Slot) :
    (st.setP i c v).erridx = st.erridx := rfl
@[simp] theorem State.setP_errloc (st : State) (i c : Nat) (v : Slot) :
    (st.setP i c v).errloc = st.errloc := rfl
@[simp] theorem State.setP_rstN (st : State) (i c : Nat) (v : Slot) :
    (st.setP i c v).rstN = st.rstN := rfl
@[simp] theorem State.setP_txns (st : State) (i c : Nat) (v : Slot) :
    (st.setP i c v).txns = st.txns := rfl
@[simp] theorem State.setP_responses (st : State) (i c : Nat) (v : Slot) :
    (st.setP i c v).responses = st.responses := rfl
@[simp] theorem State.setP_sched (st : State) (i c : Nat) (v : Slot) :
    (st.setP i c v).sched = st.sched := rfl
@[simp] theorem State.setP_draws (st : State) (i c : Nat) (v : Slot) :
    (st.setP i c v).draws = st.draws := rfl

/-! ## State.completed -/

@[simp] theorem State.completed_cfg (st : State) :
    (st.completed).cfg = st.cfg := rfl
@[simp] theorem State.completed_sreg (st : State) :
    (st.completed).sreg = st.sreg := rfl
@[simp] theorem State.completed_pmem (st : State) :
    (st.completed).pmem = st.pmem := rfl
@[simp] theorem State.completed_queue (st : State) :
    (st.completed).queue = st.queue := rfl
@[simp] theorem State.completed_engine (st : State) :
    (st.completed).engine = .idle := rfl
@[simp] theorem State.completed_done (st : State) :
    (st.completed).done = (st.done || st.queue.isEmpty) := rfl
@[simp] theorem State.completed_err (st : State) :
    (st.completed).err = st.err := rfl
@[simp] theorem State.completed_drop (st : State) :
    (st.completed).drop = st.drop := rfl
@[simp] theorem State.completed_errcode (st : State) :
    (st.completed).errcode = st.errcode := rfl
@[simp] theorem State.completed_doneIe (st : State) :
    (st.completed).doneIe = st.doneIe := rfl
@[simp] theorem State.completed_errIe (st : State) :
    (st.completed).errIe = st.errIe := rfl
@[simp] theorem State.completed_retired (st : State) :
    (st.completed).retired = st.retired + 1#32 := rfl
@[simp] theorem State.completed_errcmd (st : State) :
    (st.completed).errcmd = st.errcmd := rfl
@[simp] theorem State.completed_erridx (st : State) :
    (st.completed).erridx = st.erridx := rfl
@[simp] theorem State.completed_errloc (st : State) :
    (st.completed).errloc = st.errloc := rfl
@[simp] theorem State.completed_rstN (st : State) :
    (st.completed).rstN = st.rstN := rfl
@[simp] theorem State.completed_txns (st : State) :
    (st.completed).txns = st.txns := rfl
@[simp] theorem State.completed_responses (st : State) :
    (st.completed).responses = st.responses := rfl
@[simp] theorem State.completed_sched (st : State) :
    (st.completed).sched = st.sched := rfl
@[simp] theorem State.completed_draws (st : State) :
    (st.completed).draws = st.draws := rfl

/-! ## retiredWith -/

@[simp] theorem retiredWith_cfg (st : State) (r : Vector Slot 16) (m : Mem) (n : Nat) :
    (retiredWith st r m n).cfg = st.cfg := rfl
@[simp] theorem retiredWith_sreg (st : State) (r : Vector Slot 16) (m : Mem) (n : Nat) :
    (retiredWith st r m n).sreg = r := rfl
@[simp] theorem retiredWith_pmem (st : State) (r : Vector Slot 16) (m : Mem) (n : Nat) :
    (retiredWith st r m n).pmem = m := rfl
@[simp] theorem retiredWith_queue (st : State) (r : Vector Slot 16) (m : Mem) (n : Nat) :
    (retiredWith st r m n).queue = st.queue := rfl
@[simp] theorem retiredWith_engine (st : State) (r : Vector Slot 16) (m : Mem) (n : Nat) :
    (retiredWith st r m n).engine = .idle := rfl
@[simp] theorem retiredWith_done (st : State) (r : Vector Slot 16) (m : Mem) (n : Nat) :
    (retiredWith st r m n).done = (st.done || st.queue.isEmpty) := rfl
@[simp] theorem retiredWith_err (st : State) (r : Vector Slot 16) (m : Mem) (n : Nat) :
    (retiredWith st r m n).err = st.err := rfl
@[simp] theorem retiredWith_drop (st : State) (r : Vector Slot 16) (m : Mem) (n : Nat) :
    (retiredWith st r m n).drop = st.drop := rfl
@[simp] theorem retiredWith_errcode (st : State) (r : Vector Slot 16) (m : Mem) (n : Nat) :
    (retiredWith st r m n).errcode = st.errcode := rfl
@[simp] theorem retiredWith_doneIe (st : State) (r : Vector Slot 16) (m : Mem) (n : Nat) :
    (retiredWith st r m n).doneIe = st.doneIe := rfl
@[simp] theorem retiredWith_errIe (st : State) (r : Vector Slot 16) (m : Mem) (n : Nat) :
    (retiredWith st r m n).errIe = st.errIe := rfl
@[simp] theorem retiredWith_retired (st : State) (r : Vector Slot 16) (m : Mem) (n : Nat) :
    (retiredWith st r m n).retired = st.retired + 1#32 := rfl
@[simp] theorem retiredWith_errcmd (st : State) (r : Vector Slot 16) (m : Mem) (n : Nat) :
    (retiredWith st r m n).errcmd = st.errcmd := rfl
@[simp] theorem retiredWith_erridx (st : State) (r : Vector Slot 16) (m : Mem) (n : Nat) :
    (retiredWith st r m n).erridx = st.erridx := rfl
@[simp] theorem retiredWith_errloc (st : State) (r : Vector Slot 16) (m : Mem) (n : Nat) :
    (retiredWith st r m n).errloc = st.errloc := rfl
@[simp] theorem retiredWith_rstN (st : State) (r : Vector Slot 16) (m : Mem) (n : Nat) :
    (retiredWith st r m n).rstN = st.rstN := rfl
@[simp] theorem retiredWith_txns (st : State) (r : Vector Slot 16) (m : Mem) (n : Nat) :
    (retiredWith st r m n).txns = st.txns := rfl
@[simp] theorem retiredWith_responses (st : State) (r : Vector Slot 16) (m : Mem) (n : Nat) :
    (retiredWith st r m n).responses = st.responses := rfl
@[simp] theorem retiredWith_sched (st : State) (r : Vector Slot 16) (m : Mem) (n : Nat) :
    (retiredWith st r m n).sched = st.sched := rfl
@[simp] theorem retiredWith_draws (st : State) (r : Vector Slot 16) (m : Mem) (n : Nat) :
    (retiredWith st r m n).draws = n := rfl

/-! ## faultedWith -/

@[simp] theorem faultedWith_cfg (st : State) (w : Word) (k : ErrCode) (l : Word) (r : Vector Slot 16) (m : Mem) (n : Nat) :
    (faultedWith st w k l r m n).cfg = st.cfg := rfl
@[simp] theorem faultedWith_sreg (st : State) (w : Word) (k : ErrCode) (l : Word) (r : Vector Slot 16) (m : Mem) (n : Nat) :
    (faultedWith st w k l r m n).sreg = r := rfl
@[simp] theorem faultedWith_pmem (st : State) (w : Word) (k : ErrCode) (l : Word) (r : Vector Slot 16) (m : Mem) (n : Nat) :
    (faultedWith st w k l r m n).pmem = m := rfl
@[simp] theorem faultedWith_queue (st : State) (w : Word) (k : ErrCode) (l : Word) (r : Vector Slot 16) (m : Mem) (n : Nat) :
    (faultedWith st w k l r m n).queue = [] := rfl
@[simp] theorem faultedWith_engine (st : State) (w : Word) (k : ErrCode) (l : Word) (r : Vector Slot 16) (m : Mem) (n : Nat) :
    (faultedWith st w k l r m n).engine = .idle := rfl
@[simp] theorem faultedWith_done (st : State) (w : Word) (k : ErrCode) (l : Word) (r : Vector Slot 16) (m : Mem) (n : Nat) :
    (faultedWith st w k l r m n).done = st.done := rfl
@[simp] theorem faultedWith_err (st : State) (w : Word) (k : ErrCode) (l : Word) (r : Vector Slot 16) (m : Mem) (n : Nat) :
    (faultedWith st w k l r m n).err = true := rfl
@[simp] theorem faultedWith_drop (st : State) (w : Word) (k : ErrCode) (l : Word) (r : Vector Slot 16) (m : Mem) (n : Nat) :
    (faultedWith st w k l r m n).drop = st.drop := rfl
@[simp] theorem faultedWith_errcode (st : State) (w : Word) (k : ErrCode) (l : Word) (r : Vector Slot 16) (m : Mem) (n : Nat) :
    (faultedWith st w k l r m n).errcode = k := rfl
@[simp] theorem faultedWith_doneIe (st : State) (w : Word) (k : ErrCode) (l : Word) (r : Vector Slot 16) (m : Mem) (n : Nat) :
    (faultedWith st w k l r m n).doneIe = st.doneIe := rfl
@[simp] theorem faultedWith_errIe (st : State) (w : Word) (k : ErrCode) (l : Word) (r : Vector Slot 16) (m : Mem) (n : Nat) :
    (faultedWith st w k l r m n).errIe = st.errIe := rfl
@[simp] theorem faultedWith_retired (st : State) (w : Word) (k : ErrCode) (l : Word) (r : Vector Slot 16) (m : Mem) (n : Nat) :
    (faultedWith st w k l r m n).retired = st.retired := rfl
@[simp] theorem faultedWith_errcmd (st : State) (w : Word) (k : ErrCode) (l : Word) (r : Vector Slot 16) (m : Mem) (n : Nat) :
    (faultedWith st w k l r m n).errcmd = w := rfl
@[simp] theorem faultedWith_erridx (st : State) (w : Word) (k : ErrCode) (l : Word) (r : Vector Slot 16) (m : Mem) (n : Nat) :
    (faultedWith st w k l r m n).erridx = st.retired := rfl
@[simp] theorem faultedWith_errloc (st : State) (w : Word) (k : ErrCode) (l : Word) (r : Vector Slot 16) (m : Mem) (n : Nat) :
    (faultedWith st w k l r m n).errloc = l := rfl
@[simp] theorem faultedWith_rstN (st : State) (w : Word) (k : ErrCode) (l : Word) (r : Vector Slot 16) (m : Mem) (n : Nat) :
    (faultedWith st w k l r m n).rstN = st.rstN := rfl
@[simp] theorem faultedWith_txns (st : State) (w : Word) (k : ErrCode) (l : Word) (r : Vector Slot 16) (m : Mem) (n : Nat) :
    (faultedWith st w k l r m n).txns = st.txns := rfl
@[simp] theorem faultedWith_responses (st : State) (w : Word) (k : ErrCode) (l : Word) (r : Vector Slot 16) (m : Mem) (n : Nat) :
    (faultedWith st w k l r m n).responses = st.responses := rfl
@[simp] theorem faultedWith_sched (st : State) (w : Word) (k : ErrCode) (l : Word) (r : Vector Slot 16) (m : Mem) (n : Nat) :
    (faultedWith st w k l r m n).sched = st.sched := rfl
@[simp] theorem faultedWith_draws (st : State) (w : Word) (k : ErrCode) (l : Word) (r : Vector Slot 16) (m : Mem) (n : Nat) :
    (faultedWith st w k l r m n).draws = n := rfl

/-! ## clobber -/

@[simp] theorem clobberOne_cfg (d : Dest) (st : State) : (clobberOne st d).cfg = st.cfg := by cases d <;> rfl
@[simp] theorem clobberOne_queue (d : Dest) (st : State) : (clobberOne st d).queue = st.queue := by cases d <;> rfl
@[simp] theorem clobberOne_engine (d : Dest) (st : State) : (clobberOne st d).engine = st.engine := by cases d <;> rfl
@[simp] theorem clobberOne_done (d : Dest) (st : State) : (clobberOne st d).done = st.done := by cases d <;> rfl
@[simp] theorem clobberOne_err (d : Dest) (st : State) : (clobberOne st d).err = st.err := by cases d <;> rfl
@[simp] theorem clobberOne_drop (d : Dest) (st : State) : (clobberOne st d).drop = st.drop := by cases d <;> rfl
@[simp] theorem clobberOne_errcode (d : Dest) (st : State) : (clobberOne st d).errcode = st.errcode := by cases d <;> rfl
@[simp] theorem clobberOne_doneIe (d : Dest) (st : State) : (clobberOne st d).doneIe = st.doneIe := by cases d <;> rfl
@[simp] theorem clobberOne_errIe (d : Dest) (st : State) : (clobberOne st d).errIe = st.errIe := by cases d <;> rfl
@[simp] theorem clobberOne_retired (d : Dest) (st : State) : (clobberOne st d).retired = st.retired := by cases d <;> rfl
@[simp] theorem clobberOne_errcmd (d : Dest) (st : State) : (clobberOne st d).errcmd = st.errcmd := by cases d <;> rfl
@[simp] theorem clobberOne_erridx (d : Dest) (st : State) : (clobberOne st d).erridx = st.erridx := by cases d <;> rfl
@[simp] theorem clobberOne_errloc (d : Dest) (st : State) : (clobberOne st d).errloc = st.errloc := by cases d <;> rfl
@[simp] theorem clobberOne_rstN (d : Dest) (st : State) : (clobberOne st d).rstN = st.rstN := by cases d <;> rfl
@[simp] theorem clobberOne_txns (d : Dest) (st : State) : (clobberOne st d).txns = st.txns := by cases d <;> rfl
@[simp] theorem clobberOne_responses (d : Dest) (st : State) : (clobberOne st d).responses = st.responses := by cases d <;> rfl
@[simp] theorem clobberOne_sched (d : Dest) (st : State) : (clobberOne st d).sched = st.sched := by cases d <;> rfl
@[simp] theorem clobberOne_draws (d : Dest) (st : State) : (clobberOne st d).draws = st.draws := by cases d <;> rfl

@[simp] theorem clobber_cfg (ds : List Dest) (st : State) : (clobber ds st).cfg = st.cfg := by
  induction ds generalizing st with
  | nil => rfl
  | cons d ds ih => exact (ih _).trans (clobberOne_cfg d st)
@[simp] theorem clobber_queue (ds : List Dest) (st : State) : (clobber ds st).queue = st.queue := by
  induction ds generalizing st with
  | nil => rfl
  | cons d ds ih => exact (ih _).trans (clobberOne_queue d st)
@[simp] theorem clobber_engine (ds : List Dest) (st : State) : (clobber ds st).engine = st.engine := by
  induction ds generalizing st with
  | nil => rfl
  | cons d ds ih => exact (ih _).trans (clobberOne_engine d st)
@[simp] theorem clobber_done (ds : List Dest) (st : State) : (clobber ds st).done = st.done := by
  induction ds generalizing st with
  | nil => rfl
  | cons d ds ih => exact (ih _).trans (clobberOne_done d st)
@[simp] theorem clobber_err (ds : List Dest) (st : State) : (clobber ds st).err = st.err := by
  induction ds generalizing st with
  | nil => rfl
  | cons d ds ih => exact (ih _).trans (clobberOne_err d st)
@[simp] theorem clobber_drop (ds : List Dest) (st : State) : (clobber ds st).drop = st.drop := by
  induction ds generalizing st with
  | nil => rfl
  | cons d ds ih => exact (ih _).trans (clobberOne_drop d st)
@[simp] theorem clobber_errcode (ds : List Dest) (st : State) : (clobber ds st).errcode = st.errcode := by
  induction ds generalizing st with
  | nil => rfl
  | cons d ds ih => exact (ih _).trans (clobberOne_errcode d st)
@[simp] theorem clobber_doneIe (ds : List Dest) (st : State) : (clobber ds st).doneIe = st.doneIe := by
  induction ds generalizing st with
  | nil => rfl
  | cons d ds ih => exact (ih _).trans (clobberOne_doneIe d st)
@[simp] theorem clobber_errIe (ds : List Dest) (st : State) : (clobber ds st).errIe = st.errIe := by
  induction ds generalizing st with
  | nil => rfl
  | cons d ds ih => exact (ih _).trans (clobberOne_errIe d st)
@[simp] theorem clobber_retired (ds : List Dest) (st : State) : (clobber ds st).retired = st.retired := by
  induction ds generalizing st with
  | nil => rfl
  | cons d ds ih => exact (ih _).trans (clobberOne_retired d st)
@[simp] theorem clobber_errcmd (ds : List Dest) (st : State) : (clobber ds st).errcmd = st.errcmd := by
  induction ds generalizing st with
  | nil => rfl
  | cons d ds ih => exact (ih _).trans (clobberOne_errcmd d st)
@[simp] theorem clobber_erridx (ds : List Dest) (st : State) : (clobber ds st).erridx = st.erridx := by
  induction ds generalizing st with
  | nil => rfl
  | cons d ds ih => exact (ih _).trans (clobberOne_erridx d st)
@[simp] theorem clobber_errloc (ds : List Dest) (st : State) : (clobber ds st).errloc = st.errloc := by
  induction ds generalizing st with
  | nil => rfl
  | cons d ds ih => exact (ih _).trans (clobberOne_errloc d st)
@[simp] theorem clobber_rstN (ds : List Dest) (st : State) : (clobber ds st).rstN = st.rstN := by
  induction ds generalizing st with
  | nil => rfl
  | cons d ds ih => exact (ih _).trans (clobberOne_rstN d st)
@[simp] theorem clobber_txns (ds : List Dest) (st : State) : (clobber ds st).txns = st.txns := by
  induction ds generalizing st with
  | nil => rfl
  | cons d ds ih => exact (ih _).trans (clobberOne_txns d st)
@[simp] theorem clobber_responses (ds : List Dest) (st : State) : (clobber ds st).responses = st.responses := by
  induction ds generalizing st with
  | nil => rfl
  | cons d ds ih => exact (ih _).trans (clobberOne_responses d st)
@[simp] theorem clobber_sched (ds : List Dest) (st : State) : (clobber ds st).sched = st.sched := by
  induction ds generalizing st with
  | nil => rfl
  | cons d ds ih => exact (ih _).trans (clobberOne_sched d st)
@[simp] theorem clobber_draws (ds : List Dest) (st : State) : (clobber ds st).draws = st.draws := by
  induction ds generalizing st with
  | nil => rfl
  | cons d ds ih => exact (ih _).trans (clobberOne_draws d st)

/-! ## takeFault -/

@[simp] theorem takeFault_cfg (w : Word) (k : ErrCode) (l : Option Loc) (ds : List Dest) (st : State) :
    (takeFault w k l ds st).cfg = st.cfg := clobber_cfg ds st
@[simp] theorem takeFault_sreg (w : Word) (k : ErrCode) (l : Option Loc) (ds : List Dest) (st : State) :
    (takeFault w k l ds st).sreg = (clobber ds st).sreg := rfl
@[simp] theorem takeFault_pmem (w : Word) (k : ErrCode) (l : Option Loc) (ds : List Dest) (st : State) :
    (takeFault w k l ds st).pmem = (clobber ds st).pmem := rfl
@[simp] theorem takeFault_queue (w : Word) (k : ErrCode) (l : Option Loc) (ds : List Dest) (st : State) :
    (takeFault w k l ds st).queue = [] := rfl
@[simp] theorem takeFault_engine (w : Word) (k : ErrCode) (l : Option Loc) (ds : List Dest) (st : State) :
    (takeFault w k l ds st).engine = .idle := rfl
@[simp] theorem takeFault_done (w : Word) (k : ErrCode) (l : Option Loc) (ds : List Dest) (st : State) :
    (takeFault w k l ds st).done = st.done := clobber_done ds st
@[simp] theorem takeFault_err (w : Word) (k : ErrCode) (l : Option Loc) (ds : List Dest) (st : State) :
    (takeFault w k l ds st).err = true := rfl
@[simp] theorem takeFault_drop (w : Word) (k : ErrCode) (l : Option Loc) (ds : List Dest) (st : State) :
    (takeFault w k l ds st).drop = st.drop := clobber_drop ds st
@[simp] theorem takeFault_errcode (w : Word) (k : ErrCode) (l : Option Loc) (ds : List Dest) (st : State) :
    (takeFault w k l ds st).errcode = k := rfl
@[simp] theorem takeFault_doneIe (w : Word) (k : ErrCode) (l : Option Loc) (ds : List Dest) (st : State) :
    (takeFault w k l ds st).doneIe = st.doneIe := clobber_doneIe ds st
@[simp] theorem takeFault_errIe (w : Word) (k : ErrCode) (l : Option Loc) (ds : List Dest) (st : State) :
    (takeFault w k l ds st).errIe = st.errIe := clobber_errIe ds st
@[simp] theorem takeFault_retired (w : Word) (k : ErrCode) (l : Option Loc) (ds : List Dest) (st : State) :
    (takeFault w k l ds st).retired = st.retired := clobber_retired ds st
@[simp] theorem takeFault_errcmd (w : Word) (k : ErrCode) (l : Option Loc) (ds : List Dest) (st : State) :
    (takeFault w k l ds st).errcmd = w := rfl
@[simp] theorem takeFault_erridx (w : Word) (k : ErrCode) (l : Option Loc) (ds : List Dest) (st : State) :
    (takeFault w k l ds st).erridx = st.retired := rfl
@[simp] theorem takeFault_errloc (w : Word) (k : ErrCode) (l : Option Loc) (ds : List Dest) (st : State) :
    (takeFault w k l ds st).errloc = errlocWord l := rfl
@[simp] theorem takeFault_rstN (w : Word) (k : ErrCode) (l : Option Loc) (ds : List Dest) (st : State) :
    (takeFault w k l ds st).rstN = st.rstN := clobber_rstN ds st
@[simp] theorem takeFault_txns (w : Word) (k : ErrCode) (l : Option Loc) (ds : List Dest) (st : State) :
    (takeFault w k l ds st).txns = st.txns := clobber_txns ds st
@[simp] theorem takeFault_responses (w : Word) (k : ErrCode) (l : Option Loc) (ds : List Dest) (st : State) :
    (takeFault w k l ds st).responses = st.responses := clobber_responses ds st
@[simp] theorem takeFault_sched (w : Word) (k : ErrCode) (l : Option Loc) (ds : List Dest) (st : State) :
    (takeFault w k l ds st).sched = st.sched := clobber_sched ds st
@[simp] theorem takeFault_draws (w : Word) (k : ErrCode) (l : Option Loc) (ds : List Dest) (st : State) :
    (takeFault w k l ds st).draws = st.draws := clobber_draws ds st

/-! ## clearError -/

@[simp] theorem clearError_cfg (st : State) : (clearError st).cfg = st.cfg := by
  unfold clearError; split <;> simp_all
@[simp] theorem clearError_sreg (st : State) : (clearError st).sreg = st.sreg := by
  unfold clearError; split <;> simp_all
@[simp] theorem clearError_pmem (st : State) : (clearError st).pmem = st.pmem := by
  unfold clearError; split <;> simp_all
@[simp] theorem clearError_queue (st : State) : (clearError st).queue = st.queue := by
  unfold clearError; split <;> simp_all
@[simp] theorem clearError_engine (st : State) : (clearError st).engine = st.engine := by
  unfold clearError; split <;> simp_all
@[simp] theorem clearError_done (st : State) : (clearError st).done = st.done := by
  unfold clearError; split <;> simp_all
@[simp] theorem clearError_err (st : State) : (clearError st).err = false := by
  unfold clearError; split <;> simp_all
@[simp] theorem clearError_drop (st : State) : (clearError st).drop = st.drop := by
  unfold clearError; split <;> simp_all
@[simp] theorem clearError_errcode (st : State) : (clearError st).errcode = if st.err then .none else st.errcode := by
  unfold clearError; split <;> simp_all
@[simp] theorem clearError_doneIe (st : State) : (clearError st).doneIe = st.doneIe := by
  unfold clearError; split <;> simp_all
@[simp] theorem clearError_errIe (st : State) : (clearError st).errIe = st.errIe := by
  unfold clearError; split <;> simp_all
@[simp] theorem clearError_retired (st : State) : (clearError st).retired = st.retired := by
  unfold clearError; split <;> simp_all
@[simp] theorem clearError_errcmd (st : State) : (clearError st).errcmd = st.errcmd := by
  unfold clearError; split <;> simp_all
@[simp] theorem clearError_erridx (st : State) : (clearError st).erridx = st.erridx := by
  unfold clearError; split <;> simp_all
@[simp] theorem clearError_errloc (st : State) : (clearError st).errloc = st.errloc := by
  unfold clearError; split <;> simp_all
@[simp] theorem clearError_rstN (st : State) : (clearError st).rstN = st.rstN := by
  unfold clearError; split <;> simp_all
@[simp] theorem clearError_txns (st : State) : (clearError st).txns = st.txns := by
  unfold clearError; split <;> simp_all
@[simp] theorem clearError_responses (st : State) : (clearError st).responses = st.responses := by
  unfold clearError; split <;> simp_all
@[simp] theorem clearError_sched (st : State) : (clearError st).sched = st.sched := by
  unfold clearError; split <;> simp_all
@[simp] theorem clearError_draws (st : State) : (clearError st).draws = st.draws := by
  unfold clearError; split <;> simp_all

/-! ## softReset -/

@[simp] theorem softReset_cfg (st : State) : (softReset st).cfg = st.cfg := clobber_cfg _ st
@[simp] theorem softReset_sreg (st : State) : (softReset st).sreg = (clobber (inFlightDests st) st).sreg := rfl
@[simp] theorem softReset_pmem (st : State) : (softReset st).pmem = (clobber (inFlightDests st) st).pmem := rfl
@[simp] theorem softReset_queue (st : State) : (softReset st).queue = [] := rfl
@[simp] theorem softReset_engine (st : State) : (softReset st).engine = .idle := rfl
@[simp] theorem softReset_done (st : State) : (softReset st).done = false := rfl
@[simp] theorem softReset_err (st : State) : (softReset st).err = false := rfl
@[simp] theorem softReset_drop (st : State) : (softReset st).drop = false := rfl
@[simp] theorem softReset_errcode (st : State) : (softReset st).errcode = .none := rfl
@[simp] theorem softReset_doneIe (st : State) : (softReset st).doneIe = false := rfl
@[simp] theorem softReset_errIe (st : State) : (softReset st).errIe = false := rfl
@[simp] theorem softReset_retired (st : State) : (softReset st).retired = 0#32 := rfl
@[simp] theorem softReset_errcmd (st : State) : (softReset st).errcmd = 0#32 := rfl
@[simp] theorem softReset_erridx (st : State) : (softReset st).erridx = 0#32 := rfl
@[simp] theorem softReset_errloc (st : State) : (softReset st).errloc = 0#32 := rfl
@[simp] theorem softReset_rstN (st : State) : (softReset st).rstN = st.rstN := clobber_rstN _ st
@[simp] theorem softReset_txns (st : State) : (softReset st).txns = st.txns := clobber_txns _ st
@[simp] theorem softReset_responses (st : State) : (softReset st).responses = st.responses := clobber_responses _ st
@[simp] theorem softReset_sched (st : State) : (softReset st).sched = st.sched := clobber_sched _ st
@[simp] theorem softReset_draws (st : State) : (softReset st).draws = st.draws := clobber_draws _ st

/-! ## hardReset -/

@[simp] theorem hardReset_cfg (level : Bool) (st : State) : (hardReset level st).cfg = st.cfg := rfl
@[simp] theorem hardReset_sreg (level : Bool) (st : State) : (hardReset level st).sreg = Vector.replicate 16 .bot := rfl
@[simp] theorem hardReset_pmem (level : Bool) (st : State) : (hardReset level st).pmem = [] := rfl
@[simp] theorem hardReset_queue (level : Bool) (st : State) : (hardReset level st).queue = [] := rfl
@[simp] theorem hardReset_engine (level : Bool) (st : State) : (hardReset level st).engine = .idle := rfl
@[simp] theorem hardReset_done (level : Bool) (st : State) : (hardReset level st).done = false := rfl
@[simp] theorem hardReset_err (level : Bool) (st : State) : (hardReset level st).err = false := rfl
@[simp] theorem hardReset_drop (level : Bool) (st : State) : (hardReset level st).drop = false := rfl
@[simp] theorem hardReset_errcode (level : Bool) (st : State) : (hardReset level st).errcode = .none := rfl
@[simp] theorem hardReset_doneIe (level : Bool) (st : State) : (hardReset level st).doneIe = false := rfl
@[simp] theorem hardReset_errIe (level : Bool) (st : State) : (hardReset level st).errIe = false := rfl
@[simp] theorem hardReset_retired (level : Bool) (st : State) : (hardReset level st).retired = 0#32 := rfl
@[simp] theorem hardReset_errcmd (level : Bool) (st : State) : (hardReset level st).errcmd = 0#32 := rfl
@[simp] theorem hardReset_erridx (level : Bool) (st : State) : (hardReset level st).erridx = 0#32 := rfl
@[simp] theorem hardReset_errloc (level : Bool) (st : State) : (hardReset level st).errloc = 0#32 := rfl
@[simp] theorem hardReset_rstN (level : Bool) (st : State) : (hardReset level st).rstN = level := rfl
@[simp] theorem hardReset_txns (level : Bool) (st : State) : (hardReset level st).txns = st.txns := rfl
@[simp] theorem hardReset_responses (level : Bool) (st : State) : (hardReset level st).responses = st.responses := rfl
@[simp] theorem hardReset_sched (level : Bool) (st : State) : (hardReset level st).sched = st.sched := rfl
@[simp] theorem hardReset_draws (level : Bool) (st : State) : (hardReset level st).draws = st.draws := rfl

end Sys2Proof.Machine
end

