-- ==== Sys2Proof/Laws/Memory.lean ====
section
/-! SUPPORT. What the operations over PMEM do, once: reading after writing, a whole polynomial, the canonical form; and
the reads of SREG after a write. -/

namespace Sys2Proof.Machine

/-- The first list decides where it lists the word (a listed word is never ⊥). -/
theorem Mem.get_append (m n : Mem) (a : Nat) :
    Mem.get (m ++ n) a = match Mem.get m a with
      | .bot => Mem.get n a
      | .val w => .val w := by
  induction m with
  | nil => rfl
  | cons x m ih =>
    obtain ⟨k, w⟩ := x
    by_cases h : k = a <;> simp [Mem.get, h, ih]

theorem Mem.get_eq_bot {m : Mem} {a : Nat} (h : ∀ x ∈ m, x.1 ≠ a) : Mem.get m a = .bot := by
  induction m with
  | nil => rfl
  | cons x m ih =>
    obtain ⟨k, w⟩ := x
    have hk : k ≠ a := h (k, w) (by simp)
    simp only [Mem.get, hk, if_false]
    exact ih fun y hy => h y (by simp [hy])

theorem Mem.get_filter (m : Mem) (p : Nat → Bool) (a : Nat) :
    Mem.get (m.filter fun x => p x.1) a = if p a then Mem.get m a else .bot := by
  induction m with
  | nil => simp [Mem.get]
  | cons x m ih =>
    obtain ⟨k, w⟩ := x
    by_cases hk : p k = true
    · by_cases h : k = a
      · subst h; simp [Mem.get, hk]
      · simp [Mem.get, hk, h, ih]
    · by_cases h : k = a
      · subst h; simp [hk, ih]
      · simp [Mem.get, hk, h, ih]

theorem cells_bounds {lo : Nat} {vs : List Slot} : ∀ x ∈ cells lo vs, lo ≤ x.1 ∧ x.1 < lo + vs.length := by
  induction vs generalizing lo with
  | nil => simp [cells]
  | cons v vs ih =>
    intro x hx
    cases v with
    | bot =>
      have := @ih (lo + 1) x hx
      simp only [List.length_cons]; omega
    | val w =>
      simp only [cells, List.mem_cons] at hx
      rcases hx with rfl | hx
      · simp
      · have := @ih (lo + 1) x hx
        simp only [List.length_cons]; omega

theorem get_cells (lo : Nat) (vs : List Slot) (a : Nat) :
    Mem.get (cells lo vs) a = if lo ≤ a then vs.getD (a - lo) .bot else .bot := by
  induction vs generalizing lo with
  | nil => simp [cells, Mem.get]
  | cons v vs ih =>
    by_cases ha : a = lo
    · subst ha
      cases v with
      | bot =>
        simp only [cells]
        rw [Mem.get_eq_bot]
        · simp
        · intro x hx; have := cells_bounds x hx; omega
      | val w => simp [cells, Mem.get]
    · cases v with
      | bot =>
        rw [cells, ih]
        by_cases h : lo + 1 ≤ a
        · have e : a - lo = (a - (lo + 1)) + 1 := by omega
          have h' : lo ≤ a := by omega
          simp [h, h', e]
        · have h' : ¬ lo ≤ a := by omega
          simp [h, h']
      | val w =>
        have hne : lo ≠ a := fun e => ha e.symm
        rw [cells, Mem.get, if_neg hne, ih]
        by_cases h : lo + 1 ≤ a
        · have e : a - lo = (a - (lo + 1)) + 1 := by omega
          have h' : lo ≤ a := by omega
          simp [h, h', e]
        · have h' : ¬ lo ≤ a := by omega
          simp [h, h']

/-- Reading after writing consecutive words: the words written, and every other word as before. -/
theorem Mem.get_write (m : Mem) (lo : Nat) (vs : List Slot) (a : Nat) :
    Mem.get (Mem.write m lo vs) a =
      if lo ≤ a ∧ a < lo + vs.length then vs.getD (a - lo) .bot else Mem.get m a := by
  have h1 := Mem.get_filter m (fun k => decide (k < lo)) a
  have h2 := Mem.get_filter m (fun k => decide (lo + vs.length ≤ k)) a
  simp only [Mem.write]
  rw [Mem.get_append, Mem.get_append, get_cells, h1, h2]
  by_cases hlt : a < lo
  · have hle : ¬ lo ≤ a := by omega
    have hbig : ¬ lo + vs.length ≤ a := by omega
    simp only [hlt, hle, hbig, decide_true, decide_false, if_true, if_false, false_and, Bool.false_eq_true]
    cases Mem.get m a <;> rfl
  · have hle : lo ≤ a := by omega
    by_cases hin : a < lo + vs.length
    · have hbig : ¬ lo + vs.length ≤ a := by omega
      simp only [hlt, hle, hin, hbig, decide_false, if_true, if_false, true_and, Bool.false_eq_true]
      cases vs.getD (a - lo) .bot <;> rfl
    · have hbig : lo + vs.length ≤ a := by omega
      have hnone : vs.getD (a - lo) .bot = .bot := by
        rw [List.getD_eq_getElem?_getD, List.getElem?_eq_none (by omega)]; rfl
      simp only [hlt, hle, hin, hbig, hnone, decide_true, decide_false, if_true, if_false, and_false,
        Bool.false_eq_true]

/-- `wordNo` gives each coefficient a number of its own. -/
theorem wordNo_inj {i c j e : Nat} (hc : c < 256) (he : e < 256) : wordNo i c = wordNo j e ↔ i = j ∧ c = e := by
  simp only [wordNo]; omega

/-- A span is its words one after another. -/
theorem Mem.span_eq (d : Nat) (m : Mem) (a : Nat) :
    Mem.span d m a = (List.range (2 ^ d)).map fun c => Mem.get m (a + c) := by
  induction d generalizing m a with
  | zero => rfl
  | succ d ih =>
    rw [Mem.span, ih, ih, Nat.pow_succ, Nat.mul_two, List.range_add, List.map_append, List.map_map]
    congr 1
    · refine List.map_congr_left fun c hc => ?_
      have h := List.mem_range.mp hc
      rw [Mem.get_filter m (fun k => decide (k < a + 2 ^ d)), if_pos (by simp; omega)]
    · refine List.map_congr_left fun c hc => ?_
      rw [Mem.get_filter m (fun k => decide (a + 2 ^ d ≤ k)), if_pos (by simp [Nat.add_assoc]), Function.comp_apply, Nat.add_assoc]

/-- The words of p[i] in order. -/
theorem Mem.poly_eq (m : Mem) (i : Nat) :
    Mem.poly m i = (List.range 256).map fun c => Mem.get m (wordNo i c) := by
  rw [Mem.poly, Mem.span_eq]; rfl

@[simp] theorem Mem.poly_length (m : Mem) (i : Nat) : (Mem.poly m i).length = 256 := by simp [Mem.poly_eq]

theorem Mem.poly_getD (m : Mem) (i c : Nat) (hc : c < 256) : (Mem.poly m i).getD c .bot = Mem.get m (wordNo i c) := by
  simp [Mem.poly_eq, hc]

/-- Reading a word after a whole polynomial is written with 256 slots. -/
theorem Mem.get_setPoly (m : Mem) (i : Nat) (vs : List Slot) (hv : vs.length = 256) (j c : Nat) (hc : c < 256) :
    Mem.get (Mem.setPoly m i vs) (wordNo j c) = if j = i then vs.getD c .bot else Mem.get m (wordNo j c) := by
  have ht : vs.take 256 = vs := List.take_of_length_le (by omega)
  rw [Mem.setPoly, ht, Mem.get_write, hv]
  by_cases h : j = i
  · subst h
    have e : wordNo j c - wordNo j 0 = c := by simp only [wordNo]; omega
    have hr : wordNo j 0 ≤ wordNo j c ∧ wordNo j c < wordNo j 0 + 256 := by simp only [wordNo]; omega
    rw [if_pos hr, e, if_pos rfl]
  · have hr : ¬ (wordNo i 0 ≤ wordNo j c ∧ wordNo j c < wordNo i 0 + 256) := by simp only [wordNo]; omega
    rw [if_neg hr, if_neg h]

/-- Reading a word after p[i] is made ⊥. -/
theorem Mem.get_clearPoly (m : Mem) (i j c : Nat) (hc : c < 256) :
    Mem.get (Mem.clearPoly m i) (wordNo j c) = if j = i then .bot else Mem.get m (wordNo j c) := by
  rw [Mem.clearPoly, Mem.get_setPoly _ _ _ List.length_replicate _ _ hc, List.getD_eq_getElem?_getD,
    List.getElem?_replicate, if_pos hc]
  rfl

/-! ## The canonical form -/

theorem Mem.risesFrom_iff (o : Option Nat) (m : Mem) :
    Mem.risesFrom o m = true ↔ (∀ j, o = some j → ∀ x ∈ m, j < x.1) ∧ m.Pairwise (fun x y => x.1 < y.1) := by
  induction m generalizing o with
  | nil => cases o <;> simp [Mem.risesFrom]
  | cons x m ih =>
    obtain ⟨k, w⟩ := x
    cases o with
    | none =>
      simp only [Mem.risesFrom, ih, List.pairwise_cons]
      simp
    | some j =>
      simp only [Mem.risesFrom, Bool.and_eq_true, decide_eq_true_eq, ih, List.pairwise_cons]
      constructor
      · rintro ⟨hjk, hall, hp⟩
        refine ⟨fun j' hj' y hy => ?_, fun y hy => hall k rfl y hy, hp⟩
        cases hj'
        rcases List.mem_cons.1 hy with rfl | hy
        · exact hjk
        · have := hall k rfl y hy; omega
      · rintro ⟨hall, hlt, hp⟩
        exact ⟨hall j rfl (k, w) (by simp), fun k' hk' y hy => by cases hk'; exact hlt y hy, hp⟩

/-- The canonical form is: word numbers strictly rising. -/
theorem Mem.wf_iff (m : Mem) : Mem.wf m = true ↔ m.Pairwise (fun x y => x.1 < y.1) := by
  simp [Mem.wf, Mem.risesFrom_iff]

theorem cells_pairwise (lo : Nat) (vs : List Slot) : (cells lo vs).Pairwise (fun x y => x.1 < y.1) := by
  induction vs generalizing lo with
  | nil => simp [cells]
  | cons v vs ih =>
    cases v with
    | bot => exact ih _
    | val w =>
      simp only [cells, List.pairwise_cons]
      exact ⟨fun x hx => by have := cells_bounds x hx; omega, ih _⟩

/-- Every write keeps the canonical form. -/
theorem Mem.wf_write {m : Mem} (h : Mem.wf m = true) (lo : Nat) (vs : List Slot) :
    Mem.wf (Mem.write m lo vs) = true := by
  rw [Mem.wf_iff] at *
  rw [Mem.write, List.pairwise_append, List.pairwise_append]
  refine ⟨⟨h.filter _, cells_pairwise _ _, ?_⟩, h.filter _, ?_⟩
  · intro x hx y hy
    have := cells_bounds y hy
    have := (List.mem_filter.1 hx).2
    simp at this; omega
  · intro x hx y hy
    have hy' := (List.mem_filter.1 hy).2
    simp at hy'
    rcases List.mem_append.1 hx with hx | hx
    · have := (List.mem_filter.1 hx).2
      simp at this; omega
    · have := cells_bounds x hx; omega

theorem Mem.wf_setPoly {m : Mem} (h : Mem.wf m = true) (i : Nat) (vs : List Slot) :
    Mem.wf (Mem.setPoly m i vs) = true := Mem.wf_write h _ _

theorem Mem.wf_clearPoly {m : Mem} (h : Mem.wf m = true) (i : Nat) : Mem.wf (Mem.clearPoly m i) = true :=
  Mem.wf_setPoly h _ _

theorem State.reset_pmem_wf : Mem.wf State.reset.pmem = true := rfl

/-- Where the listed words of a write stand. -/
theorem Mem.mem_write {m : Mem} {lo : Nat} {vs : List Slot} {x : Nat × Word} (h : x ∈ Mem.write m lo vs) :
    x ∈ m ∨ (lo ≤ x.1 ∧ x.1 < lo + vs.length) := by
  rcases List.mem_append.1 h with h | h
  · rcases List.mem_append.1 h with h | h
    · exact Or.inl (List.mem_filter.1 h).1
    · exact Or.inr (cells_bounds x h)
  · exact Or.inl (List.mem_filter.1 h).1

/-- In canonical form, equal readings are equal lists. -/
theorem Mem.ext_of_wf {m n : Mem} (hm : Mem.wf m = true) (hn : Mem.wf n = true)
    (h : ∀ a, Mem.get m a = Mem.get n a) : m = n := by
  rw [Mem.wf_iff] at hm hn
  induction m generalizing n with
  | nil =>
    cases n with
    | nil => rfl
    | cons y n => obtain ⟨k, w⟩ := y; simpa [Mem.get] using h k
  | cons x m ih =>
    obtain ⟨k, w⟩ := x
    cases n with
    | nil => simpa [Mem.get] using h k
    | cons y n =>
      obtain ⟨k', w'⟩ := y
      rw [List.pairwise_cons] at hm hn
      have hb : ∀ {l : Mem} {a : Nat}, (∀ z ∈ l, a < z.1) → Mem.get l a = .bot := fun hl =>
        Mem.get_eq_bot fun z hz e => by have := hl z hz; omega
      have hk : k = k' := by
        rcases Nat.lt_trichotomy k k' with hlt | he | hgt
        · have hg := h k
          have h2 : Mem.get ((k', w') :: n) k = .bot :=
            hb fun z hz => by
              rcases List.mem_cons.1 hz with rfl | hz
              · exact hlt
              · have := hn.1 z hz; simp only at this; omega
          rw [h2] at hg; simp [Mem.get] at hg
        · exact he
        · have hg := h k'
          have h2 : Mem.get ((k, w) :: m) k' = .bot :=
            hb fun z hz => by
              rcases List.mem_cons.1 hz with rfl | hz
              · exact hgt
              · have := hm.1 z hz; simp only at this; omega
          rw [h2] at hg; simp [Mem.get] at hg
      subst hk
      have hw : w = w' := by simpa [Mem.get] using h k
      subst hw
      congr 1
      refine ih hm.2 hn.2 fun a => ?_
      by_cases ha : k = a
      · subst ha
        rw [hb hm.1, hb hn.1]
      · simpa [Mem.get, ha] using h a

/-! ## SREG -/

@[simp] theorem State.s_setS_same (st : State) (i : SReg) (v : Slot) : (st.setS i v).s i = v :=
  Vector.getElem_set_self i.isLt

theorem State.s_setS_other (st : State) (i j : SReg) (v : Slot) (h : j ≠ i) : (st.setS i v).s j = st.s j :=
  Vector.getElem_set_ne i.isLt j.isLt fun e => h (Fin.ext e.symm)

end Sys2Proof.Machine
end

