-- ==== Sys2Proof/Laws/Operands.lean ====
section
/-! SUPPORT. What the typed reads, the element loop and the end of a complete step do, each said once. -/

namespace Sys2Proof.Machine

/-! ## Reads -/

@[simp] theorem look_val (w : Word) (n : Nat) : look (.val w) n = (w, n) := rfl
@[simp] theorem look_bot (n : Nat) : look .bot n = (Config.freeWord n, n + 1) := rfl

@[simp] theorem Fetched.bind_ok {α β : Type} (v : α) (n : Nat) (f : α → Nat → Fetched β) :
    (Fetched.ok v n).bind f = f v n := rfl
@[simp] theorem Fetched.bind_bad {α β : Type} (l : Loc) (n : Nat) (f : α → Nat → Fetched β) :
    (Fetched.bad l n).bind f = .bad l n := rfl

theorem Fetched.bind_eq_ok {α β : Type} {r : Fetched α} {f : α → Nat → Fetched β} {y : β} {n' : Nat} :
    r.bind f = .ok y n' ↔ ∃ x n, r = .ok x n ∧ f x n = .ok y n' := by
  cases r <;> simp

theorem Fetched.bind_eq_bad {α β : Type} {r : Fetched α} {f : α → Nat → Fetched β} {l : Loc} {n' : Nat} :
    r.bind f = .bad l n' ↔ r = .bad l n' ∨ ∃ x n, r = .ok x n ∧ f x n = .bad l n' := by
  cases r <;> simp

theorem readTyped_legal {t : OpType} {v : Slot} {n : Nat} (loc : Loc) (h : t.legal (look v n).1 = true) :
    readTyped t loc v n = .ok (t.value (look v n).1) (look v n).2 := by
  simp [readTyped, h]

theorem readTyped_illegal {t : OpType} {v : Slot} {n : Nat} (loc : Loc) (h : t.legal (look v n).1 = false) :
    readTyped t loc v n = .bad loc (look v n).2 := by
  simp [readTyped, h]

theorem readTyped_bad {t : OpType} {loc l : Loc} {v : Slot} {n n' : Nat} (h : readTyped t loc v n = .bad l n') :
    l = loc := by
  unfold readTyped at h
  dsimp only at h
  split at h <;> simp_all

theorem readS_bad {st : State} {i : SReg} {t : OpType} {n n' : Nat} {l : Loc} (h : readS st i t n = .bad l n') :
    l = ⟨.sreg, i.val, 0⟩ := readTyped_bad h

/-- The integer of a slot that holds a value. -/
def slotValue (t : OpType) : Slot → Int
  | .bot => 0
  | .val w => t.value w

theorem readWords_length {t : OpType} {i : Nat} {vs : List Slot} {c n n' : Nat} {xs : List Int}
    (h : readWords t i vs c n = .ok xs n') : xs.length = vs.length := by
  induction vs generalizing c n xs with
  | nil => simp [readWords] at h; simp [h.1]
  | cons v vs ih =>
    simp only [readWords, Fetched.bind_eq_ok] at h
    obtain ⟨x, n1, -, xs', n2, h2, h3⟩ := h
    cases h3
    simp [ih h2]

theorem readWords_bad {t : OpType} {i : Nat} {vs : List Slot} {c n n' : Nat} {l : Loc}
    (h : readWords t i vs c n = .bad l n') :
    l.file = .pmem ∧ l.reg = i ∧ c ≤ l.coef ∧ l.coef < c + vs.length := by
  induction vs generalizing c n with
  | nil => simp [readWords] at h
  | cons v vs ih =>
    simp only [readWords, Fetched.bind_eq_bad] at h
    rcases h with h | ⟨x, n1, -, h | ⟨xs, n2, -, h⟩⟩
    · cases readTyped_bad h; simp
    · have := ih h; simp only [List.length_cons]; exact ⟨this.1, this.2.1, by omega, by omega⟩
    · cases h

/-- Words that all hold legal values are read as their integers, and no free value is drawn. -/
theorem readWords_legal {t : OpType} {i : Nat} {vs : List Slot} {c n : Nat}
    (h : ∀ v ∈ vs, ∃ w, v = .val w ∧ t.legal w = true) :
    readWords t i vs c n = .ok (vs.map (slotValue t)) n := by
  induction vs generalizing c n with
  | nil => rfl
  | cons v vs ih =>
    obtain ⟨w, rfl, hw⟩ := h v (by simp)
    simp only [readWords]
    rw [readTyped_legal _ (by simpa using hw)]
    simp only [Fetched.bind_ok, look_val]
    rw [ih fun v hv => h v (by simp [hv])]
    rfl

theorem readPoly_length {m : Mem} {i : Nat} {t : OpType} {n n' : Nat} {xs : List Int}
    (h : readPoly m i t n = .ok xs n') : xs.length = 256 := by
  rw [readWords_length h, Mem.poly_length]

theorem readPoly_bad {m : Mem} {i : Nat} {t : OpType} {n n' : Nat} {l : Loc} (h : readPoly m i t n = .bad l n') :
    l.file = .pmem ∧ l.reg = i ∧ l.coef < 256 := by
  have := readWords_bad h
  rw [Mem.poly_length] at this
  exact ⟨this.1, this.2.1, by omega⟩

/-- A polynomial whose words all hold legal values is read as its integers. -/
theorem readPoly_legal {m : Mem} {i : Nat} {t : OpType} {x : Nat → Int} (n : Nat)
    (h : ∀ c, c < 256 → ∃ w, Mem.get m (wordNo i c) = .val w ∧ t.legal w = true ∧ t.value w = x c) :
    readPoly m i t n = .ok ((List.range 256).map x) n := by
  unfold readPoly
  rw [readWords_legal]
  · congr 1
    simp only [Mem.poly_eq, List.map_map]
    apply List.map_congr_left
    intro c hc
    obtain ⟨w, h1, -, h3⟩ := h c (List.mem_range.1 hc)
    simp [h1, slotValue, h3]
  · intro v hv
    simp only [Mem.poly_eq, List.mem_map] at hv
    obtain ⟨c, hc, rfl⟩ := hv
    obtain ⟨w, h1, h2, -⟩ := h c (List.mem_range.1 hc)
    exact ⟨w, h1, h2⟩

/-- Reading stops at the first illegal value (60_exceptions.md R268). -/
theorem readWords_illegal {t : OpType} {i : Nat} {vs : List Slot} {c n k : Nat} (hk : k < vs.length)
    (h1 : ∀ j, j < k → ∃ w, vs.getD j .bot = .val w ∧ t.legal w = true)
    (h2 : ∃ w, vs.getD k .bot = .val w ∧ t.legal w = false) :
    readWords t i vs c n = .bad ⟨.pmem, i, c + k⟩ n := by
  induction vs generalizing c k with
  | nil => simp at hk
  | cons v vs ih =>
    rw [readWords]
    cases k with
    | zero =>
      obtain ⟨w, hw, hl⟩ := h2
      simp at hw; subst hw
      rw [readTyped_illegal _ (by simpa using hl)]; rfl
    | succ k =>
      obtain ⟨w, hw, hl⟩ := h1 0 (by omega)
      simp at hw; subst hw
      rw [readTyped_legal _ (by simpa using hl)]
      simp only [Fetched.bind_ok, look_val]
      rw [ih (k := k) (by simpa using hk) (fun j hj => by simpa using h1 (j + 1) (by omega)) (by simpa using h2)]
      simp; omega

/-- Reading a polynomial ends at its first illegal word. -/
theorem readPoly_illegal {t : OpType} {m : Mem} {r c n : Nat} (hc : c < 256) (h : FirstIllegalWord t m r c) :
    readPoly m r t n = .bad ⟨.pmem, r, c⟩ n := by
  unfold readPoly
  rw [readWords_illegal (k := c) (by simpa using hc)]
  · simp
  · intro j hj
    rw [Mem.poly_getD _ _ _ (by omega)]
    exact h.1 j hj
  · rw [Mem.poly_getD _ _ _ hc]
    exact h.2

@[simp] theorem polyOf_length (xs : List Int) : (polyOf xs).length = xs.length := by simp [polyOf]

theorem polyOf_getD (xs : List Int) (c : Nat) (h : c < xs.length) :
    (polyOf xs).getD c .bot = .val (wordOf (xs.getD c 0)) := by
  simp [polyOf, h]

/-! ## The element loop -/

/-- What every element keeps, the loop keeps. -/
theorem overElements_keeps {α : Type} {body : Nat → α → Nat → Fetched α} {P : α → Prop} {k i : Nat}
    (h : ∀ e x n y n', i ≤ e → e < i + k → P x → body e x n = .ok y n' → P y)
    {x y : α} {n n' : Nat} (hx : P x) (hr : overElements body k i x n = .ok y n') : P y := by
  induction k generalizing i x n with
  | zero => cases hr; exact hx
  | succ k ih =>
    simp only [overElements, Fetched.bind_eq_ok] at hr
    obtain ⟨z, n1, h1, h2⟩ := hr
    exact ih (fun e x n y n' h1 h2 => h e x n y n' (by omega) (by omega))
      (h i x n z n1 (by omega) (by omega) hx h1) h2

/-- The location of the loop's fault is one of an element's. -/
theorem overElements_bad {α : Type} {body : Nat → α → Nat → Fetched α} {Q : Loc → Prop} {k i : Nat}
    (h : ∀ e x n l n', i ≤ e → e < i + k → body e x n = .bad l n' → Q l)
    {x : α} {n n' : Nat} {l : Loc} (hr : overElements body k i x n = .bad l n') : Q l := by
  induction k generalizing i x n with
  | zero => cases hr
  | succ k ih =>
    simp only [overElements, Fetched.bind_eq_bad] at hr
    rcases hr with h1 | ⟨z, n1, -, h2⟩
    · exact h i x n l n' (by omega) (by omega) h1
    · exact ih (fun e x n l n' h1 h2 => h e x n l n' (by omega) (by omega)) h2

/-- When each element takes S e to S (e+1), the loop takes S 0 to S k. -/
theorem overElements_run {α : Type} {body : Nat → α → Nat → Fetched α} (S : Nat → α) (n : Nat) (k i : Nat)
    (h : ∀ e, e < k → body (i + e) (S e) n = .ok (S (e + 1)) n) :
    overElements body k i (S 0) n = .ok (S k) n := by
  induction k generalizing i S with
  | zero => rfl
  | succ k ih =>
    simp only [overElements]
    have h0 := h 0 (by omega)
    rw [Nat.add_zero] at h0
    rw [h0, Fetched.bind_ok]
    exact ih (fun e => S (e + 1)) (i + 1) fun e he => by
      have := h (e + 1) (by omega)
      rwa [show i + (e + 1) = i + 1 + e by omega] at this

/-! ## The end of a complete step -/

@[simp] theorem conclude_ok (i : Instr) (st t : State) (n : Nat) :
    conclude i st (.ok t n) = .next ({ t with draws := n } : State).completed := rfl

@[simp] theorem conclude_bad (i : Instr) (st : State) (l : Loc) (n : Nat) :
    conclude i st (.bad l n) =
      .next (takeFault (encode i) .operandRange (some l) (destsOf i) { st with draws := n }) := rfl

/-- The scalar registers after the destinations are made ⊥. -/
theorem clobber_sreg (ds : List Dest) (st : State) : SregCleared ds st.sreg (clobber ds st).sreg := by
  intro r
  induction ds generalizing st with
  | nil => simp [clobber]
  | cons d ds ih =>
    have h := ih (clobberOne st d)
    have e : clobber (d :: ds) st = clobber ds (clobberOne st d) := rfl
    rw [e, h]
    by_cases hr : Dest.s r ∈ ds
    · simp [hr]
    · cases d with
      | s r' =>
        by_cases hrr : r = r'
        · subst hrr
          have := State.s_setS_same st r .bot
          simp only [State.s, State.setS_sreg] at this
          simp [hr, clobberOne, this]
        · have := State.s_setS_other st r' r .bot hrr
          simp only [State.s, State.setS_sreg] at this
          simp [hr, hrr, clobberOne, this]
      | p r' => simp [hr, clobberOne]

/-- PMEM after the destinations are made ⊥. -/
theorem clobber_pmem (ds : List Dest) (st : State) : PmemCleared ds st.pmem (clobber ds st).pmem := by
  intro i c hc
  induction ds generalizing st with
  | nil => simp [clobber]
  | cons d ds ih =>
    have h := ih (clobberOne st d)
    have e : clobber (d :: ds) st = clobber ds (clobberOne st d) := rfl
    rw [e, h]
    by_cases hr : Dest.p i ∈ ds
    · simp [hr]
    · cases d with
      | s r' => simp [hr, clobberOne]
      | p r' =>
        have hg := Mem.get_clearPoly st.pmem r' i c hc
        by_cases hrr : i = r'
        · subst hrr; simpa [hr, clobberOne] using hg
        · simpa [hr, hrr, clobberOne] using hg

/-- Making destinations ⊥ keeps the canonical form of PMEM. -/
theorem clobber_wf (ds : List Dest) (st : State) (h : Mem.wf st.pmem = true) :
    Mem.wf (clobber ds st).pmem = true := by
  induction ds generalizing st with
  | nil => exact h
  | cons d ds ih =>
    refine ih _ ?_
    cases d with
    | s r => exact h
    | p r => exact Mem.wf_clearPoly h r

/-- Making destinations ⊥ lists no new word. -/
theorem clobber_mem (ds : List Dest) (st : State) (x : Nat × Word) (h : x ∈ (clobber ds st).pmem) : x ∈ st.pmem := by
  induction ds generalizing st with
  | nil => exact h
  | cons d ds ih =>
    have h := ih (clobberOne st d) h
    cases d with
    | s r => exact h
    | p r =>
      simp only [clobberOne, State.setMem_pmem, Mem.clearPoly, Mem.setPoly, Mem.write, List.mem_append] at h
      rcases h with (h | h) | h
      · exact (List.mem_filter.1 h).1
      · exfalso
        have hc : ∀ (k lo : Nat), cells lo (List.replicate k .bot) = [] := by
          intro k
          induction k with
          | zero => intro lo; rfl
          | succ k ih => intro lo; simpa [List.replicate_succ, cells] using ih (lo + 1)
        rw [List.take_replicate, hc] at h
        cases h
      · exact (List.mem_filter.1 h).1

/-- A fault, field by field (R264). -/
theorem takeFault_eq (w : Word) (k : ErrCode) (l : Option Loc) (ds : List Dest) (st : State) :
    takeFault w k l ds st =
      faultedWith st w k (errlocWord l) (clobber ds st).sreg (clobber ds st).pmem st.draws := by
  simp only [takeFault, faultedWith, clobber_cfg, clobber_done, clobber_drop, clobber_doneIe, clobber_errIe,
    clobber_retired, clobber_rstN, clobber_txns, clobber_responses, clobber_sched, clobber_draws]

end Sys2Proof.Machine
end

