-- ==== Sys2Proof/Laws/Exec.lean ====
section
/-! SUPPORT. Everything the complete step of a command can do, said once for all commands: `exec_shape`. A proof about a
command cites it instead of unfolding the command. -/

namespace Sys2Proof.Machine

/-- PMEM `m` comes from `m₀` by writes to polynomial registers in `ds` only. -/
structure MemFrom (ds : List Dest) (m₀ m : Mem) : Prop where
  kept : PmemKept ds m₀ m
  wf : Mem.wf m₀ = true → Mem.wf m = true
  listed : ∀ x ∈ m, x ∈ m₀ ∨ ∃ j c, Dest.p j ∈ ds ∧ c < 256 ∧ x.1 = wordNo j c

theorem MemFrom.refl (ds : List Dest) (m : Mem) : MemFrom ds m m :=
  ⟨fun _ _ _ _ => rfl, id, fun _ h => .inl h⟩

theorem MemFrom.setPoly {ds : List Dest} {m₀ m : Mem} (h : MemFrom ds m₀ m) {i : Nat} (hi : Dest.p i ∈ ds)
    (vs : List Slot) : MemFrom ds m₀ (Mem.setPoly m i vs) where
  kept j c hc hj := by
    have hji : j ≠ i := fun e => hj (e ▸ hi)
    rw [← h.kept j c hc hj, Mem.setPoly, Mem.get_write, if_neg]
    rw [List.length_take]
    simp only [wordNo]
    omega
  wf h₀ := Mem.wf_setPoly (h.wf h₀) _ _
  listed x hx := by
    rcases Mem.mem_write hx with hx | ⟨h1, h2⟩
    · exact h.listed x hx
    · rw [List.length_take] at h2
      simp only [wordNo] at h1 h2
      exact .inr ⟨i, x.1 - 256 * i, hi, by omega, by simp only [wordNo]; omega⟩

theorem mem_vectorDests {r : PReg} {v : VLen} {j : Nat} :
    Dest.p j ∈ vectorDests r v ↔ r.val ≤ j ∧ j < r.val + v.vl := by
  simp only [vectorDests, List.mem_map, List.mem_range, Dest.p.injEq]
  constructor
  · rintro ⟨e, he, rfl⟩; omega
  · rintro ⟨h1, h2⟩; exact ⟨j - r.val, by omega, by omega⟩

/-- A failing word is a scalar source or a word of a polynomial source of the command (R14, R265). -/
def BadLoc (i : Instr) (l : Loc) : Prop :=
  l.file = .sreg ∧ l.coef = 0 ∧ (∃ x ∈ scalarSources i, l.reg = x.1.val) ∨
    l.file = .pmem ∧ l.coef < 256 ∧ ∃ x ∈ vectorSources i, x.1.val ≤ l.reg ∧ l.reg < x.1.val + x.2

/-- A polynomial source is a polynomial field of the command, so it lies inside NPOLY when the command is legal. -/
theorem vectorSources_vectors {i : Instr} : ∀ x ∈ vectorSources i, x ∈ i.vectors := by
  cases i <;> simp [vectorSources, Instr.vectors]

/-- What reading the operands and computing the result of a command can give. -/
structure Shape (i : Instr) (s : State) (r : Fetched State) : Prop where
  /-- Without a fault only registers and PMEM change, and of them only the destinations. -/
  ok : ∀ t n, r = .ok t n →
    t = { s with sreg := t.sreg, pmem := t.pmem } ∧ SregKept (destsOf i) s.sreg t.sreg ∧
      MemFrom (destsOf i) s.pmem t.pmem
  bad : ∀ l n, r = .bad l n → BadLoc i l

theorem sregKept_writeS (ds : List Dest) (s : State) (d : SReg) (v : Int) (hd : Dest.s d ∈ ds) :
    SregKept ds s.sreg (s.writeS d v).sreg := fun r hr =>
  State.s_setS_other s d r _ fun e => hr (e ▸ hd)

theorem readS_bad_loc {i : Instr} {s : State} {a : SReg} {t : OpType} {n n' : Nat} {l : Loc}
    (ha : (a, t) ∈ scalarSources i) (h : readS s a t n = .bad l n') : BadLoc i l := by
  cases readS_bad h
  exact .inl ⟨rfl, rfl, _, ha, rfl⟩

theorem scalarUnary_shape (i : Instr) (t : OpType) (f : Int → Int) (d a : SReg) (s : State) (hd : Dest.s d ∈ destsOf i)
    (ha : (a, t) ∈ scalarSources i) :
    ∃ r, scalarUnary i t f d a s = .next (finish i s r) ∧ Shape i s r := by
  refine ⟨_, rfl, ?_, ?_⟩
  · intro t' n h
    obtain ⟨x, n1, -, h2⟩ := Fetched.bind_eq_ok.1 h
    cases h2
    exact ⟨rfl, sregKept_writeS _ _ _ _ hd, MemFrom.refl _ _⟩
  · intro l n h
    rcases Fetched.bind_eq_bad.1 h with h | ⟨_, _, _, h⟩
    · exact readS_bad_loc ha h
    · cases h

theorem scalarBinary_shape (i : Instr) (t u : OpType) (f : Int → Int → Int) (d a b : SReg) (s : State)
    (hd : Dest.s d ∈ destsOf i) (ha : (a, t) ∈ scalarSources i) (hb : (b, u) ∈ scalarSources i) :
    ∃ r, scalarBinary i t u f d a b s = .next (finish i s r) ∧ Shape i s r := by
  refine ⟨_, rfl, ?_, ?_⟩
  · intro t' n h
    obtain ⟨x, n1, -, h2⟩ := Fetched.bind_eq_ok.1 h
    obtain ⟨y, n2, -, h3⟩ := Fetched.bind_eq_ok.1 h2
    cases h3
    exact ⟨rfl, sregKept_writeS _ _ _ _ hd, MemFrom.refl _ _⟩
  · intro l n h
    rcases Fetched.bind_eq_bad.1 h with h | ⟨_, _, _, h⟩
    · exact readS_bad_loc ha h
    · rcases Fetched.bind_eq_bad.1 h with h | ⟨_, _, _, h⟩
      · exact readS_bad_loc hb h
      · cases h

theorem scalarPair_shape (i : Instr) (t : OpType) (f : Int → Int × Int) (d a b : SReg) (s : State)
    (hd : Dest.s d ∈ destsOf i) (hb : Dest.s b ∈ destsOf i) (ha : (a, t) ∈ scalarSources i) :
    ∃ r, scalarPair i t f d a b s = .next (finish i s r) ∧ Shape i s r := by
  refine ⟨_, rfl, ?_, ?_⟩
  · intro t' n h
    obtain ⟨x, n1, -, h2⟩ := Fetched.bind_eq_ok.1 h
    cases h2
    refine ⟨rfl, fun r hr => ?_, MemFrom.refl _ _⟩
    exact (sregKept_writeS _ (s.writeS d (f x).1) b (f x).2 hb r hr).trans (sregKept_writeS _ s d (f x).1 hd r hr)
  · intro l n h
    rcases Fetched.bind_eq_bad.1 h with h | ⟨_, _, _, h⟩
    · exact readS_bad_loc ha h
    · cases h

theorem scalarConst_shape (i : Instr) (v : Int) (d : SReg) (s : State) (hd : Dest.s d ∈ destsOf i) :
    ∃ r, scalarConst i v d s = .next (finish i s r) ∧ Shape i s r := by
  refine ⟨_, rfl, ?_, ?_⟩
  · intro t' n h
    cases h
    exact ⟨rfl, sregKept_writeS _ _ _ _ hd, MemFrom.refl _ _⟩
  · intro l n h
    cases h

/-- A failing word of element e of a polynomial source of the command. -/
theorem readPoly_bad_loc {i : Instr} {m : Mem} {r : PReg} {k e : Nat} {t : OpType} {n n' : Nat} {l : Loc}
    (hr : (r, k) ∈ vectorSources i) (he : e < k) (h : readPoly m (r.val + e) t n = .bad l n') :
    BadLoc i l := by
  obtain ⟨h1, h2, h3⟩ := readPoly_bad h
  exact .inr ⟨h1, h3, (r, k), hr, by simp only; omega, by simp only; omega⟩

theorem readOperandB_bad_loc {i : Instr} {m : Mem} {b : PReg} {v : VLen} {c : Bcast} {e : Nat} {t : OpType}
    {n n' : Nat} {l : Loc} (hr : (b, c.span v) ∈ vectorSources i) (he : e < v.vl)
    (h : readPoly m (operandB c b.val e) t n = .bad l n') :
    BadLoc i l := by
  cases c with
  | each => exact readPoly_bad_loc hr he h
  | one => exact readPoly_bad_loc (e := 0) hr Nat.one_pos h

theorem polyUnary_shape (i : Instr) (t : OpType) (f : List Int → List Int) (d a : PReg) (v : VLen) (s : State)
    (hd : destsOf i = vectorDests d v) (ha : (a, v.vl) ∈ vectorSources i) :
    ∃ r, polyUnary i t f d a v s = .next (finish i s r) ∧ Shape i s r := by
  refine ⟨_, rfl, ?_, ?_⟩
  · intro t' n h
    obtain ⟨m, n1, h1, h2⟩ := Fetched.bind_eq_ok.1 h
    cases h2
    refine ⟨rfl, fun _ _ => rfl, ?_⟩
    refine overElements_keeps (P := MemFrom (destsOf i) s.pmem) ?_ (MemFrom.refl _ _) h1
    intro e x n y n' _ he hx hb
    obtain ⟨xs, n2, -, h3⟩ := Fetched.bind_eq_ok.1 hb
    cases h3
    exact hx.setPoly (by rw [hd, mem_vectorDests]; omega) _
  · intro l n h
    rcases Fetched.bind_eq_bad.1 h with h | ⟨_, _, _, h⟩
    · refine overElements_bad (Q := BadLoc _) ?_ h
      intro e x n l n' _ he hb
      rcases Fetched.bind_eq_bad.1 hb with hb | ⟨_, _, _, hb⟩
      · exact readPoly_bad_loc ha (by omega : e < v.vl) hb
      · cases hb
    · cases h

theorem polyBinary_shape (i : Instr) (t u : OpType) (f : Int → Int → Int) (d a b : PReg) (v : VLen) (c : Bcast)
    (s : State) (hd : destsOf i = vectorDests d v) (ha : (a, v.vl) ∈ vectorSources i) (hb : (b, c.span v) ∈ vectorSources i) :
    ∃ r, polyBinary i t u f d a b v c s = .next (finish i s r) ∧ Shape i s r := by
  refine ⟨_, rfl, ?_, ?_⟩
  · intro t' n h
    obtain ⟨m, n1, h1, h2⟩ := Fetched.bind_eq_ok.1 h
    cases h2
    refine ⟨rfl, fun _ _ => rfl, ?_⟩
    refine overElements_keeps (P := MemFrom (destsOf i) s.pmem) ?_ (MemFrom.refl _ _) h1
    intro e x n y n' _ he hx hbody
    obtain ⟨xs, n2, -, h3⟩ := Fetched.bind_eq_ok.1 hbody
    obtain ⟨ys, n3, -, h4⟩ := Fetched.bind_eq_ok.1 h3
    cases h4
    exact hx.setPoly (by rw [hd, mem_vectorDests]; omega) _
  · intro l n h
    rcases Fetched.bind_eq_bad.1 h with h | ⟨_, _, _, h⟩
    · refine overElements_bad (Q := BadLoc _) ?_ h
      intro e x n l n' _ he hbody
      rcases Fetched.bind_eq_bad.1 hbody with hbody | ⟨_, _, _, hbody⟩
      · exact readPoly_bad_loc ha (by omega : e < v.vl) hbody
      · rcases Fetched.bind_eq_bad.1 hbody with hbody | ⟨_, _, _, hbody⟩
        · exact readOperandB_bad_loc hb (by omega) hbody
        · cases hbody
    · cases h

theorem polyPair_shape (i : Instr) (t : OpType) (f : Int → Int × Int) (d a b : PReg) (v : VLen) (s : State)
    (hd : destsOf i = vectorDests d v ++ vectorDests b v) (ha : (a, v.vl) ∈ vectorSources i) :
    ∃ r, polyPair i t f d a b v s = .next (finish i s r) ∧ Shape i s r := by
  refine ⟨_, rfl, ?_, ?_⟩
  · intro t' n h
    obtain ⟨m, n1, h1, h2⟩ := Fetched.bind_eq_ok.1 h
    cases h2
    refine ⟨rfl, fun _ _ => rfl, ?_⟩
    refine overElements_keeps (P := MemFrom (destsOf i) s.pmem) ?_ (MemFrom.refl _ _) h1
    intro e x n y n' _ he hx hbody
    obtain ⟨xs, n2, -, h3⟩ := Fetched.bind_eq_ok.1 hbody
    cases h3
    refine (hx.setPoly (i := d.val + e) ?_ _).setPoly (i := b.val + e) ?_ _
    · rw [hd, List.mem_append, mem_vectorDests]; exact .inl (by omega)
    · rw [hd, List.mem_append, mem_vectorDests (r := b)]; exact .inr (by omega)
  · intro l n h
    rcases Fetched.bind_eq_bad.1 h with h | ⟨_, _, _, h⟩
    · refine overElements_bad (Q := BadLoc _) ?_ h
      intro e x n l n' _ he hbody
      rcases Fetched.bind_eq_bad.1 hbody with hbody | ⟨_, _, _, hbody⟩
      · exact readPoly_bad_loc ha (by omega : e < v.vl) hbody
      · cases hbody
    · cases h

theorem polyReduce_shape (i : Instr) (t : OpType) (g : Int → Int → Int) (d : SReg) (a : PReg) (v : VLen) (s : State)
    (hd : Dest.s d ∈ destsOf i) (ha : (a, v.vl) ∈ vectorSources i) :
    ∃ r, polyReduce i t g d a v s = .next (finish i s r) ∧ Shape i s r := by
  refine ⟨_, rfl, ?_, ?_⟩
  · intro t' n h
    obtain ⟨m, n1, -, h2⟩ := Fetched.bind_eq_ok.1 h
    cases h2
    exact ⟨rfl, sregKept_writeS _ _ _ _ hd, MemFrom.refl _ _⟩
  · intro l n h
    rcases Fetched.bind_eq_bad.1 h with h | ⟨_, _, _, h⟩
    · refine overElements_bad (Q := BadLoc _) ?_ h
      intro e x n l n' _ he hbody
      rcases Fetched.bind_eq_bad.1 hbody with hbody | ⟨_, _, _, hbody⟩
      · exact readPoly_bad_loc ha (by omega : e < v.vl) hbody
      · cases hbody
    · cases h

theorem execPsmul_shape (d a : PReg) (b : SReg) (v : VLen) (s : State) :
    ∃ r, execPsmul d a b v s = .next (finish (.psmul d a b v) s r) ∧ Shape (.psmul d a b v) s r := by
  refine ⟨_, rfl, ?_, ?_⟩
  · intro t' n h
    obtain ⟨k, n0, -, h⟩ := Fetched.bind_eq_ok.1 h
    obtain ⟨m, n1, h1, h2⟩ := Fetched.bind_eq_ok.1 h
    cases h2
    refine ⟨rfl, fun _ _ => rfl, ?_⟩
    refine overElements_keeps (P := MemFrom _ s.pmem) ?_ (MemFrom.refl _ _) h1
    intro e x n y n' _ he hx hb
    obtain ⟨xs, n2, -, h3⟩ := Fetched.bind_eq_ok.1 hb
    cases h3
    exact hx.setPoly (by rw [destsOf, mem_vectorDests]; omega) _
  · intro l n h
    rcases Fetched.bind_eq_bad.1 h with h | ⟨_, _, _, h⟩
    · exact readS_bad_loc (a := b) (by simp [scalarSources]) h
    · rcases Fetched.bind_eq_bad.1 h with h | ⟨_, _, _, h⟩
      · refine overElements_bad (Q := BadLoc _) ?_ h
        intro e x n l n' _ he hb
        rcases Fetched.bind_eq_bad.1 hb with hb | ⟨_, _, _, hb⟩
        · exact readPoly_bad_loc (r := a) (k := v.vl) (by simp [vectorSources]) (by omega) hb
        · cases hb
      · cases h

theorem execPdot_shape (d a b : PReg) (v : VLen) (c : Bcast) (s : State) :
    ∃ r, execPdot d a b v c s = .next (finish (.pdot d a b v c) s r) ∧ Shape (.pdot d a b v c) s r := by
  refine ⟨_, rfl, ?_, ?_⟩
  · intro t' n h
    obtain ⟨m, n1, -, h2⟩ := Fetched.bind_eq_ok.1 h
    cases h2
    exact ⟨rfl, fun _ _ => rfl, (MemFrom.refl _ _).setPoly (by simp [destsOf]) _⟩
  · intro l n h
    rcases Fetched.bind_eq_bad.1 h with h | ⟨_, _, _, h⟩
    · refine overElements_bad (Q := BadLoc _) ?_ h
      intro e x n l n' _ he hbody
      rcases Fetched.bind_eq_bad.1 hbody with hbody | ⟨_, _, _, hbody⟩
      · exact readPoly_bad_loc (r := a) (k := v.vl) (by simp [vectorSources]) (by omega) hbody
      · rcases Fetched.bind_eq_bad.1 hbody with hbody | ⟨_, _, _, hbody⟩
        · exact readOperandB_bad_loc (b := b) (v := v) (c := c) (by simp [vectorSources]) (by omega) hbody
        · cases hbody
    · cases h

theorem execNop_shape (s : State) : ∃ r, execNop s = .next (finish .nop s r) ∧ Shape .nop s r := by
  refine ⟨_, rfl, ?_, ?_⟩
  · intro t n h; cases h; exact ⟨rfl, fun _ _ => rfl, MemFrom.refl _ _⟩
  · intro l n h; cases h

/-- EVERYTHING A COMMAND CAN DO: its complete step is a next state, the end (`finish`) of a result of this shape. -/
theorem exec_shape (i : Instr) (s : State) : ∃ r, exec i s = .next (finish i s r) ∧ Shape i s r := by
  cases i
  case nop => exact execNop_shape s
  case psmul d a b v => exact execPsmul_shape d a b v s
  case pdot d a b v c => exact execPdot_shape d a b v c s
  case add => exact scalarBinary_shape _ _ _ _ _ _ _ _ (by simp [destsOf]) (by simp [scalarSources]) (by simp [scalarSources])
  case sub => exact scalarBinary_shape _ _ _ _ _ _ _ _ (by simp [destsOf]) (by simp [scalarSources]) (by simp [scalarSources])
  case neg => exact scalarUnary_shape _ _ _ _ _ _ (by simp [destsOf]) (by simp [scalarSources])
  case mul => exact scalarBinary_shape _ _ _ _ _ _ _ _ (by simp [destsOf]) (by simp [scalarSources]) (by simp [scalarSources])
  case red => exact scalarUnary_shape _ _ _ _ _ _ (by simp [destsOf]) (by simp [scalarSources])
  case tosym => exact scalarUnary_shape _ _ _ _ _ _ (by simp [destsOf]) (by simp [scalarSources])
  case fromsym => exact scalarUnary_shape _ _ _ _ _ _ (by simp [destsOf]) (by simp [scalarSources])
  case norm => exact scalarUnary_shape _ _ _ _ _ _ (by simp [destsOf]) (by simp [scalarSources])
  case mov => exact scalarUnary_shape _ _ _ _ _ _ (by simp [destsOf]) (by simp [scalarSources])
  case li => exact scalarConst_shape _ _ _ _ (by simp [destsOf])
  case zeta => exact scalarConst_shape _ _ _ _ (by simp [destsOf])
  case p2r => exact scalarPair_shape _ _ _ _ _ _ _ (by simp [destsOf]) (by simp [destsOf]) (by simp [scalarSources])
  case decomp => exact scalarPair_shape _ _ _ _ _ _ _ (by simp [destsOf]) (by simp [destsOf]) (by simp [scalarSources])
  case high => exact scalarUnary_shape _ _ _ _ _ _ (by simp [destsOf]) (by simp [scalarSources])
  case low => exact scalarUnary_shape _ _ _ _ _ _ (by simp [destsOf]) (by simp [scalarSources])
  case mkhint => exact scalarBinary_shape _ _ _ _ _ _ _ _ (by simp [destsOf]) (by simp [scalarSources]) (by simp [scalarSources])
  case usehint => exact scalarBinary_shape _ _ _ _ _ _ _ _ (by simp [destsOf]) (by simp [scalarSources]) (by simp [scalarSources])
  case padd => exact polyBinary_shape _ _ _ _ _ _ _ _ _ _ rfl (by simp [vectorSources]) (by simp [vectorSources])
  case psub => exact polyBinary_shape _ _ _ _ _ _ _ _ _ _ rfl (by simp [vectorSources]) (by simp [vectorSources])
  case pneg => exact polyUnary_shape _ _ _ _ _ _ _ rfl (by simp [vectorSources])
  case pmov => exact polyUnary_shape _ _ _ _ _ _ _ rfl (by simp [vectorSources])
  case ptosym => exact polyUnary_shape _ _ _ _ _ _ _ rfl (by simp [vectorSources])
  case pfromsym => exact polyUnary_shape _ _ _ _ _ _ _ rfl (by simp [vectorSources])
  case pred => exact polyUnary_shape _ _ _ _ _ _ _ rfl (by simp [vectorSources])
  case pnorm => exact polyReduce_shape _ _ _ _ _ _ _ (by simp [destsOf]) (by simp [vectorSources])
  case pnormz => exact polyReduce_shape _ _ _ _ _ _ _ (by simp [destsOf]) (by simp [vectorSources])
  case ntt => exact polyUnary_shape _ _ _ _ _ _ _ rfl (by simp [vectorSources])
  case intt => exact polyUnary_shape _ _ _ _ _ _ _ rfl (by simp [vectorSources])
  case pmul => exact polyBinary_shape _ _ _ _ _ _ _ _ _ _ rfl (by simp [vectorSources]) (by simp [vectorSources])
  case pp2r => exact polyPair_shape _ _ _ _ _ _ _ _ rfl (by simp [vectorSources])
  case pdecomp => exact polyPair_shape _ _ _ _ _ _ _ _ rfl (by simp [vectorSources])
  case phigh => exact polyUnary_shape _ _ _ _ _ _ _ rfl (by simp [vectorSources])
  case plow => exact polyUnary_shape _ _ _ _ _ _ _ rfl (by simp [vectorSources])
  case pmkhint => exact polyBinary_shape _ _ _ _ _ _ _ _ _ _ rfl (by simp [vectorSources]) (by simp [vectorSources])
  case pusehint => exact polyBinary_shape _ _ _ _ _ _ _ _ _ _ rfl (by simp [vectorSources]) (by simp [vectorSources])
  case pwgt => exact polyReduce_shape _ _ _ _ _ _ _ (by simp [destsOf]) (by simp [vectorSources])

/-- A complete step that succeeds, field by field (R263). -/
theorem finish_ok {i : Instr} {s t : State} {n : Nat} {r : Fetched State} (h : Shape i s r) (hr : r = .ok t n) :
    finish i s r = retiredWith s t.sreg t.pmem n := by
  have e := (h.ok t n hr).1
  subst hr
  rw [e]
  rfl

/-- A complete step that faults, field by field (R264). -/
theorem finish_bad {i : Instr} {s : State} {l : Loc} {n : Nat} :
    finish i s (.bad l n) =
      faultedWith s (encode i) .operandRange (errlocWord (some l)) (clobber (destsOf i) s).sreg
        (clobber (destsOf i) s).pmem n := by
  have hs : ∀ (ds : List Dest) (st : State),
      (clobber ds { st with draws := n }).sreg = (clobber ds st).sreg ∧
        (clobber ds { st with draws := n }).pmem = (clobber ds st).pmem := by
    intro ds
    induction ds with
    | nil => intro st; exact ⟨rfl, rfl⟩
    | cons d ds ih =>
      intro st
      cases d with
      | s r => exact ih (st.setS r .bot)
      | p r => exact ih (st.setMem (Mem.clearPoly st.pmem r))
  simp only [finish, takeFault_eq, hs]
  rfl

end Sys2Proof.Machine
end

