-- ==== Sys2Proof/Laws/PerInstr.lean ====
section
/-! SUPPORT. Facts about each command as syntax, one lemma per constructor. Family InRange: a well-formed command names
registers the unit has, as destinations and as vectors (spec/30_encoding.md R112.3). -/

namespace Sys2Proof.Laws.InRange

open Sys2Proof.Machine

/-- On a unit where the command is legal, every polynomial destination and every register of every vector field lies
inside the NPOLY polynomial registers (R112.3). -/
def Statement (i : Instr) : Prop :=
  ∀ np : NPoly, i.wf np = true →
    (∀ r, Dest.p r ∈ destsOf i → r < np.count) ∧ ∀ x ∈ i.vectors, x.1.val + x.2 ≤ np.count

/-- The vectors of a well-formed command lie inside the unit. -/
theorem vectors_fit {np : NPoly} {i : Instr} (h : i.wf np = true) : ∀ x ∈ i.vectors, x.1.val + x.2 ≤ np.count := by
  rw [← operandReject_eq_none] at h
  unfold operandReject at h
  split at h
  · rename_i hv
    simpa using hv
  · cases h

/-- A command whose polynomial destinations are among its vectors. -/
theorem of_vectors {i : Instr}
    (hd : ∀ r, Dest.p r ∈ destsOf i → ∃ x ∈ i.vectors, x.1.val ≤ r ∧ r < x.1.val + x.2) : Statement i := by
  intro np h
  refine ⟨fun r hr => ?_, vectors_fit h⟩
  obtain ⟨x, hx, -, h2⟩ := hd r hr
  have := vectors_fit h x hx
  omega

/-- A command that names no polynomial destination. -/
theorem of_none {i : Instr} (hd : ∀ r, Dest.p r ∉ destsOf i) : Statement i :=
  of_vectors fun r hr => absurd hr (hd r)

theorem nop : Statement .nop :=
  of_none (by simp [destsOf])

theorem add (d a b : SReg) : Statement (.add d a b) :=
  of_none (by simp [destsOf])

theorem sub (d a b : SReg) : Statement (.sub d a b) :=
  of_none (by simp [destsOf])

theorem neg (d a : SReg) : Statement (.neg d a) :=
  of_none (by simp [destsOf])

theorem mul (d a b : SReg) : Statement (.mul d a b) :=
  of_none (by simp [destsOf])

theorem red (d a : SReg) : Statement (.red d a) :=
  of_none (by simp [destsOf])

theorem tosym (d a : SReg) : Statement (.tosym d a) :=
  of_none (by simp [destsOf])

theorem fromsym (d a : SReg) : Statement (.fromsym d a) :=
  of_none (by simp [destsOf])

theorem norm (d a : SReg) : Statement (.norm d a) :=
  of_none (by simp [destsOf])

theorem mov (d a : SReg) : Statement (.mov d a) :=
  of_none (by simp [destsOf])

theorem li (d : SReg) (imm : BitVec 20) : Statement (.li d imm) :=
  of_none (by simp [destsOf])

theorem zeta (d : SReg) (k : Fin 256) : Statement (.zeta d k) :=
  of_none (by simp [destsOf])

theorem p2r (d a b : SReg) : Statement (.p2r d a b) :=
  of_none (by simp [destsOf])

theorem decomp (d a b : SReg) (g : Gamma) : Statement (.decomp d a b g) :=
  of_none (by simp [destsOf])

theorem high (d a : SReg) (g : Gamma) : Statement (.high d a g) :=
  of_none (by simp [destsOf])

theorem low (d a : SReg) (g : Gamma) : Statement (.low d a g) :=
  of_none (by simp [destsOf])

theorem mkhint (d a b : SReg) (g : Gamma) : Statement (.mkhint d a b g) :=
  of_none (by simp [destsOf])

theorem usehint (d a b : SReg) (g : Gamma) : Statement (.usehint d a b g) :=
  of_none (by simp [destsOf])

theorem padd (d a b : PReg) (v : VLen) (c : Bcast) : Statement (.padd d a b v c) :=
  of_vectors fun r hr => ⟨(d, v.vl), by simp [Instr.vectors], mem_vectorDests.1 hr⟩

theorem psub (d a b : PReg) (v : VLen) (c : Bcast) : Statement (.psub d a b v c) :=
  of_vectors fun r hr => ⟨(d, v.vl), by simp [Instr.vectors], mem_vectorDests.1 hr⟩

theorem pneg (d a : PReg) (v : VLen) : Statement (.pneg d a v) :=
  of_vectors fun r hr => ⟨(d, v.vl), by simp [Instr.vectors], mem_vectorDests.1 hr⟩

theorem psmul (d a : PReg) (b : SReg) (v : VLen) : Statement (.psmul d a b v) :=
  of_vectors fun r hr => ⟨(d, v.vl), by simp [Instr.vectors], mem_vectorDests.1 hr⟩

theorem pmov (d a : PReg) (v : VLen) : Statement (.pmov d a v) :=
  of_vectors fun r hr => ⟨(d, v.vl), by simp [Instr.vectors], mem_vectorDests.1 hr⟩

theorem ptosym (d a : PReg) (v : VLen) : Statement (.ptosym d a v) :=
  of_vectors fun r hr => ⟨(d, v.vl), by simp [Instr.vectors], mem_vectorDests.1 hr⟩

theorem pfromsym (d a : PReg) (v : VLen) : Statement (.pfromsym d a v) :=
  of_vectors fun r hr => ⟨(d, v.vl), by simp [Instr.vectors], mem_vectorDests.1 hr⟩

theorem pred (d a : PReg) (v : VLen) : Statement (.pred d a v) :=
  of_vectors fun r hr => ⟨(d, v.vl), by simp [Instr.vectors], mem_vectorDests.1 hr⟩

theorem pnorm (d : SReg) (a : PReg) (v : VLen) : Statement (.pnorm d a v) :=
  of_none (by simp [destsOf])

theorem pnormz (d : SReg) (a : PReg) (v : VLen) : Statement (.pnormz d a v) :=
  of_none (by simp [destsOf])

theorem ntt (d a : PReg) (v : VLen) : Statement (.ntt d a v) :=
  of_vectors fun r hr => ⟨(d, v.vl), by simp [Instr.vectors], mem_vectorDests.1 hr⟩

theorem intt (d a : PReg) (v : VLen) : Statement (.intt d a v) :=
  of_vectors fun r hr => ⟨(d, v.vl), by simp [Instr.vectors], mem_vectorDests.1 hr⟩

theorem pmul (d a b : PReg) (v : VLen) (c : Bcast) : Statement (.pmul d a b v c) :=
  of_vectors fun r hr => ⟨(d, v.vl), by simp [Instr.vectors], mem_vectorDests.1 hr⟩

theorem pdot (d a b : PReg) (v : VLen) (c : Bcast) : Statement (.pdot d a b v c) :=
  of_vectors fun r hr => ⟨(d, 1), by simp [Instr.vectors], by simp [destsOf] at hr; simp [hr]⟩

theorem pp2r (d a b : PReg) (v : VLen) : Statement (.pp2r d a b v) :=
  of_vectors fun r hr => by
    rcases List.mem_append.1 hr with h | h
    · exact ⟨(d, v.vl), by simp [Instr.vectors], mem_vectorDests.1 h⟩
    · exact ⟨(b, v.vl), by simp [Instr.vectors], mem_vectorDests.1 h⟩

theorem pdecomp (d a b : PReg) (v : VLen) (g : Gamma) : Statement (.pdecomp d a b v g) :=
  of_vectors fun r hr => by
    rcases List.mem_append.1 hr with h | h
    · exact ⟨(d, v.vl), by simp [Instr.vectors], mem_vectorDests.1 h⟩
    · exact ⟨(b, v.vl), by simp [Instr.vectors], mem_vectorDests.1 h⟩

theorem phigh (d a : PReg) (v : VLen) (g : Gamma) : Statement (.phigh d a v g) :=
  of_vectors fun r hr => ⟨(d, v.vl), by simp [Instr.vectors], mem_vectorDests.1 hr⟩

theorem plow (d a : PReg) (v : VLen) (g : Gamma) : Statement (.plow d a v g) :=
  of_vectors fun r hr => ⟨(d, v.vl), by simp [Instr.vectors], mem_vectorDests.1 hr⟩

theorem pmkhint (d a b : PReg) (v : VLen) (c : Bcast) (g : Gamma) : Statement (.pmkhint d a b v c g) :=
  of_vectors fun r hr => ⟨(d, v.vl), by simp [Instr.vectors], mem_vectorDests.1 hr⟩

theorem pusehint (d a b : PReg) (v : VLen) (c : Bcast) (g : Gamma) : Statement (.pusehint d a b v c g) :=
  of_vectors fun r hr => ⟨(d, v.vl), by simp [Instr.vectors], mem_vectorDests.1 hr⟩

theorem pwgt (d : SReg) (a : PReg) (v : VLen) : Statement (.pwgt d a v) :=
  of_none (by simp [destsOf])

end Sys2Proof.Laws.InRange
end

