-- ==== Sys2Proof/Laws/Step.lean ====
section
/-! SUPPORT. What one step is, by whose move it is: the engine's, the host's (a read, a write), or the reset input's. -/

namespace Sys2Proof.Machine

theorem passed_eq {s : State} (h : s.sched = []) : passed s = s := by
  cases s
  simp only at h
  subst h
  rfl

theorem nextTurn_cons {s : State} {t : Turn} {ts : List Turn} (h : s.sched = t :: ts) : nextTurn s = t := by
  rw [nextTurn, h]

/-- The engine's step. -/
theorem step_engine {s : State} (h : nextTurn s = .engine) : step s = engineTurn (passed s) := by
  rcases hs : s.sched with _ | ⟨t, ts⟩
  · rw [passed_eq hs]
    simp only [nextTurn, hs] at h
    simp only [step, move, hs]
    split at h
    · rename_i hc; simp [hc]
    · cases h
  · rw [nextTurn_cons hs] at h
    subst h
    simp only [step, move, passed, hs]
    rfl

/-- The host's step. -/
theorem step_host {s : State} (h : nextTurn s = .host) : step s = hostTurn (passed s) := by
  rcases hs : s.sched with _ | ⟨t, ts⟩
  · rw [passed_eq hs]
    simp only [nextTurn, hs] at h
    simp only [step, move, hs]
    split at h
    · cases h
    · rename_i hc; simp [hc]
  · rw [nextTurn_cons hs] at h
    subst h
    simp only [step, move, passed, hs]
    rfl

/-- A change of the reset input. -/
theorem step_pin {s : State} {level : Bool} (h : nextTurn s = .resetPin level) :
    step s = .next (hardReset level (passed s)) := by
  rcases hs : s.sched with _ | ⟨t, ts⟩
  · simp only [nextTurn, hs] at h
    split at h <;> cases h
  · rw [nextTurn_cons hs] at h
    subst h
    simp only [step, move, passed, hs]
    rfl

/-- The end of the host's step: the transaction is held, or it completes. -/
def hostAnswer (s : State) (rest : List BusReq) : Handshake → State
  | .held => passed s
  | .completes r st => { st with txns := rest, responses := r :: st.responses }

/-- The host's step performs the outstanding transaction. -/
theorem step_transact {s : State} {t : BusReq} {rest : List BusReq} (h : nextTurn s = .host) (hr : s.rstN = true)
    (ht : s.txns = t :: rest) : step s = .next (hostAnswer s rest (transact t (passed s))) := by
  rw [step_host h]
  have e1 : (passed s).txns = t :: rest := ht
  have e2 : (passed s).rstN = true := hr
  simp only [hostTurn, e1, e2, if_true]
  cases transact t (passed s) <;> rfl

theorem transact_read {t : BusReq} {a : Nat} (hw : t.write = false) (ha : t.addr = BitVec.ofNat 17 a)
    (h4 : a % 4 = 0) (s : State) :
    transact t s = busRead (targetOf s.cfg.npoly (BitVec.ofNat 17 a)) s := by
  have hb : badAccess t = false := by
    simp only [badAccess, hw, ha, bits, BitVec.toNat_ofNat, Bool.false_and, Bool.or_false, decide_eq_false_iff_not]
    omega
  simp only [transact, hb, hw, ha]
  rfl

theorem transact_write {t : BusReq} {a : Nat} (hw : t.write = true) (ha : t.addr = BitVec.ofNat 17 a)
    (hs : t.wstrb = 0b1111#4) (h4 : a % 4 = 0) (s : State) :
    transact t s = busWrite (targetOf s.cfg.npoly (BitVec.ofNat 17 a)) t.wdata s := by
  have hb : badAccess t = false := by
    simp only [badAccess, hw, ha, hs, bits, BitVec.toNat_ofNat, Bool.true_and, Bool.or_eq_false_iff,
      decide_eq_false_iff_not]
    exact ⟨by omega, by simp⟩
  simp only [transact, hb, hw, ha]
  rfl

/-- A step that reads a word address. -/
theorem step_read {s : State} {a : Nat} {rest : List BusReq} (h : HostReads s a rest) (h4 : a % 4 = 0) :
    step s = .next (hostAnswer s rest (busRead (targetOf s.cfg.npoly (BitVec.ofNat 17 a)) (passed s))) := by
  obtain ⟨h1, h2, t, h3, hw, ha⟩ := h
  rw [step_transact h2 h1 h3, transact_read hw ha h4]
  rfl

/-- A step that writes a whole word to a word address. -/
theorem step_write {s : State} {a : Nat} {w : Word} {rest : List BusReq} (h : HostWrites s a w rest) (h4 : a % 4 = 0) :
    step s = .next (hostAnswer s rest (busWrite (targetOf s.cfg.npoly (BitVec.ofNat 17 a)) w (passed s))) := by
  obtain ⟨h1, h2, t, h3, hw, ha, hd, hs⟩ := h
  rw [step_transact h2 h1 h3, transact_write hw ha hs h4, hd]
  rfl

theorem finish_engine (i : Instr) (s : State) (r : Fetched State) : (finish i s r).engine = .idle := by
  cases r <;> rfl

/-- Every complete step is a next state with the engine Idle (R38). -/
theorem completeStep_next (w : Word) (s : State) : ∃ t, completeStep w s = .next t ∧ t.engine = .idle := by
  unfold completeStep
  split
  · obtain ⟨r, h1, -⟩ := exec_shape ‹_› s
    exact ⟨_, h1, finish_engine _ _ _⟩
  · exact ⟨_, rfl, rfl⟩

/-- An ILLEGAL_COMMAND, field by field (R261, R264). -/
theorem takeIllegal_eq (w : Word) (s : State) :
    takeIllegal w s = faultedWith s w .illegalCommand 0#32 s.sreg s.pmem s.draws := rfl

end Sys2Proof.Machine
end

