-- ==== Sys2Proof/Tests/Slice0.lean ====
section
/-! SUPPORT. Tests of the model against the spec's own vectors (95_test_vectors.md; the section stands at each group), the
smoke tests of WellFormed, and for every statement a witness that its hypotheses can be met together. -/

namespace Sys2Proof.Tests
open Sys2Proof Sys2Proof.Machine

set_option Elab.async false

/-! ## Helpers -/

/-- The state the complete step of a word leaves. -/
def ran (w : Word) (s : State) : State :=
  match completeStep w s with
  | .next t => t
  | .fault _ => s
  | .refused _ => s

/-- The state one step of the machine leaves, if it is a next state. -/
def stepped (s : State) : Option State := steps 1 s

/-- A fresh unit with these scalar registers. -/
def withS (rs : List (SReg × Word)) : State := rs.foldl (fun s r => s.setS r.1 (.val r.2)) State.reset

/-- The words of a polynomial given by a formula in the coefficient index. -/
def poly (f : Nat → Int) : List Slot := (List.range 256).map fun c => .val (wordOf (f c))

/-- A fresh unit with these polynomials. -/
def withP (ps : List (Nat × (Nat → Int))) : State :=
  ps.foldl (fun s p => s.setMem (Mem.setPoly s.pmem p.1 (poly p.2))) State.reset

/-- The slots of p[i] at these coefficients. -/
def at' (s : State) (i : Nat) (cs : List Nat) : List Slot := cs.map (s.p i)

/-- The slots of these integers. -/
def vals (xs : List Int) : List Slot := xs.map fun x => .val (wordOf x)

/-- The word ran to the fault OPERAND_RANGE at this ERRLOC, with everything the note of 95_test_vectors.md says. -/
def rangeFault (w : Word) (errloc : Word) (s : State) : Bool :=
  let t := ran w s
  decide (t.statusWord = 0x204#32 ∧ t.retired = 0#32 ∧ t.errcmd = w ∧ t.erridx = 0#32 ∧ t.errloc = errloc)

/-- The fresh unit ran to the fault ILLEGAL_COMMAND. -/
def illegal (w : Word) (np : NPoly) : Bool :=
  let t := ran w (State.resetWith { npoly := np, cqDepth := 16 })
  decide (t.statusWord = 0x104#32 ∧ t.retired = 0#32 ∧ t.errcmd = w ∧ t.erridx = 0#32 ∧ t.errloc = 0#32 ∧
    t.sreg = State.reset.sreg ∧ t.pmem = [])

/-- A fresh unit whose host reads a byte address. -/
def reading (a : Nat) (s : State) : State := { s with txns := [⟨false, BitVec.ofNat 17 a, 0#32, 0#4⟩] }

/-- A unit whose host writes a whole word to a byte address. -/
def writing (a : Nat) (w : Word) (s : State) : State :=
  { s with txns := [⟨true, BitVec.ofNat 17 a, w, 0b1111#4⟩], sched := [.host] }

/-- The response to the transaction that the next step completes. -/
def answer (s : State) : Option BusResp := (stepped s).bind fun t => t.responses.head?

/-! ## Well-formedness (30_encoding.md R112, conditions 3 to 5) -/

theorem test_wf_d_vector : (Instr.padd 60 0 8 7 .each).wf .n64 = false := by decide
theorem test_wf_a_vector : (Instr.pneg 0 61 3).wf .n64 = false := by decide
theorem test_wf_a_of_reduction : (Instr.pnorm 1 15 1).wf .n16 = false := by decide
theorem test_wf_b_vector : (Instr.padd 0 0 16 0 .each).wf .n16 = false := by decide
theorem test_wf_b_broadcast : (Instr.padd 0 0 16 0 .one).wf .n16 = false := by decide
theorem test_wf_pdot_destination : (Instr.pdot 32 0 8 7 .each).wf .n32 = false := by decide
theorem test_wf_p2r_destinations : (Instr.p2r 1 2 1).wf .n64 = false := by decide
theorem test_wf_decomp_destinations : (Instr.decomp 3 1 3 .g88).wf .n64 = false := by decide
theorem test_wf_pp2r_overlap : (Instr.pp2r 4 0 5 1).wf .n64 = false := by decide
theorem test_wf_pdecomp_overlap : (Instr.pdecomp 5 0 4 1 .g32).wf .n64 = false := by decide
theorem test_wf_pp2r_b_vector : (Instr.pp2r 0 0 63 1).wf .n64 = false := by decide
theorem test_wf_boundaries :
    (Instr.padd 56 0 8 7 .each).wf .n64 = true ∧ (Instr.padd 60 0 63 3 .one).wf .n64 = true ∧
    (Instr.pdot 63 0 8 7 .each).wf .n64 = true ∧ (Instr.pp2r 4 0 6 1).wf .n64 = true := by decide

/-! ## Decoding: words written out from the encodings of 30_encoding.md and 95_test_vectors.md §2 to §7.1 -/

theorem test_decode_scalar_field :
    [0x00000000#32, 0x04304200#32, 0x08304200#32, 0x0C204000#32, 0x10304200#32, 0x14204000#32, 0x18204000#32,
      0x1C204000#32, 0x20204000#32, 0x24204000#32, 0x2811E240#32, 0x28FFFFFF#32, 0x2C2000FF#32].map
        (fun w => (decodeWord .n64 w).toOption) =
    [Instr.nop, .add 3 1 2, .sub 3 1 2, .neg 2 1, .mul 3 1 2, .red 2 1, .tosym 2 1, .fromsym 2 1, .norm 2 1, .mov 2 1,
      .li 1 123456#20, .li 15 0xFFFFF#20, .zeta 2 255].map some := by decide
theorem test_decode_scalar_rounding :
    [0x40204300#32, 0x44204308#32, 0x48204008#32, 0x4C204000#32, 0x50304208#32, 0x54304200#32].map
        (fun w => (decodeWord .n64 w).toOption) =
    [Instr.p2r 2 1 3, .decomp 2 1 3 .g32, .high 2 1 .g32, .low 2 1 .g88, .mkhint 3 1 2 .g32, .usehint 3 1 2 .g88].map
      some := by decide
theorem test_decode_ring :
    [0x80400230#32, 0x84300100#32, 0x88400000#32, 0x8C100100#32, 0x90100020#32, 0x94204000#32, 0x98100000#32,
      0x9C100000#32, 0xA0100060#32, 0xA4408000#32].map (fun w => (decodeWord .n64 w).toOption) =
    [Instr.padd 4 0 2 1 .one, .psub 3 0 1 0 .each, .pneg 4 0 0, .psmul 1 0 1 0, .pmov 1 0 1, .ptosym 2 1 0,
      .pfromsym 1 0 0, .pred 1 0 0, .pnorm 1 0 3, .pnormz 4 2 0].map some := by decide
theorem test_decode_ntt :
    [0xC0200020#32, 0xC4510000#32, 0xC8800730#32, 0xCFF008E0#32].map (fun w => (decodeWord .n64 w).toOption) =
    [Instr.ntt 2 0 1, .intt 5 4 0, .pmul 8 0 7 1 .one, .pdot 63 0 8 7 .each].map some := by decide
theorem test_decode_poly_rounding :
    [0xE0200300#32, 0xE4200308#32, 0xE8600008#32, 0xEC700008#32, 0xF0200100#32, 0xF4308118#32, 0xF8108020#32].map
        (fun w => (decodeWord .n64 w).toOption) =
    [Instr.pp2r 2 0 3 0, .pdecomp 2 0 3 0 .g32, .phigh 6 0 0 .g32, .plow 7 0 0 .g32, .pmkhint 2 0 1 0 .each .g88,
      .pusehint 3 2 1 0 .one .g32, .pwgt 1 2 1].map some := by decide
/-- 95_test_vectors.md §7.1. -/
theorem test_illegal_words :
    ([0x00000001#32, 0x30000000#32, 0x58000000#32, 0xA8000000#32, 0xD0000000#32, 0xFC000000#32, 0x04304220#32,
      0x05004200#32, 0x0C108008#32, 0x0C108100#32, 0x2C200100#32, 0x40108100#32, 0x80200101#32, 0x83C008E0#32,
      0x88100010#32, 0xA1100000#32, 0xE0400520#32, 0x40204200#32, 0x44304300#32].all fun w => illegal w .n64) = true ∧
    illegal 0x80001000#32 .n16 = true := by decide +kernel
/-- The host's numbering of a word's bits; the bytes lie lowest first (log 10). -/
theorem test_decode_table_word :
    decodeTableWord 32 0x04304200 = some (.add 3 1 2) ∧ decodeTableWord 32 0x04304220 = none ∧
    decodeBytes .n64 [0x00#8, 0x42#8, 0x30#8, 0x04#8] = .ok (.add 3 1 2, []) := ⟨by decide, by decide, rfl⟩

/-! ## The scalar commands (95_test_vectors.md §2 and §3) -/

theorem test_nop : let t := ran 0#32 State.reset
    t.retired = 1#32 ∧ t.statusWord = 2#32 ∧ t.sreg = State.reset.sreg ∧ t.pmem = [] := by decide +kernel
theorem test_add_wraps : (ran 0x04304200#32 (withS [(1, 8380416#32), (2, 8380416#32)])).s 3 = .val 8380415#32 ∧
    (ran 0x04304200#32 (withS [(1, 8380416#32), (2, 1#32)])).s 3 = .val 0#32 ∧
    (ran 0x04104200#32 (withS [(1, 100#32), (2, 23#32)])).s 1 = .val 123#32 := by decide +kernel
theorem test_add_check_order : rangeFault 0x04304200#32 0x8100#32 (withS [(1, 8380417#32), (2, 8380417#32)]) = true ∧
    rangeFault 0x04304200#32 0x8200#32 (withS [(1, 1#32), (2, 8380417#32)]) = true := by decide +kernel
theorem test_sub : (ran 0x08304200#32 (withS [(1, 5#32), (2, 7#32)])).s 3 = .val 8380415#32 ∧
    (ran 0x08304200#32 (withS [(1, 8380416#32), (2, 0#32)])).s 3 = .val 8380416#32 ∧
    (ran 0x08304200#32 (withS [(1, 0#32), (2, 8380416#32)])).s 3 = .val 1#32 := by decide +kernel
theorem test_neg : (ran 0x0C204000#32 (withS [(1, 0#32)])).s 2 = .val 0#32 ∧
    (ran 0x0C204000#32 (withS [(1, 1#32)])).s 2 = .val 8380416#32 := by decide +kernel
theorem test_neg_fault : rangeFault 0x0C204000#32 0x8100#32 (withS [(1, 0xFFFFFFFF#32)]) = true ∧
    (ran 0x0C204000#32 (withS [(1, 0xFFFFFFFF#32), (2, 7#32)])).s 2 = .bot := by decide +kernel
theorem test_mul : (ran 0x10304200#32 (withS [(1, 4808194#32), (2, 4808194#32)])).s 3 = .val 8380416#32 ∧
    (ran 0x10304200#32 (withS [(1, 4190208#32), (2, 4190209#32)])).s 3 = .val 2095104#32 := by decide +kernel
theorem test_red : (ran 0x14204000#32 (withS [(1, 16760833#32)])).s 2 = .val 8380416#32 ∧
    (ran 0x14204000#32 (withS [(1, 8380417#32)])).s 2 = .val 0#32 ∧
    rangeFault 0x14204000#32 0x8100#32 (withS [(1, 16760834#32)]) = true := by decide +kernel
theorem test_tosym : (ran 0x18204000#32 (withS [(1, 4190208#32)])).s 2 = .val 4190208#32 ∧
    (ran 0x18204000#32 (withS [(1, 4190209#32)])).s 2 = .val 0xFFC01000#32 ∧
    rangeFault 0x18204000#32 0x8100#32 (withS [(1, 8380417#32)]) = true := by decide +kernel
theorem test_fromsym : (ran 0x1C204000#32 (withS [(1, 0xFFC01000#32)])).s 2 = .val 4190209#32 ∧
    (ran 0x1C204000#32 (withS [(1, 4190208#32)])).s 2 = .val 4190208#32 := by decide +kernel
theorem test_fromsym_fault : ([4190209#32, 0xFFC00FFF#32, 0x80000000#32].all fun x =>
    rangeFault 0x1C204000#32 0x8100#32 (withS [(1, x)])) = true := by decide +kernel
theorem test_norm : (ran 0x20204000#32 (withS [(1, 8380415#32)])).s 2 = .val 2#32 ∧
    (ran 0x20204000#32 (withS [(1, 4190209#32)])).s 2 = .val 4190208#32 := by decide +kernel
theorem test_mov : (ran 0x24204000#32 (withS [(1, 0xDEADBEEF#32)])).s 2 = .val 0xDEADBEEF#32 := by decide +kernel
theorem test_li : (ran 0x2811E240#32 State.reset).s 1 = .val 123456#32 ∧
    (ran 0x28FFFFFF#32 State.reset).s 15 = .val 1048575#32 := by decide +kernel
/-- 95_test_vectors.md §2 and §5.3. -/
theorem test_zeta : (ran 0x2C200000#32 State.reset).s 2 = .val 1#32 ∧
    (ran 0x2C200001#32 State.reset).s 2 = .val 4808194#32 ∧ (ran 0x2C200080#32 State.reset).s 2 = .val 1753#32 ∧
    (ran 0x2C2000FF#32 State.reset).s 2 = .val 7648983#32 := by decide +kernel
theorem test_p2r : let t := ran 0x40204300#32 (withS [(1, 4097#32)])
    t.s 2 = .val 1#32 ∧ t.s 3 = .val 0xFFFFF001#32 := by decide +kernel
theorem test_p2r_source_is_destination : let t := ran 0x40104300#32 (withS [(1, 123456#32)])
    t.s 1 = .val 15#32 ∧ t.s 3 = .val 576#32 ∧
    rangeFault 0x40204300#32 0x8100#32 (withS [(1, 8380417#32)]) = true := by decide +kernel
theorem test_decomp : (let t := ran 0x44204300#32 (withS [(1, 8285185#32)]); t.s 2 = .val 0#32 ∧ t.s 3 = .val 0xFFFE8C00#32) ∧
    (let t := ran 0x44204300#32 (withS [(1, 8285184#32)]); t.s 2 = .val 43#32 ∧ t.s 3 = .val 95232#32) := by decide +kernel
theorem test_decomp_g32 : let t := ran 0x44204308#32 (withS [(1, 8118529#32)])
    t.s 2 = .val 0#32 ∧ t.s 3 = .val 0xFFFC0100#32 := by decide +kernel
theorem test_high : (ran 0x48204000#32 (withS [(1, 123456#32)])).s 2 = .val 1#32 ∧
    (ran 0x48204008#32 (withS [(1, 4000000#32)])).s 2 = .val 8#32 := by decide +kernel
theorem test_low : (ran 0x4C204000#32 (withS [(1, 123456#32)])).s 2 = .val 0xFFFEFA40#32 ∧
    (ran 0x4C204008#32 (withS [(1, 4000000#32)])).s 2 = .val 0xFFFD1900#32 := by decide +kernel
theorem test_mkhint : (ran 0x50304200#32 (withS [(1, 1#32), (2, 95232#32)])).s 3 = .val 1#32 ∧
    (ran 0x50304200#32 (withS [(1, 1#32), (2, 8380416#32)])).s 3 = .val 0#32 ∧
    (ran 0x50304200#32 (withS [(1, 1#32), (2, 8285184#32)])).s 3 = .val 1#32 := by decide +kernel
theorem test_usehint : (ran 0x54304200#32 (withS [(1, 1#32), (2, 0#32)])).s 3 = .val 43#32 ∧
    (ran 0x54304200#32 (withS [(1, 1#32), (2, 8285184#32)])).s 3 = .val 0#32 ∧
    (ran 0x54304208#32 (withS [(1, 1#32), (2, 7856641#32)])).s 3 = .val 0#32 := by decide +kernel
theorem test_usehint_fault : rangeFault 0x54304200#32 0x8100#32 (withS [(1, 2#32), (2, 100#32)]) = true := by
  decide +kernel

/-! ## The polynomial commands (95_test_vectors.md §4 to §6) -/

theorem test_padd_in_place : at' (ran 0x80000000#32 (withP [(0, fun c => 4190208 + c)])) 0 [0, 1, 2, 255] =
    vals [8380416, 1, 3, 509] := by decide +kernel
theorem test_padd_check_order : rangeFault 0x80200100#32 0xC0C8#32
    (withP [(0, fun c => if c = 200 then q else 0), (1, fun c => if c = 3 then q else 0)]) = true := by decide +kernel
theorem test_padd_broadcast :
    let t := ran 0x80400230#32 (withP [(0, fun c => c), (1, fun _ => 1), (2, fun _ => 2)])
    at' t 4 [0, 1, 255] = vals [2, 3, 257] ∧ at' t 5 [0, 255] = vals [3, 3] := by decide +kernel
theorem test_psub : at' (ran 0x84300100#32 (withP [(0, fun c => c), (1, fun _ => q - 1)])) 3 [0, 1, 2, 255] =
    vals [1, 2, 3, 256] := by decide +kernel
theorem test_pneg : at' (ran 0x88400000#32 (withP [(0, fun c => c)])) 4 [0, 1, 2, 255] =
    vals [0, 8380416, 8380415, 8380162] := by decide +kernel
theorem test_psmul : at' (ran 0x8C100100#32 ((withP [(0, fun c => c)]).writeS 1 8380416)) 1 [0, 1, 2, 255] =
    vals [0, 8380416, 8380415, 8380162] := by decide +kernel
theorem test_psmul_scalar_first : rangeFault 0x8C100100#32 0x8100#32 ((withP [(0, fun _ => q)]).writeS 1 8380417) = true := by
  decide +kernel
theorem test_pmov_overlap_up :
    let t := ran 0x90100020#32 (withP [(0, fun _ => 7), (1, fun _ => 9), (2, fun _ => 11)])
    at' t 0 [0, 255] = vals [7, 7] ∧ at' t 1 [0, 255] = vals [7, 7] ∧ at' t 2 [0, 255] = vals [7, 7] := by decide +kernel
theorem test_pmov_overlap_down :
    let t := ran 0x90004020#32 (withP [(0, fun _ => 7), (1, fun _ => 9), (2, fun _ => 11)])
    at' t 0 [0, 255] = vals [9, 9] ∧ at' t 1 [0, 255] = vals [11, 11] ∧ at' t 2 [0, 255] = vals [11, 11] := by
  decide +kernel
theorem test_ptosym : at' (ran 0x94204000#32 (withP [(1, fun c => 4190100 + c)])) 2 [0, 108, 109, 255] =
    vals [4190100, 4190208, -4190208, -4190062] := by decide +kernel
theorem test_pfromsym : at' (ran 0x98100000#32 (withP [(0, fun c => -c)])) 1 [0, 1, 2, 255] =
    vals [0, 8380416, 8380415, 8380162] := by decide +kernel
theorem test_pfromsym_fault : rangeFault 0x98100000#32 0xC009#32
    (withP [(0, fun c => if c = 5 then -1 else if c = 9 then -2147483648 else c)]) = true := by decide +kernel
theorem test_pred : at' (ran 0x9C100000#32 (withP [(0, fun c => q + c)])) 1 [0, 1, 2, 255] = vals [0, 1, 2, 255] := by
  decide +kernel
theorem test_pnorm : (ran 0xA0300000#32 (withP [(0, fun c => q - 1 - c)])).s 3 = .val 256#32 := by decide +kernel
theorem test_pnormz : (ran 0xA4100000#32 (withP [(0, fun c => if c = 3 then -16 else if c = 9 then -2147483648 else 0)])).s 1 =
    .val 0x80000000#32 := by decide +kernel
/-- 95_test_vectors.md §5.1. -/
theorem test_ntt_of_x : at' (ran 0xC0100000#32 (withP [(0, fun c => if c = 1 then 1 else 0)])) 1
    [0, 1, 2, 3, 100, 128, 254, 255] = vals [1753, 8378664, 6444997, 1935420, 8291116, 6757063, 7648983, 731434] := by
  decide +kernel
theorem test_ntt_fault : rangeFault 0xC0100000#32 0xC000#32 (withP [(0, fun c => if c = 0 then q else 0)]) = true := by
  decide +kernel
theorem test_intt : at' (ran 0xC4204000#32 (withP [(1, fun _ => 1)])) 2 [0, 1, 2, 255] = vals [1, 0, 0, 0] := by
  decide +kernel
theorem test_pmul_broadcast : let t := ran 0xC8800730#32 (withP [(0, fun _ => 2), (1, fun _ => 3), (7, fun _ => q - 1)])
    at' t 8 [0, 255] = vals [8380415, 8380415] ∧ at' t 9 [0, 255] = vals [8380414, 8380414] := by decide +kernel
theorem test_pdot_source_is_destination :
    at' (ran 0xCC000220#32 (withP [(0, fun _ => 2), (1, fun _ => 3), (2, fun _ => 5), (3, fun _ => 7)])) 0 [0, 255] =
      vals [31, 31] := by decide +kernel
theorem test_pdot_broadcast :
    at' (ran 0xCC900230#32 (withP [(0, fun _ => 2), (1, fun _ => 3), (2, fun _ => 5)])) 9 [0, 255] = vals [25, 25] := by
  decide +kernel
/-- The input of §6. -/
def sixth : Nat → Int := fun c => 123456 * (c + 1) % q
theorem test_pp2r : let t := ran 0xE0200300#32 (withP [(0, sixth)])
    at' t 2 [0, 1, 2, 3, 255] = vals [15, 30, 45, 60, 789] ∧ at' t 3 [0, 1, 2, 3, 255] = vals [576, 1152, 1728, 2304, -3] := by
  decide +kernel
theorem test_pdecomp : let t := ran 0xE4400500#32 (withP [(0, sixth)])
    at' t 4 [0, 1, 2, 3, 255] = vals [1, 1, 2, 3, 34] ∧
    at' t 5 [0, 1, 2, 3, 255] = vals [-67008, 56448, -10560, -77568, -12291] := by decide +kernel
theorem test_phigh : at' (ran 0xE8600008#32 (withP [(0, sixth)])) 6 [0, 1, 2, 3, 255] = vals [0, 0, 1, 1, 12] := by
  decide +kernel
theorem test_plow : at' (ran 0xEC700008#32 (withP [(0, sixth)])) 7 [0, 1, 2, 3, 255] =
    vals [123456, 246912, -153408, -29952, 178173] := by decide +kernel
theorem test_pmkhint : at' (ran 0xF0200100#32 (withP [(0, fun c => [1, 1, q - 1, 1].getD c 0),
    (1, fun c => [95232, 8285184, 95233, q - 1].getD c 0)])) 2 [0, 1, 2, 3, 255] = vals [1, 1, 1, 0, 0] := by decide +kernel
theorem test_pusehint : at' (ran 0xF4308118#32 (withP [(1, fun _ => 0), (2, fun _ => 1)])) 3 [0, 1, 255] =
    vals [15, 15, 15] := by decide +kernel
theorem test_pusehint_fault : rangeFault 0xF4300100#32 0xC007#32 (withP [(0, fun c => if c = 7 then 2 else 0),
    (1, fun c => [95232, 8285184, 95233, q - 1].getD c 0)]) = true := by decide +kernel
theorem test_pwgt : (ran 0xF8108020#32 (withP [(2, fun _ => 1), (3, fun c => c % 2)])).s 1 = .val 384#32 := by
  decide +kernel

/-! ## The host's side (95_test_vectors.md §7.2 to §7.4) -/

theorem test_register_reads :
    (∀ x ∈ [(0x0, 0x4D4C4441#32), (0x4, 0x01101040#32), (0x8, 0x007FE001#32), (0x10, 0#32), (0x14, 0#32), (0x1C, 0#32),
      (0x28, 0#32), (0xC, 0#32), (0x18, 0#32), (0x400, 1#32), (0x404, 4808194#32), (0x7FC, 7648983#32), (0x2C, 0#32),
      (0x140, 0#32), (0x800, 0#32)], answer (reading x.1 State.reset) = some ⟨x.2, false⟩) ∧
    answer (reading 0x4 (State.resetWith { npoly := .n16, cqDepth := 16 })) = some ⟨0x01101010#32, false⟩ := by
  decide +kernel
theorem test_bus_errors : answer (reading 0x2 State.reset) = some ⟨0#32, true⟩ ∧
    answer (writing 0x1A 0#32 State.reset) = some ⟨0#32, true⟩ ∧
    (stepped { State.reset with txns := [⟨true, 0x18#17, 1#32, 0b0011#4⟩] }).map (fun t => (t.queue, t.responses)) =
      some ([], [⟨0#32, true⟩]) := by decide +kernel
theorem test_ie_reserved_bits : (stepped (writing 0x14 0xFFFFFFFF#32 State.reset)).map State.ieWord = some 3#32 := by
  decide +kernel
theorem test_sreg_window : (stepped (writing 0x104 0xDEADBEEF#32 State.reset)).map (fun t => t.s 1) =
    some (.val 0xDEADBEEF#32) ∧ answer (reading 0x104 (withS [(1, 0xDEADBEEF#32)])) = some ⟨0xDEADBEEF#32, false⟩ := by
  decide +kernel
theorem test_pmem_window_top : (stepped (writing 0x1FFFC 0x007FE000#32 State.reset)).map (fun t => t.p 63 255) =
      some (.val 0x007FE000#32) ∧
    (stepped (writing 0x14000 5#32 (State.resetWith { npoly := .n16, cqDepth := 16 }))).map State.pmem = some [] := by
  decide +kernel
/-- §7.3, rows 8 and 10: a drop, then the error clear. -/
theorem test_drop_and_clear :
    let s := ran 0x0C204000#32 (withS [(1, 0x007FE001#32)])
    s.statusWord = 0x204#32 ∧ (stepped (writing 0x18 0#32 s)).map State.statusWord = some 0x20C#32 ∧
    (stepped (writing 0xC 1#32 s)).map (fun t => (t.statusWord, t.errloc)) = some (0#32, 0x8100#32) := by decide +kernel
/-- §7.3, row 24: CLRERR and SRST together. -/
theorem test_soft_reset :
    let s := { ran 0x0C204000#32 (withS [(1, 5#32)]) with doneIe := true, errIe := true }
    (stepped (writing 0xC 3#32 s)).map (fun t => (t.ieWord, t.retired, t.statusWord, t.s 2)) =
      some (0#32, 0#32, 0#32, .val 8380412#32) := by decide +kernel
/-- A soft reset makes the destinations of the command in flight ⊥ (70_reset_and_hazards.md R293). -/
theorem test_soft_reset_aborts :
    (stepped (writing 0xC 2#32 { withS [(2, 9#32), (4, 9#32)] with engine := .exec 0x0C204000#32 })).map
      (fun t => (t.s 2, t.s 4, t.engine)) = some (.bot, .val 9#32, .idle) := by decide +kernel
/-- §7.4, rows 2, 5 and 8. -/
theorem test_interrupt_line :
    (stepped (writing 0x14 1#32 (ran 0#32 State.reset))).map State.irq = some true ∧
    (ran 1#32 { State.reset with errIe := true }).irq = true ∧
    (stepped (writing 0x10 0xFFFFFFFF#32 (ran 1#32 State.reset))).map State.statusWord = some 0x104#32 := by decide +kernel
/-- A window access waits while the unit is busy (20_memory.md R84), a CMD write while the queue is full (R86). -/
theorem test_held :
    (stepped { reading 0x100 { State.reset with queue := [0#32] } with sched := [.host] }).map (fun t => t.txns.length) =
      some 1 ∧
    (stepped (writing 0x18 0#32 (State.resetWith { npoly := .n64, cqDepth := 1 }))).map (fun t => t.queue) = some [0#32] ∧
    (stepped (writing 0x18 0#32 { State.resetWith { npoly := .n64, cqDepth := 1 } with queue := [0#32] })).map
      (fun t => (t.queue, t.txns.length)) = some ([0#32], 1) := by decide +kernel
theorem test_fetch_word : (stepped (State.reset.withFetchWord 32 0x28100005)).map (fun t => (t.s 1, t.retired)) =
    some (.val 5#32, 1#32) := by decide +kernel

/-! ## The assembler (30_encoding.md R117 to R120; the lines and words of 95_test_vectors.md) -/

theorem test_assemble_lines :
    assembleLines ["ADD s3, s1, s2", "NTT.v4 p8, p0", "DECOMP.g32 s2, s3, s1 ; signed", "PADD.v2.bc p4, p0, p2",
      "LI s15, 0xFFFFF", "PP2R.v2 p4, p6, p0", "", "nop"] =
    .ok [0x04304200#32, 0xC0800060#32, 0x44204308#32, 0x80400230#32, 0x28FFFFFF#32, 0xE0400620#32, 0#32] := by
  decide +kernel
theorem test_assemble_rejects : assembleLine "ADD.bc s3, s1, s2" = .error .badQualifier ∧
    assembleLine "NEG s16, s1" = .error .outOfRange ∧ assembleLine "ADD s3, s1" = .error .badOperands ∧
    assembleLine "JMP s1" = .error .unknownMnemonic := by decide +kernel

/-! ## Witnesses: states and operands that meet the hypotheses of the statements -/

/-- A unit whose engine executes a word. -/
def executing (w : Word) (s : State) : State := { s with engine := .exec w }

theorem moves_executing (w : Word) (s : State) (hr : s.rstN = true) (hs : s.sched = []) :
    CompleteMove (executing w s) w := by
  refine ⟨⟨hr, ?_⟩, rfl⟩
  simp [nextTurn, executing, hs, engineCanMove, hr]

theorem reads_reading (a : Nat) (s : State) (hr : s.rstN = true) (hn : nextTurn s = .host) :
    HostReads (reading a s) a [] := ⟨hr, hn, _, rfl, rfl, rfl⟩

theorem writes_writing (a : Nat) (w : Word) (s : State) (hr : s.rstN = true) : HostWrites (writing a w s) a w [] :=
  ⟨hr, rfl, _, rfl, rfl, rfl, rfl, rfl⟩

/-- A busy unit with the host's turn next. -/
def busyHost : State := { executing 0x0C204000#32 State.reset with sched := [.host] }

/-- The state of a unit with ERR = 1 after an illegal word. -/
def halted : State := ran 1#32 State.reset

theorem witness_DecodeOfEncode : (Instr.padd 8 8 8 7 .each).wf .n16 = true ∧ (Instr.p2r 0 15 15).wf .n64 = true ∧
    (Instr.pp2r 0 63 63 0).wf .n64 = true ∧ (Instr.pusehint 56 56 63 7 .one .g32).wf .n64 = true := by decide
theorem witness_EncodeOfDecode : decodeWord .n16 0x808208E0#32 = .ok (.padd 8 8 8 7 .each) ∧
    decodeWord .n64 0xF7FFFF18#32 = .ok (.pusehint 63 63 63 0 .one .g32) := by decide
theorem witness_OpcodeMap : decodeRow 0x04304200#32 = .ok (.add 3 1 2) ∧
    ∃ r ∈ opRows, (0x04304200#32 : Word) &&& r.mask = r.value := ⟨by decide, _, List.mem_cons_of_mem _ List.mem_cons_self, by decide⟩
/-- A legal command, and one word for each condition of R112. -/
theorem witness_IllegalCommand :
    CompleteMove (executing 0x04304200#32 State.reset) 0x04304200#32 ∧ ¬ IllegalByRule .n64 0x04304200#32 ∧
    CompleteMove (executing 0x00000001#32 State.reset) 0x00000001#32 ∧ IllegalByRule .n64 0x00000001#32 ∧
    IllegalByRule .n64 0x83C008E0#32 ∧ ¬ IllegalByRule .n64 0x838008E0#32 ∧ IllegalByRule .n16 0x80001000#32 ∧
    IllegalByRule .n16 0x80001010#32 ∧ IllegalByRule .n16 0xCD000000#32 ∧ IllegalByRule .n64 0x40108100#32 ∧
    IllegalByRule .n64 0xE0400520#32 ∧ ¬ IllegalByRule .n64 0xE0400620#32 := by
  refine ⟨moves_executing _ _ rfl rfl, ?_, moves_executing _ _ rfl rfl, ?_, ?_, ?_, ?_, ?_, ?_, ?_, ?_, ?_⟩ <;>
    unfold IllegalByRule <;> decide +kernel
theorem witness_ReservedOpcodes : fOp 0x30000000#32 = 0x0C ∧ fOp 0xFFFFFFFF#32 = 0x3F ∧ fOp 0x00000001#32 = 0 ∧
    fOp 0x03FFFFFF#32 = 0 := by decide
theorem witness_PseudoInstructions :
    assemble "lin" [] [.s 15, .imm 1048575] = .ok [.li 15 0xFFFFF#20, .neg 15 15] ∧
    assemble "lin" [] [.s 0, .imm 1] = .ok [.li 0 1#20, .neg 0 0] ∧ assemble "lin" [] [.s 0, .imm 0] = .error .outOfRange ∧
    assemble "matvec" [.k 8, .l 8] [.p 56, .p 0, .p 63] = .ok ((List.range 8).map fun i =>
      .pdot (Fin.ofNat 64 (56 + i)) (Fin.ofNat 64 (8 * i)) 63 7 .each) := by decide +kernel
/-- The lengths next to the allowed ones, and a disallowed qualifier. -/
theorem witness_Qualifiers : assemble "padd" [.v 9] [.p 0, .p 1, .p 2] = .error .badQualifier ∧
    assemble "padd" [.v 0] [.p 0, .p 1, .p 2] = .error .badQualifier ∧
    assemble "padd" [.v 8] [.p 0, .p 1, .p 2] = .ok [.padd 0 1 2 7 .each] ∧
    assemble "pneg" [.bc] [.p 0, .p 1] = .error .badQualifier := by decide +kernel
theorem witness_StepRuns : CompleteMove (executing 0x04304200#32 State.reset) 0x04304200#32 ∧
    decodeWord (executing 0x04304200#32 State.reset).cfg.npoly 0x04304200#32 = .ok (.add 3 1 2) ∧
    decodeWord State.reset.cfg.npoly (BitVec.ofNat 32 (0x04304200 % 2 ^ 32)) = .ok (.add 3 1 2) :=
  ⟨moves_executing _ _ rfl rfl, by decide, by decide⟩
/-- The start step, an idle engine with an empty queue, one with ERR = 1, and the complete step. -/
theorem witness_EngineStartsAndCompletes :
    (∃ s w ws, EngineMoves s ∧ s.engine = .idle ∧ s.err = false ∧ s.queue = w :: ws) ∧
    (∃ s, EngineMoves s ∧ s.engine = .idle ∧ s.queue = []) ∧
    (∃ s, EngineMoves s ∧ s.engine = .idle ∧ s.err = true) ∧ ∃ s w, EngineMoves s ∧ s.engine = .exec w :=
  ⟨⟨{ State.reset with queue := [0#32] }, _, _, ⟨rfl, rfl⟩, rfl, rfl, rfl⟩,
    ⟨{ State.reset with sched := [.engine] }, ⟨rfl, rfl⟩, rfl, rfl⟩,
    ⟨{ State.reset with sched := [.engine], err := true }, ⟨rfl, rfl⟩, rfl, rfl⟩,
    executing 0#32 State.reset, 0#32, ⟨rfl, rfl⟩, rfl⟩
theorem inv_reset : State.reset.Inv := by
  refine ⟨by decide, rfl, ?_, by decide, by unfold ErrcodeAgrees; decide, by unfold HaltedOnError; decide,
    by unfold ErrlocLegal; decide, by intro h; cases h⟩
  intro x hx; cases hx
theorem witness_InvariantKept : State.reset.Inv ∧ step State.reset = .next State.reset ∧
    (executing 1#32 State.reset).Inv ∧ ∃ t, step (executing 1#32 State.reset) = .next t ∧ t.err = true := by
  refine ⟨inv_reset, rfl, ?_, _, rfl, rfl⟩
  refine ⟨by decide, rfl, ?_, by decide, by unfold ErrcodeAgrees; decide, by unfold HaltedOnError; decide,
    by unfold ErrlocLegal; decide, by intro h; cases h⟩
  intro x hx; cases hx
theorem witness_legal_configurations : ({ npoly := .n16, cqDepth := 1 } : Config).wf ∧
    ({ npoly := .n64, cqDepth := 255 } : Config).wf := by decide
/-- Every kind of step that the statements on the status bits, the diagnostics and the storage tell apart. -/
theorem witness_moves :
    (CompleteMove (executing 0#32 State.reset) 0#32 ∧ ∃ t, step (executing 0#32 State.reset) = .next t ∧ t.done = true) ∧
    (CompleteMove (executing 1#32 State.reset) 1#32 ∧ ∃ t, step (executing 1#32 State.reset) = .next t ∧ t.err = true) ∧
    (DropMove (writing 0x18 0#32 halted) ∧ ∃ t, step (writing 0x18 0#32 halted) = .next t ∧ t.drop = true) ∧
    (StatusMove (writing 0x10 2#32 State.reset) 1 ∧ ∃ t, step (writing 0x10 2#32 State.reset) = .next t) ∧
    (StatusMove (writing 0x10 8#32 State.reset) 3 ∧ ∃ t, step (writing 0x10 8#32 State.reset) = .next t) ∧
    (ClearMove (writing 0xC 1#32 halted) ∧ ∃ t, step (writing 0xC 1#32 halted) = .next t ∧ t.err = false) ∧
    (SoftResetMove (writing 0xC 3#32 busyHost) ∧ busyHost.engine ≠ .idle ∧
      ∃ t, step (writing 0xC 3#32 busyHost) = .next t ∧ t.engine = .idle) ∧
    (WindowMove (writing 0x1FFFC 5#32 State.reset) ∧ ∃ t, step (writing 0x1FFFC 5#32 State.reset) = .next t) ∧
    (PinMove { State.reset with sched := [.resetPin false] } ∧
      ∃ t, step { State.reset with sched := [.resetPin false] } = .next t ∧ t.rstN = false) ∧
    (halted.err = true ∧ halted.engine = .idle) :=
  ⟨⟨moves_executing _ _ rfl rfl, _, rfl, rfl⟩, ⟨moves_executing _ _ rfl rfl, _, rfl, rfl⟩,
    ⟨⟨rfl, _, _, writes_writing _ _ _ rfl⟩, _, rfl, rfl⟩,
    ⟨⟨_, _, writes_writing _ _ _ rfl, by decide⟩, _, rfl⟩, ⟨⟨_, _, writes_writing _ _ _ rfl, by decide⟩, _, rfl⟩,
    ⟨⟨_, _, writes_writing _ _ _ rfl, by decide, by decide⟩, _, rfl, rfl⟩,
    ⟨⟨_, _, writes_writing _ _ _ rfl, by decide⟩, by decide, _, rfl, rfl⟩,
    ⟨⟨rfl, _, _, _, writes_writing _ _ _ rfl, .inr ⟨by decide, by decide⟩⟩, _, rfl⟩,
    ⟨⟨false, rfl⟩, _, rfl, rfl⟩, rfl, rfl⟩
/-- A complete step that counts and one that records, and a step that is neither and no reset. -/
theorem witness_Counter :
    (CompleteMove (executing 0#32 State.reset) 0#32 ∧
      ∃ t, step (executing 0#32 State.reset) = .next t ∧ t.retired ≠ (executing 0#32 State.reset).retired) ∧
    (CompleteMove (executing 1#32 State.reset) 1#32 ∧
      ∃ t, step (executing 1#32 State.reset) = .next t ∧ t.retired = (executing 1#32 State.reset).retired) ∧
    nextTurn { State.reset with sched := [.resetPin true] } = .resetPin true ∧
    (let s := writing 0xC 1#32 halted;
      ¬ SoftResetMove s ∧ ¬ PinMove s ∧ (∀ w, ¬ CompleteMove s w) ∧ ∃ t, step s = .next t) := by
  refine ⟨⟨moves_executing _ _ rfl rfl, _, rfl, by decide⟩, ⟨moves_executing _ _ rfl rfl, _, rfl, rfl⟩, rfl, ?_, ?_, ?_,
    _, rfl⟩
  · rintro ⟨w, rest, ⟨-, -, t, ht, -, -, hw, -⟩, hb⟩
    injection ht with ht _
    subst ht
    subst hw
    exact absurd hb (by decide)
  · rintro ⟨l, h⟩
    cases h
  · rintro w ⟨⟨-, h⟩, -⟩
    cases h
/-- A schedule that lets the host push two words before the engine starts the first; both complete. -/
theorem witness_EveryInterleaving :
    let s : State := { State.reset with txns := [0x28100005#32, 0x0C204000#32].map cmdReq, sched := [.host, .host] }
    s.rstN = true ∧ s.busy = false ∧ s.err = false ∧ (∀ level, Turn.resetPin level ∉ s.sched) ∧
    ((steps 6 s).map fun t => (t.txns, t.busy, t.retired, t.s 2)) = some ([], false, 2#32, .val 8380412#32) := by
  refine ⟨rfl, rfl, rfl, ?_, by decide +kernel⟩
  intro level h; simp at h
theorem witness_BusyUnit :
    let s : State := { executing 0#32 State.reset with queue := [0#32, 1#32, 0#32] }
    s.rstN = true ∧ s.sched = [] ∧ s.busy = true ∧ (s.err = true → s.queue = []) ∧
    ((steps 5 s).map fun t => (t.busy, t.retired)) = some (false, 2#32) :=
  ⟨rfl, rfl, rfl, fun h => (nomatch h), by decide +kernel⟩
theorem witness_CommandsDoNotRead : SameData State.reset { State.reset with done := true, queue := [1#32] } :=
  ⟨rfl, rfl, rfl, rfl⟩
theorem witness_CommandFrame : decodeWord State.reset.cfg.npoly 0x00000001#32 = .error .badBits := by decide

/-- Every legal and illegal boundary value of a scalar register's type is the value of a register in some state, with a
second register beside it. -/
theorem witness_scalar_registers (x y : Word) : (withS [(1, x), (2, y)]).s 1 = .val x ∧ (withS [(1, x), (2, y)]).s 2 = .val y :=
  ⟨rfl, rfl⟩
theorem witness_scalar_types : IsF 0#32 ∧ IsF 8380416#32 ∧ ¬ IsF 8380417#32 ∧ ¬ IsF 0xFFFFFFFF#32 ∧
    IsW 16760833#32 ∧ ¬ IsW 16760834#32 ∧ IsS 4190208#32 ∧ IsS 0xFFC01000#32 ∧ ¬ IsS 4190209#32 ∧ ¬ IsS 0xFFC00FFF#32 ∧
    IsH 0#32 ∧ IsH 1#32 ∧ ¬ IsH 2#32 ∧ (2 : SReg) ≠ 3 := by
  unfold IsF IsW IsS IsH; decide
/-- A scalar command reads a legal word, an illegal one, or ⊥. -/
theorem witness_ScalarSources : (Instr.add 3 1 2).vectors = [] ∧ State.reset.s 1 = .bot ∧
    firstIllegalScalar (withS [(1, 1#32), (2, 8380417#32)]) (scalarSources (.add 3 1 2)) 0 = (some 2, 0) ∧
    firstIllegalScalar (withS [(1, 1#32), (2, 8380416#32)]) (scalarSources (.add 3 1 2)) 0 = (none, 0) := by decide +kernel

/-! ### Operands in PMEM -/

/-- Every word of p[r] .. p[r+n−1] is w. -/
def filled (w : Word) (r : Nat) : Nat → Mem
  | 0 => []
  | n + 1 => Mem.setPoly (filled w r n) (r + n) (List.replicate 256 (.val w))

theorem get_filled (w : Word) (r n j c : Nat) (hc : c < 256) :
    Mem.get (filled w r n) (wordNo j c) = if r ≤ j ∧ j < r + n then .val w else .bot := by
  induction n with
  | zero => rw [if_neg (by omega)]; rfl
  | succ n ih =>
    rw [filled, Mem.get_setPoly _ _ _ List.length_replicate _ _ hc, ih, List.getD_eq_getElem?_getD,
      List.getElem?_replicate, if_pos hc]
    by_cases h : j = r + n
    · rw [if_pos h, if_pos (by omega)]; rfl
    · rw [if_neg h]
      by_cases h' : r ≤ j ∧ j < r + n
      · rw [if_pos h', if_pos (by omega)]
      · rw [if_neg h', if_neg (by omega)]

/-- Vectors of 8 registers p0 to p7 whose words are all w are a legal operand when w is a legal value. -/
theorem witness_Operand (t : OpType) (w : Word) (h : t.legal w = true) :
    Operand t (filled w 0 8) 0 8 (fun _ _ => t.value w) := by
  intro e c he hc
  exact ⟨w, by rw [get_filled _ _ _ _ _ hc, if_pos (by omega)], h, rfl⟩
theorem witness_OperandB (t : OpType) (k : Bcast) (w : Word) (h : t.legal w = true) :
    OperandB t (filled w 0 8) k 0 8 (fun _ _ => t.value w) := by
  intro e c he hc
  refine ⟨w, ?_, h, rfl⟩
  rw [get_filled _ _ _ _ _ hc, if_pos]
  cases k
  · show 0 ≤ 0 + e ∧ 0 + e < 0 + 8
    omega
  · show 0 ≤ 0 ∧ 0 < 0 + 8
    omega
theorem witness_LegalElements (t : OpType) (k : Bcast) (w : Word) (h : t.legal w = true) (n : Nat) (hn : n ≤ 8) :
    LegalElements t (filled w 0 8) (operandB k 0) n := by
  intro e c he hc
  obtain ⟨v, h1, h2, -⟩ := witness_OperandB t k w h e c (by omega) hc
  exact ⟨v, h1, h2⟩
/-- The last word of the last element of a vector of 8 is the first illegal one. -/
theorem witness_FirstIllegal_last (t : OpType) (w w' : Word) (h : t.legal w = true) (h' : t.legal w' = false) :
    FirstIllegal t (Mem.write (filled w 0 8) (wordNo 7 255) [.val w']) (fun e => 0 + e) 7 255 := by
  have hs : ([Slot.val w'] : List Slot).length = 1 := rfl
  refine ⟨fun e c hc hlt => ⟨w, ?_, h⟩, w', ?_, h'⟩
  · rw [Mem.get_write, hs, if_neg (by simp only [wordNo]; omega), get_filled _ _ _ _ _ hc, if_pos (by dsimp only; omega)]
  · rw [Mem.get_write, hs, if_pos (by simp only [wordNo]; omega)]
    simp [wordNo]
/-- The very first word is the first illegal one, of the A operand or of the B operand. -/
theorem witness_FirstIllegal_first (t : OpType) (k : Bcast) (w' : Word) (h' : t.legal w' = false) :
    FirstIllegal t (filled w' 0 8) (operandB k 0) 0 0 := by
  refine ⟨fun e c hc hlt => by omega, w', ?_, h'⟩
  have h0 : operandB k 0 0 = 0 := by cases k <;> rfl
  rw [h0, get_filled _ _ _ _ _ (by omega), if_pos (by omega)]
/-- With that memory, the B elements before element 7 are legal, whatever type the B operand has that w is legal for. -/
theorem witness_FaultInA (u : OpType) (w w' : Word) (h : u.legal w = true) :
    LegalElements u (Mem.write (filled w 0 8) (wordNo 7 255) [.val w']) (operandB .each 0) 7 := by
  have hs : ([Slot.val w'] : List Slot).length = 1 := rfl
  intro e c he hc
  refine ⟨w, ?_, h⟩
  dsimp only [operandB]
  rw [Mem.get_write, hs, if_neg (by simp only [wordNo]; omega), get_filled _ _ _ _ _ hc, if_pos (by omega)]
/-- The A element is legal and the first word of the broadcast B operand p8 is illegal. -/
theorem witness_FaultInB (t u : OpType) (w w' : Word) (h : t.legal w = true) (h' : u.legal w' = false) :
    let m := Mem.write (filled w 0 8) (wordNo 8 0) [.val w']
    LegalElements t m (fun e => 0 + e) 1 ∧ LegalElements u m (operandB .one 8) 0 ∧
      FirstIllegal u m (operandB .one 8) 0 0 := by
  have hs : ([Slot.val w'] : List Slot).length = 1 := rfl
  refine ⟨fun e c he hc => ⟨w, ?_, h⟩, fun e c he hc => by omega, fun e c hc hlt => by omega, w', ?_, h'⟩
  · rw [Mem.get_write, hs, if_neg (by simp only [wordNo]; omega), get_filled _ _ _ _ _ hc, if_pos (by dsimp only; omega)]
  · rw [Mem.get_write, hs, if_pos (by simp only [wordNo, operandB]; omega)]
    simp [wordNo, operandB]
/-- The memories between the elements of a vector command that makes p[d+e] the words y e. -/
def chain (m : Mem) (d : Nat) (y : Nat → Nat → Word) : Nat → Mem
  | 0 => m
  | e + 1 => Mem.setPoly (chain m d y e) (d + e) ((List.range 256).map fun c => .val (y e c))

theorem get_written (m : Mem) (i : Nat) (f : Nat → Word) (j c : Nat) (hc : c < 256) :
    Mem.get (Mem.setPoly m i ((List.range 256).map fun c => .val (f c))) (wordNo j c) =
      if j = i then .val (f c) else Mem.get m (wordNo j c) := by
  rw [Mem.get_setPoly _ _ _ (by simp) _ _ hc]
  simp [hc]

/-- Every statement of the shape `PolyUnaryRule` or `PolyBinaryRule` has such memories, whatever its function. -/
theorem witness_ElementSteps (m : Mem) (d n : Nat) (y : Nat → Nat → Word) : ElementSteps m (chain m d y) d n y := by
  refine ⟨rfl, fun e _ j c hc => ?_⟩
  rw [chain, get_written _ _ _ _ _ hc]
  by_cases h : j = d + e
  · rw [if_pos h, if_pos (by omega)]
  · rw [if_neg h, if_neg (by omega)]

theorem get_chain (m : Mem) (d : Nat) (y : Nat → Nat → Word) (e j c : Nat) (hc : c < 256)
    (h : ¬ (d ≤ j ∧ j < d + e)) : Mem.get (chain m d y e) (wordNo j c) = Mem.get m (wordNo j c) := by
  induction e with
  | zero => rfl
  | succ e ih => rw [chain, get_written _ _ _ _ _ hc, if_neg (by omega), ih (by omega)]

/-- Vectors of 8, in place (d = 0) or into p8 to p15 (d = 8): each element reads legal words. -/
theorem witness_PolyHolds (t : OpType) (w : Word) (h : t.legal w = true) (d : Nat) (hd : d = 0 ∨ d = 8)
    (y : Nat → Nat → Word) (e : Nat) (he : e < 8) :
    PolyHolds t (chain (filled w 0 8) d y e) (0 + e) (fun _ => t.value w) := by
  intro c hc
  refine ⟨w, ?_, h, rfl⟩
  rw [get_chain _ _ _ _ _ _ hc (by omega), get_filled _ _ _ _ _ hc, if_pos (by omega)]

/-- The last word of the last of 8 elements is the first illegal one; with no element done, the first word is. -/
theorem witness_FirstIllegalWord (t : OpType) (w w' : Word) (h : t.legal w = true) (h' : t.legal w' = false)
    (y : Nat → Nat → Word) :
    FirstIllegalWord t (chain (Mem.write (filled w 0 8) (wordNo 7 255) [.val w']) 8 y 7) (0 + 7) 255 ∧
    FirstIllegalWord t (chain (filled w' 0 8) 8 y 0) (0 + 0) 0 := by
  have hs : ([Slot.val w'] : List Slot).length = 1 := rfl
  refine ⟨⟨fun c hc => ⟨w, ?_, h⟩, w', ?_, h'⟩, fun c hc => absurd hc (Nat.not_lt_zero c), w', ?_, h'⟩
  · rw [get_chain _ _ _ _ _ _ (by omega) (by omega), Mem.get_write, hs, if_neg (by simp only [wordNo]; omega),
      get_filled _ _ _ _ _ (by omega), if_pos (by omega)]
  · rw [get_chain _ _ _ _ _ _ (by omega) (by omega), Mem.get_write, hs, if_pos (by simp only [wordNo]; omega)]
    simp [wordNo]
  · rw [chain, get_filled _ _ _ _ _ (by omega), if_pos (by omega)]

/-- The A element is legal and the first word of the broadcast B operand p8 is not. -/
theorem witness_FirstIllegalWord_B (t u : OpType) (w w' : Word) (h : t.legal w = true) (h' : u.legal w' = false) :
    let m := Mem.write (filled w 0 8) (wordNo 8 0) [.val w']
    PolyHolds t m (0 + 0) (fun _ => t.value w) ∧ FirstIllegalWord u m (operandB .one 8 0) 0 := by
  have hs : ([Slot.val w'] : List Slot).length = 1 := rfl
  refine ⟨fun c hc => ⟨w, ?_, h, rfl⟩, fun c hc => absurd hc (Nat.not_lt_zero c), w', ?_, h'⟩
  · rw [Mem.get_write, hs, if_neg (by simp only [wordNo]; omega), get_filled _ _ _ _ _ hc, if_pos (by omega)]
  · rw [Mem.get_write, hs, if_pos (by simp only [wordNo, operandB]; omega)]
    simp [wordNo, operandB]

/-- Two destinations, p8 and p9, from p0. -/
theorem witness_Pair (m : Mem) (y₁ y₂ : Nat → Nat → Word) : vectorsDisjoint 8 9 0 = true ∧
    WritesVectors m
      (Mem.setPoly (Mem.setPoly m 8 ((List.range 256).map fun c => .val (y₁ 0 c))) 9
        ((List.range 256).map fun c => .val (y₂ 0 c))) (8 + 0) (9 + 0) 1 (fun _ c => y₁ 0 c) (fun _ c => y₂ 0 c) := by
  refine ⟨by decide, fun j c hc => ?_⟩
  rw [get_written _ _ _ _ _ hc, get_written _ _ _ _ _ hc]
  by_cases h8 : j = 8
  · rw [if_neg (by omega), if_pos h8, if_pos (by omega)]
  · by_cases h9 : j = 9
    · rw [if_pos h9, if_neg (by omega), if_pos (by omega)]
    · rw [if_neg h9, if_neg h8, if_neg (by omega), if_neg (by omega)]
/-- In place and between vectors of 8 that do not intersect, with and without broadcast; a second destination. -/
theorem witness_ReadsBeforeWrites : ReadsBeforeWrites 0 8 (fun e => 0 + e) ∧ ReadsBeforeWrites 8 8 (fun e => 0 + e) ∧
    ReadsBeforeWrites 16 8 (fun e => 0 + e) ∧ ReadsBeforeWrites 8 8 (operandB .one 0) ∧
    ReadsBeforeWrites 8 8 (operandB .each 0) ∧ vectorsDisjoint 8 16 7 = true := by
  refine ⟨?_, ?_, ?_, ?_, ?_, by decide⟩ <;> intro e' e h1 h2 <;> dsimp only [operandB] <;> omega
/-- The types of the polynomial operands: a legal and an illegal word of each that has one. -/
theorem witness_operand_types : OpType.F.legal 8380416#32 = true ∧ OpType.F.legal 8380417#32 = false ∧
    OpType.W.legal 16760833#32 = true ∧ OpType.W.legal 16760834#32 = false ∧
    OpType.S.legal 0xFFC01000#32 = true ∧ OpType.S.legal 0xFFC00FFF#32 = false ∧
    OpType.H.legal 1#32 = true ∧ OpType.H.legal 2#32 = false ∧ OpType.Z.legal 0x80000000#32 = true := by decide
theorem witness_Psmul : ∃ s : State, s.s 1 = .val 8380416#32 ∧ IsF 8380416#32 ∧
    (∀ y e, e < 8 → PolyHolds .F (chain s.pmem 8 y e) (0 + e) (fun _ => 8380416)) ∧
    (withS [(1, 8380417#32)]).s 1 = .val 8380417#32 ∧ ¬ IsF 8380417#32 := by
  refine ⟨{ withS [(1, 8380416#32)] with pmem := filled 8380416#32 0 8 }, rfl, by unfold IsF; decide, ?_, rfl,
    by unfold IsF; decide⟩
  exact fun y e he => witness_PolyHolds .F 8380416#32 (by decide) 8 (.inr rfl) y e he
/-- An overlapping vector command over p0 to p2, which completes, and a PSMUL with a scalar that holds a value. -/
theorem witness_VectorCommand : (Instr.pmov 1 0 1).wf .n64 = true ∧ Mem.wf (filled 7#32 0 3) = true ∧
    elementsOf (.pmov 1 0 1) = [.pmov 1 0 0, .pmov 2 1 0] ∧ (withS [(1, 5#32)]).s 1 ≠ .bot ∧
    elementsOf (.psmul 1 0 1 0) ≠ [] :=
  ⟨by decide, Mem.wf_setPoly (Mem.wf_setPoly (Mem.wf_setPoly rfl _ _) _ _) _ _, by decide, by decide, by decide⟩

/-! ### Arithmetic -/

theorem witness_residues : (0 : Int) ≤ q - 1 ∧ q - 1 < q ∧ (0 : Int) < q := by decide
/-- z = γ₂ and z = −γ₂ (as a residue) meet the premise of the hint law; z = γ₂ + 1 does not. -/
theorem witness_HintLaw : |toSym 95232| ≤ gamma2 .g88 ∧ |toSym (q - 95232)| ≤ gamma2 .g88 ∧
    ¬ |toSym 95233| ≤ gamma2 .g88 ∧ |toSym (q - 261888)| ≤ gamma2 .g32 := by decide
theorem witness_Decompose : 8285184 ≤ q - 1 - gamma2 .g88 ∧ q - 1 - gamma2 .g88 < 8285185 ∧
    (decompose 8285185 .g88).2 = -gamma2 .g88 := by decide
theorem witness_IsRq : IsRq (List.replicate 256 (q - 1)) ∧ IsRq (List.replicate 256 0) := by
  refine ⟨⟨List.length_replicate, ?_⟩, List.length_replicate, ?_⟩ <;> intro a ha <;>
    rw [List.eq_of_mem_replicate ha] <;> decide

/-! ### The host's side -/

/-- Reads and whole-word writes of any address happen on a fresh unit; one example each at the boundary of every range. -/
theorem witness_reads (a : Nat) : HostReads (reading a State.reset) a [] := reads_reading a State.reset rfl rfl
theorem witness_writes (a : Nat) (w : Word) : HostWrites (writing a w State.reset) a w [] := writes_writing a w _ rfl
theorem witness_reserved_addresses : ReservedAddress .n64 0x2C ∧ ReservedAddress .n64 0xFC ∧ ¬ ReservedAddress .n64 0x28 ∧
    ¬ ReservedAddress .n64 0x100 ∧ ¬ ReservedAddress .n64 0x13C ∧ ReservedAddress .n64 0x140 ∧ ReservedAddress .n64 0x3FC ∧
    ¬ ReservedAddress .n64 0x400 ∧ ¬ ReservedAddress .n64 0x7FC ∧ ReservedAddress .n64 0x800 ∧
    ReservedAddress .n64 0xFFFC ∧ ¬ ReservedAddress .n64 0x10000 ∧ ¬ ReservedAddress .n64 0x1FFFC ∧
    ReservedAddress .n16 0x14000 ∧ ReservedAddress .n16 0x1FFFC := by
  refine ⟨?_, ?_, ?_, ?_, ?_, ?_, ?_, ?_, ?_, ?_, ?_, ?_, ?_, ?_, ?_⟩ <;> unfold ReservedAddress <;> decide
/-- A stalled window access, and windows whose words hold a value or ⊥. -/
theorem witness_Windows : busyHost.busy = true ∧ HostReads (reading 0x13C busyHost) 0x13C [] ∧
    HostWrites (writing 0x1FFFC 0#32 busyHost) 0x1FFFC 0#32 [] ∧ State.reset.busy = false ∧ State.reset.s 15 = .bot ∧
    (withS [(15, 9#32)]).s 15 = .val 9#32 ∧ State.reset.p 63 255 = .bot ∧
    ({ State.reset with pmem := [(wordNo 63 255, 9#32)] } : State).p 63 255 = .val 9#32 :=
  ⟨rfl, reads_reading _ _ rfl rfl, writes_writing _ _ _ rfl, rfl, rfl, rfl, rfl, rfl⟩
/-- A CMD write with room, with a full queue, and with ERR = 1. -/
theorem witness_CommandWrites :
    let full : State := { State.reset with cfg := { npoly := .n64, cqDepth := 1 }, queue := [0#32] }
    HostWrites (writing 0x18 0#32 State.reset) 0x18 0#32 [] ∧ State.reset.queue.length < State.reset.cfg.cqDepth ∧
    HostWrites (writing 0x18 0#32 full) 0x18 0#32 [] ∧ full.err = false ∧ full.queue.length ≥ full.cfg.cqDepth ∧
    HostWrites (writing 0x18 0#32 halted) 0x18 0#32 [] ∧ halted.err = true :=
  ⟨writes_writing _ _ _ rfl, by decide, writes_writing _ _ _ rfl, rfl, by decide, writes_writing _ _ _ rfl, rfl⟩
/-- Both bits, only CLRERR with and without an error, and neither; the engine idle, on a command and on an illegal word. -/
theorem witness_ControlWrites :
    HostWrites (writing 0xC 3#32 busyHost) 0xC 3#32 [] ∧ (3#32 : Word).getLsbD 1 = true ∧
    decodeWord .n64 0x0C204000#32 = .ok (.neg 2 1) ∧ HostWrites (writing 0xC 1#32 halted) 0xC 1#32 [] ∧
    (1#32 : Word).getLsbD 1 = false ∧ (1#32 : Word).getLsbD 0 = true ∧
    HostWrites (writing 0xC 0#32 State.reset) 0xC 0#32 [] ∧ (0#32 : Word).getLsbD 0 = false ∧
    HostWrites (writing 0xC 2#32 (executing 1#32 State.reset)) 0xC 2#32 [] :=
  ⟨writes_writing _ _ _ rfl, by decide, by decide, writes_writing _ _ _ rfl, by decide, by decide,
    writes_writing _ _ _ rfl, by decide, writes_writing _ _ _ rfl⟩
theorem witness_UnsupportedAccesses :
    nextTurn (reading 2 State.reset) = .host ∧ bits (2#17 : BitVec 17) 1 0 ≠ 0 ∧
    ((⟨true, 0x18#17, 1#32, 0b0011#4⟩ : BusReq).write = true ∧ (0b0011#4 : BitVec 4) ≠ 0b1111#4) := by decide
/-- A read that is answered and a read that is held. -/
theorem witness_Reads : (∃ u, step (reading 0 State.reset) = .next u) ∧
    (∃ u, step (reading 0x100 busyHost) = .next u ∧ u = passed (reading 0x100 busyHost)) ∧
    (UnfixedWordAt State.reset 0x13C ∧ ∃ u, step (reading 0x13C State.reset) = .next u ∧ u.draws = 1) ∧
    UnfixedWordAt State.reset 0x1FFFC ∧ ¬ UnfixedWordAt State.reset 0 :=
  ⟨⟨_, rfl⟩, ⟨_, rfl, rfl⟩, ⟨.inl ⟨15, rfl, rfl⟩, _, rfl, rfl⟩, .inr ⟨63, 255, by decide, by decide, rfl, rfl⟩, by
    rintro (⟨i, h, -⟩ | ⟨r, c, -, -, h, -⟩) <;> omega⟩
theorem witness_HardwareReset :
    nextTurn { State.reset with sched := [.resetPin true] } = .resetPin true ∧
    (let s := hardReset false { State.reset with sched := [.engine, .host], txns := [cmdReq 0#32] };
      s.rstN = false ∧ nextTurn s = .engine ∧ nextTurn { s with sched := [.host] } = .host ∧ s.txns = [cmdReq 0#32]) ∧
    step { hardReset false State.reset with sched := [.host], txns := [cmdReq 0#32] } = .refused .busWhileReset :=
  ⟨rfl, ⟨rfl, rfl, rfl, rfl⟩, rfl⟩

end Sys2Proof.Tests
end

section
/-! The word a command was decoded from is the word the command is encoded as (spec/30_encoding.md R116), form by
form. -/

namespace Sys2Proof

theorem guardBits_eq_ok {ok : Bool} {i j : Instr} : guardBits ok i = .ok j ↔ ok = true ∧ i = j := by
  cases ok <;> simp [guardBits]

theorem sField_val_of_lt {n : Nat} (h : n < 16) : (sField n).val = n := Nat.mod_eq_of_lt h

@[simp] theorem pField_fD_val (w : Word) : (pField (fD w)).val = fD w := Nat.mod_eq_of_lt (fD_lt w)
@[simp] theorem pField_fA_val (w : Word) : (pField (fA w)).val = fA w := Nat.mod_eq_of_lt (fA_lt w)
@[simp] theorem pField_fB_val (w : Word) : (pField (fB w)).val = fB w := Nat.mod_eq_of_lt (fB_lt w)
@[simp] theorem vField_fV_val (w : Word) : (vField (fV w)).val = fV w := Nat.mod_eq_of_lt (fV_lt w)
@[simp] theorem bit_cField_fC (w : Word) : (cField (fC w)).bit = fC w := bit_cField (fC_lt w)
@[simp] theorem bit_gField_fG (w : Word) : (gField (fG w)).bit = fG w := bit_gField (fG_lt w)

section Forms

variable {w : Word} {i : Instr} {op : Nat} (ho : fOp w = op)
include ho

/-- A Format R command all of whose fields are the word's own. -/
theorem encode_eq_of_fields (hr : fRsv w = 0)
    (he : encode i = formR op (fD w) (fA w) (fB w) (fV w) (fC w) (fG w)) : encode i = w := by
  rw [he, ← ho, formR_fields w hr]

theorem encode_of_formDAB {mk : SReg → SReg → SReg → Instr} (he : ∀ d a b, encode (mk d a b) = formR op d a b 0 0 0)
    (h : formDAB w mk = .ok i) : encode i = w := by
  obtain ⟨hg, rfl⟩ := guardBits_eq_ok.1 h
  simp only [Bool.and_eq_true, decide_eq_true_eq] at hg
  obtain ⟨⟨⟨⟨⟨⟨hd, ha⟩, hb⟩, hv⟩, hc⟩, hG⟩, hr⟩ := hg
  exact encode_eq_of_fields ho hr (by simp [he, sField_val_of_lt, hd, ha, hb, hv, hc, hG])

theorem encode_of_formDABG {mk : SReg → SReg → SReg → Gamma → Instr}
    (he : ∀ d a b g, encode (mk d a b g) = formR op d a b 0 0 g.bit) (h : formDABG w mk = .ok i) : encode i = w := by
  obtain ⟨hg, rfl⟩ := guardBits_eq_ok.1 h
  simp only [Bool.and_eq_true, decide_eq_true_eq] at hg
  obtain ⟨⟨⟨⟨⟨hd, ha⟩, hb⟩, hv⟩, hc⟩, hr⟩ := hg
  exact encode_eq_of_fields ho hr (by simp [he, sField_val_of_lt, hd, ha, hb, hv, hc])

theorem encode_of_formDA {mk : SReg → SReg → Instr} (he : ∀ d a, encode (mk d a) = formR op d a 0 0 0 0)
    (h : formDA w mk = .ok i) : encode i = w := by
  obtain ⟨hg, rfl⟩ := guardBits_eq_ok.1 h
  simp only [Bool.and_eq_true, decide_eq_true_eq] at hg
  obtain ⟨⟨⟨⟨⟨⟨hd, ha⟩, hb⟩, hv⟩, hc⟩, hG⟩, hr⟩ := hg
  exact encode_eq_of_fields ho hr (by simp [he, sField_val_of_lt, hd, ha, hb, hv, hc, hG])

theorem encode_of_formDAG {mk : SReg → SReg → Gamma → Instr}
    (he : ∀ d a g, encode (mk d a g) = formR op d a 0 0 0 g.bit) (h : formDAG w mk = .ok i) : encode i = w := by
  obtain ⟨hg, rfl⟩ := guardBits_eq_ok.1 h
  simp only [Bool.and_eq_true, decide_eq_true_eq] at hg
  obtain ⟨⟨⟨⟨⟨hd, ha⟩, hb⟩, hv⟩, hc⟩, hr⟩ := hg
  exact encode_eq_of_fields ho hr (by simp [he, sField_val_of_lt, hd, ha, hb, hv, hc])

theorem encode_of_formP3C {mk : PReg → PReg → PReg → VLen → Bcast → Instr}
    (he : ∀ d a b v c, encode (mk d a b v c) = formR op d a b v c.bit 0) (h : formP3C w mk = .ok i) :
    encode i = w := by
  obtain ⟨hg, rfl⟩ := guardBits_eq_ok.1 h
  simp only [Bool.and_eq_true, decide_eq_true_eq] at hg
  exact encode_eq_of_fields ho hg.2 (by simp [he, hg.1])

theorem encode_of_formP3CG {mk : PReg → PReg → PReg → VLen → Bcast → Gamma → Instr}
    (he : ∀ d a b v c g, encode (mk d a b v c g) = formR op d a b v c.bit g.bit) (h : formP3CG w mk = .ok i) :
    encode i = w := by
  obtain ⟨hr, rfl⟩ := guardBits_eq_ok.1 h
  exact encode_eq_of_fields ho (of_decide_eq_true hr) (by simp [he])

theorem encode_of_formP3 {mk : PReg → PReg → PReg → VLen → Instr}
    (he : ∀ d a b v, encode (mk d a b v) = formR op d a b v 0 0) (h : formP3 w mk = .ok i) : encode i = w := by
  obtain ⟨hg, rfl⟩ := guardBits_eq_ok.1 h
  simp only [Bool.and_eq_true, decide_eq_true_eq] at hg
  obtain ⟨⟨hc, hG⟩, hr⟩ := hg
  exact encode_eq_of_fields ho hr (by simp [he, hc, hG])

theorem encode_of_formP3G {mk : PReg → PReg → PReg → VLen → Gamma → Instr}
    (he : ∀ d a b v g, encode (mk d a b v g) = formR op d a b v 0 g.bit) (h : formP3G w mk = .ok i) :
    encode i = w := by
  obtain ⟨hg, rfl⟩ := guardBits_eq_ok.1 h
  simp only [Bool.and_eq_true, decide_eq_true_eq] at hg
  exact encode_eq_of_fields ho hg.2 (by simp [he, hg.1])

theorem encode_of_formP2 {mk : PReg → PReg → VLen → Instr} (he : ∀ d a v, encode (mk d a v) = formR op d a 0 v 0 0)
    (h : formP2 w mk = .ok i) : encode i = w := by
  obtain ⟨hg, rfl⟩ := guardBits_eq_ok.1 h
  simp only [Bool.and_eq_true, decide_eq_true_eq] at hg
  obtain ⟨⟨⟨hb, hc⟩, hG⟩, hr⟩ := hg
  exact encode_eq_of_fields ho hr (by simp [he, hb, hc, hG])

theorem encode_of_formP2G {mk : PReg → PReg → VLen → Gamma → Instr}
    (he : ∀ d a v g, encode (mk d a v g) = formR op d a 0 v 0 g.bit) (h : formP2G w mk = .ok i) : encode i = w := by
  obtain ⟨hg, rfl⟩ := guardBits_eq_ok.1 h
  simp only [Bool.and_eq_true, decide_eq_true_eq] at hg
  obtain ⟨⟨hb, hc⟩, hr⟩ := hg
  exact encode_eq_of_fields ho hr (by simp [he, hb, hc])

theorem encode_of_formP2S {mk : PReg → PReg → SReg → VLen → Instr}
    (he : ∀ d a b v, encode (mk d a b v) = formR op d a b v 0 0) (h : formP2S w mk = .ok i) : encode i = w := by
  obtain ⟨hg, rfl⟩ := guardBits_eq_ok.1 h
  simp only [Bool.and_eq_true, decide_eq_true_eq] at hg
  obtain ⟨⟨⟨hb, hc⟩, hG⟩, hr⟩ := hg
  exact encode_eq_of_fields ho hr (by simp [he, sField_val_of_lt, hb, hc, hG])

theorem encode_of_formSP {mk : SReg → PReg → VLen → Instr} (he : ∀ d a v, encode (mk d a v) = formR op d a 0 v 0 0)
    (h : formSP w mk = .ok i) : encode i = w := by
  obtain ⟨hg, rfl⟩ := guardBits_eq_ok.1 h
  simp only [Bool.and_eq_true, decide_eq_true_eq] at hg
  obtain ⟨⟨⟨⟨hd, hb⟩, hc⟩, hG⟩, hr⟩ := hg
  exact encode_eq_of_fields ho hr (by simp [he, sField_val_of_lt, hd, hb, hc, hG])

theorem encode_of_formLI (hop : op = 0x0A) (h : formLI w .li = .ok i) : encode i = w := by
  obtain ⟨hd, rfl⟩ := guardBits_eq_ok.1 h
  have himm : (BitVec.ofNat 20 (fImm w)).toNat = fImm w := by
    rw [BitVec.toNat_ofNat]
    exact Nat.mod_mod _ _
  have hw := formI_fields w
  rw [ho, hop] at hw
  rw [encode, sField_val_of_lt (of_decide_eq_true hd), himm, hw]

theorem encode_of_formZETA (hop : op = 0x0B) (h : formZETA w .zeta = .ok i) : encode i = w := by
  obtain ⟨hg, rfl⟩ := guardBits_eq_ok.1 h
  simp only [Bool.and_eq_true, decide_eq_true_eq] at hg
  obtain ⟨hd, hk⟩ := hg
  have himm : (Fin.ofNat 256 (fK w)).val = fImm w := by
    simp only [fKHigh, fK, fImm, bits, Fin.val_ofNat] at hk ⊢
    omega
  have hw := formI_fields w
  rw [ho, hop] at hw
  rw [encode, sField_val_of_lt hd, himm, hw]

end Forms

/-- Decoding loses nothing of the word: the row's fields, and zero elsewhere. -/
theorem encode_of_decodeRow {w : Word} {i : Instr} (h : decodeRow w = .ok i) : encode i = w := by
  unfold decodeRow at h
  split at h
  case h_1 =>
    split at h
    · rename_i hw
      cases h
      exact hw.symm
    · cases h
  case h_40 => cases h
  case h_11 ho => exact encode_of_formLI ho rfl h
  case h_12 ho => exact encode_of_formZETA ho rfl h
  case h_2 ho => exact encode_of_formDAB ho (fun _ _ _ => rfl) h
  case h_3 ho => exact encode_of_formDAB ho (fun _ _ _ => rfl) h
  case h_4 ho => exact encode_of_formDA ho (fun _ _ => rfl) h
  case h_5 ho => exact encode_of_formDAB ho (fun _ _ _ => rfl) h
  case h_6 ho => exact encode_of_formDA ho (fun _ _ => rfl) h
  case h_7 ho => exact encode_of_formDA ho (fun _ _ => rfl) h
  case h_8 ho => exact encode_of_formDA ho (fun _ _ => rfl) h
  case h_9 ho => exact encode_of_formDA ho (fun _ _ => rfl) h
  case h_10 ho => exact encode_of_formDA ho (fun _ _ => rfl) h
  case h_13 ho => exact encode_of_formDAB ho (fun _ _ _ => rfl) h
  case h_14 ho => exact encode_of_formDABG ho (fun _ _ _ _ => rfl) h
  case h_15 ho => exact encode_of_formDAG ho (fun _ _ _ => rfl) h
  case h_16 ho => exact encode_of_formDAG ho (fun _ _ _ => rfl) h
  case h_17 ho => exact encode_of_formDABG ho (fun _ _ _ _ => rfl) h
  case h_18 ho => exact encode_of_formDABG ho (fun _ _ _ _ => rfl) h
  case h_19 ho => exact encode_of_formP3C ho (fun _ _ _ _ _ => rfl) h
  case h_20 ho => exact encode_of_formP3C ho (fun _ _ _ _ _ => rfl) h
  case h_21 ho => exact encode_of_formP2 ho (fun _ _ _ => rfl) h
  case h_22 ho => exact encode_of_formP2S ho (fun _ _ _ _ => rfl) h
  case h_23 ho => exact encode_of_formP2 ho (fun _ _ _ => rfl) h
  case h_24 ho => exact encode_of_formP2 ho (fun _ _ _ => rfl) h
  case h_25 ho => exact encode_of_formP2 ho (fun _ _ _ => rfl) h
  case h_26 ho => exact encode_of_formP2 ho (fun _ _ _ => rfl) h
  case h_27 ho => exact encode_of_formSP ho (fun _ _ _ => rfl) h
  case h_28 ho => exact encode_of_formSP ho (fun _ _ _ => rfl) h
  case h_29 ho => exact encode_of_formP2 ho (fun _ _ _ => rfl) h
  case h_30 ho => exact encode_of_formP2 ho (fun _ _ _ => rfl) h
  case h_31 ho => exact encode_of_formP3C ho (fun _ _ _ _ _ => rfl) h
  case h_32 ho => exact encode_of_formP3C ho (fun _ _ _ _ _ => rfl) h
  case h_33 ho => exact encode_of_formP3 ho (fun _ _ _ _ => rfl) h
  case h_34 ho => exact encode_of_formP3G ho (fun _ _ _ _ _ => rfl) h
  case h_35 ho => exact encode_of_formP2G ho (fun _ _ _ _ => rfl) h
  case h_36 ho => exact encode_of_formP2G ho (fun _ _ _ _ => rfl) h
  case h_37 ho => exact encode_of_formP3CG ho (fun _ _ _ _ _ _ => rfl) h
  case h_38 ho => exact encode_of_formP3CG ho (fun _ _ _ _ _ _ => rfl) h
  case h_39 ho => exact encode_of_formSP ho (fun _ _ _ => rfl) h

/-- R116: a word that decodes is the word of its command, which is legal on the unit. -/
theorem encode_of_decodeWord {np : NPoly} {w : Word} {i : Instr} (h : decodeWord np w = .ok i) :
    encode i = w ∧ i.wf np = true := by
  obtain ⟨hrow, hwf⟩ := (decodeWord_ok np w i).1 h
  exact ⟨encode_of_decodeRow hrow, hwf⟩

end Sys2Proof
end

section
/-! Everything one step of the machine can do, said once: `step_moved`. A proof about every step splits on `Moved`. -/

namespace Sys2Proof.Machine

/-! ## `passed`, field by field -/

@[simp] theorem passed_cfg (s : State) : (passed s).cfg = s.cfg := rfl
@[simp] theorem passed_sreg (s : State) : (passed s).sreg = s.sreg := rfl
@[simp] theorem passed_pmem (s : State) : (passed s).pmem = s.pmem := rfl
@[simp] theorem passed_queue (s : State) : (passed s).queue = s.queue := rfl
@[simp] theorem passed_engine (s : State) : (passed s).engine = s.engine := rfl
@[simp] theorem passed_done (s : State) : (passed s).done = s.done := rfl
@[simp] theorem passed_err (s : State) : (passed s).err = s.err := rfl
@[simp] theorem passed_drop (s : State) : (passed s).drop = s.drop := rfl
@[simp] theorem passed_errcode (s : State) : (passed s).errcode = s.errcode := rfl
@[simp] theorem passed_doneIe (s : State) : (passed s).doneIe = s.doneIe := rfl
@[simp] theorem passed_errIe (s : State) : (passed s).errIe = s.errIe := rfl
@[simp] theorem passed_retired (s : State) : (passed s).retired = s.retired := rfl
@[simp] theorem passed_errcmd (s : State) : (passed s).errcmd = s.errcmd := rfl
@[simp] theorem passed_erridx (s : State) : (passed s).erridx = s.erridx := rfl
@[simp] theorem passed_errloc (s : State) : (passed s).errloc = s.errloc := rfl
@[simp] theorem passed_rstN (s : State) : (passed s).rstN = s.rstN := rfl
@[simp] theorem passed_txns (s : State) : (passed s).txns = s.txns := rfl
@[simp] theorem passed_responses (s : State) : (passed s).responses = s.responses := rfl
@[simp] theorem passed_draws (s : State) : (passed s).draws = s.draws := rfl

/-! ## Single bits of a word -/

/-- A one-bit field is the bit. -/
theorem bits_bit {n : Nat} (w : BitVec n) (k : Nat) : bits w k k = (w.getLsbD k).toNat := by
  rw [bits, Nat.sub_self, BitVec.getLsbD, Nat.toNat_testBit, Nat.zero_add, Nat.pow_one]

theorem bits_bit_eq_one {n : Nat} (w : BitVec n) (k : Nat) : bits w k k = 1 ↔ w.getLsbD k = true := by
  rw [bits_bit]
  exact Bool.toNat_eq_one

theorem bits_bit_eq_zero {n : Nat} (w : BitVec n) (k : Nat) : bits w k k = 0 ↔ w.getLsbD k = false := by
  rw [bits_bit]
  exact Bool.toNat_eq_zero

/-! ## How a complete step ends -/

/-- The end of the complete step of the word w: a legal command retires or raises OPERAND_RANGE, any other word raises
ILLEGAL_COMMAND (R263, R264, R261). -/
inductive CommandEnd (w : Word) (s : State) : State → Prop
  | retires {i : Instr} (hi : decodeWord s.cfg.npoly w = .ok i) (sreg : Vector Slot 16) (m : Mem) (n : Nat)
      (hs : SregKept (destsOf i) s.sreg sreg) (hm : MemFrom (destsOf i) s.pmem m) :
      CommandEnd w s (retiredWith s sreg m n)
  | outOfRange {i : Instr} (hi : decodeWord s.cfg.npoly w = .ok i) (l : Loc) (n : Nat) (hl : BadLoc i l) :
      CommandEnd w s (faultedWith s w .operandRange (errlocWord (some l)) (clobber (destsOf i) s).sreg
        (clobber (destsOf i) s).pmem n)
  | illegal {e : Reject} (he : decodeWord s.cfg.npoly w = .error e) :
      CommandEnd w s (faultedWith s w .illegalCommand 0#32 s.sreg s.pmem s.draws)

theorem completeStep_end {w : Word} {s t : State} (h : completeStep w s = .next t) : CommandEnd w s t := by
  unfold completeStep at h
  split at h
  · rename_i i hi
    obtain ⟨r, hr, hshape⟩ := exec_shape i s
    rw [hr] at h
    cases h
    cases r with
    | ok u n =>
      rw [finish_ok hshape rfl]
      obtain ⟨-, hs, hm⟩ := hshape.ok u n rfl
      exact .retires hi _ _ _ hs hm
    | bad l n =>
      rw [finish_bad, (encode_of_decodeWord hi).1]
      exact .outOfRange hi l n (hshape.bad l n rfl)
  · rename_i e he
    cases h
    exact .illegal he

/-! ## Supported writes by what they address -/

/-- The next step performs a supported write of w to the target x (20_memory.md R77, R81). -/
def WriteMove (s : State) (x : Target) (w : Word) : Prop :=
  s.rstN = true ∧ nextTurn s = .host ∧ ∃ r rest, s.txns = r :: rest ∧ badAccess r = false ∧ r.write = true ∧
    r.wdata = w ∧ targetOf s.cfg.npoly r.addr = x

/-- What naming a target says about the address: where the control registers stand, and that the PMEM window names
registers the unit has (R71, R74). -/
def TargetAddress (np : NPoly) (a : BitVec 17) : Target → Prop
  | .ctrl => a = 0x0C#17
  | .status => a = 0x10#17
  | .cmd => a = 0x18#17
  | .pmem i c => i < np.count ∧ c < 256
  | _ => True

theorem targetOf_address (np : NPoly) (a : BitVec 17) : TargetAddress np a (targetOf np a) := by
  have hsame : ∀ k : Nat, a.toNat = k → a = BitVec.ofNat 17 k := by rintro _ rfl; simp
  have hwindow : bits a 9 2 < 256 := Nat.mod_lt _ (by decide)
  unfold targetOf
  iterate 3 refine iteInduction (motive := TargetAddress np a) (fun _ => trivial) fun _ => ?_
  refine iteInduction (motive := TargetAddress np a) (hsame _) fun _ => ?_
  refine iteInduction (motive := TargetAddress np a) (hsame _) fun _ => ?_
  refine iteInduction (motive := TargetAddress np a) (fun _ => trivial) fun _ => ?_
  refine iteInduction (motive := TargetAddress np a) (hsame _) fun _ => ?_
  iterate 6 refine iteInduction (motive := TargetAddress np a) (fun _ => trivial) fun _ => ?_
  exact iteInduction (motive := TargetAddress np a) (fun h => ⟨h.2, hwindow⟩) fun _ => trivial

theorem targetAddress_of_eq {np : NPoly} {a : BitVec 17} {x : Target} (h : targetOf np a = x) :
    TargetAddress np a x := h ▸ targetOf_address np a

theorem targetOf_eq_ctrl {np : NPoly} {a : BitVec 17} : targetOf np a = .ctrl ↔ a = 0x0C#17 :=
  ⟨targetAddress_of_eq, fun h => h ▸ rfl⟩

theorem targetOf_eq_status {np : NPoly} {a : BitVec 17} : targetOf np a = .status ↔ a = 0x10#17 :=
  ⟨targetAddress_of_eq, fun h => h ▸ rfl⟩

theorem targetOf_eq_cmd {np : NPoly} {a : BitVec 17} : targetOf np a = .cmd ↔ a = 0x18#17 :=
  ⟨targetAddress_of_eq, fun h => h ▸ rfl⟩

/-- A supported write to a control register's address is a write to that register. -/
theorem exists_hostWrites_iff {s : State} {a : Nat} {w : Word} {x : Target} (h4 : bits (BitVec.ofNat 17 a) 1 0 = 0)
    (hx : ∀ b, targetOf s.cfg.npoly b = x ↔ b = BitVec.ofNat 17 a) :
    (∃ rest, HostWrites s a w rest) ↔ WriteMove s x w := by
  constructor
  · rintro ⟨rest, hr, ht, r, htx, hw, ha, hd, hs⟩
    exact ⟨hr, ht, r, rest, htx, by simp [badAccess, ha, h4, hs], hw, hd, (hx _).2 ha⟩
  · rintro ⟨hr, ht, r, rest, htx, hb, hw, hd, hx'⟩
    refine ⟨rest, hr, ht, r, htx, hw, (hx _).1 hx', hd, ?_⟩
    simpa [badAccess, hw] using (Bool.or_eq_false_iff.1 hb).2

theorem softResetMove_iff {s : State} : SoftResetMove s ↔ ∃ w, WriteMove s .ctrl w ∧ w.getLsbD 1 = true := by
  simp only [SoftResetMove, exists_and_right, exists_hostWrites_iff (x := .ctrl) (by decide) fun _ => targetOf_eq_ctrl]

theorem clearMove_iff {s : State} :
    ClearMove s ↔ ∃ w, WriteMove s .ctrl w ∧ w.getLsbD 0 = true ∧ w.getLsbD 1 = false := by
  simp only [ClearMove, exists_and_right, exists_hostWrites_iff (x := .ctrl) (by decide) fun _ => targetOf_eq_ctrl]

theorem statusMove_iff {s : State} {k : Nat} : StatusMove s k ↔ ∃ w, WriteMove s .status w ∧ w.getLsbD k = true := by
  simp only [StatusMove, exists_and_right,
    exists_hostWrites_iff (x := .status) (by decide) fun _ => targetOf_eq_status]

theorem dropMove_iff {s : State} : DropMove s ↔ s.err = true ∧ ∃ w, WriteMove s .cmd w := by
  simp only [DropMove, exists_hostWrites_iff (x := .cmd) (by decide) fun _ => targetOf_eq_cmd]

/-! ## What a supported write does -/

/-- The effect of a supported write of w to a target that answers it (R81), by the register written. -/
inductive WriteEffect (w : Word) (s : State) : Target → State → Prop
  | softReset (h1 : w.getLsbD 1 = true) : WriteEffect w s .ctrl (softReset s)
  | clearError (h1 : w.getLsbD 1 = false) (h0 : w.getLsbD 0 = true) : WriteEffect w s .ctrl (clearError s)
  | noControl (h1 : w.getLsbD 1 = false) (h0 : w.getLsbD 0 = false) : WriteEffect w s .ctrl s
  | status : WriteEffect w s .status { s with done := s.done && !w.getLsbD 1, drop := s.drop && !w.getLsbD 3 }
  | ie : WriteEffect w s .ie { s with doneIe := w.getLsbD 0, errIe := w.getLsbD 1 }
  | dropped (he : s.err = true) : WriteEffect w s .cmd { s with drop := true }
  | queued (he : s.err = false) (hroom : s.queue.length < s.cfg.cqDepth) :
      WriteEffect w s .cmd { s with queue := s.queue ++ [w] }
  | sreg (i : SReg) : WriteEffect w s (.sreg i) (s.setS i (.val w))
  | pmem (i c : Nat) : WriteEffect w s (.pmem i c) (s.setP i c (.val w))
  | ignored {x : Target} (hctrl : x ≠ .ctrl) (hstatus : x ≠ .status) (hcmd : x ≠ .cmd) : WriteEffect w s x s

theorem statusWrite_eq (w : Word) (s : State) :
    statusWrite w s = { s with done := s.done && !w.getLsbD 1, drop := s.drop && !w.getLsbD 3 } := by
  simp [statusWrite, bits_bit_eq_zero]

theorem ieWrite_eq (w : Word) (s : State) :
    ieWrite w s = { s with doneIe := w.getLsbD 0, errIe := w.getLsbD 1 } := by
  simp [ieWrite, bits_bit_eq_one]

theorem ctrlWrite_effect (w : Word) (s : State) : WriteEffect w s .ctrl (ctrlWrite w s) := by
  simp only [ctrlWrite, bits_bit_eq_one]
  split_ifs with h1 h0
  · exact .softReset h1
  · exact .clearError (Bool.eq_false_of_not_eq_true h1) h0
  · exact .noControl (Bool.eq_false_of_not_eq_true h1) (Bool.eq_false_of_not_eq_true h0)

/-- A write that is answered has its register's effect. -/
theorem busWrite_effect {x : Target} {w : Word} {s u : State} {r : BusResp} (h : busWrite x w s = .completes r u) :
    WriteEffect w s x u := by
  cases x
  case ctrl => cases h; exact ctrlWrite_effect w s
  case status => cases h; rw [statusWrite_eq]; exact .status
  case ie => cases h; rw [ieWrite_eq]; exact .ie
  case cmd =>
    simp only [busWrite, cmdWrite] at h
    split_ifs at h with he hroom
    · cases h; exact .dropped he
    · cases h; exact .queued (Bool.eq_false_of_not_eq_true he) hroom
  case sreg i =>
    simp only [busWrite, windowWrite] at h
    split_ifs at h
    cases h; exact .sreg i
  case pmem i c =>
    simp only [busWrite, windowWrite] at h
    split_ifs at h
    cases h; exact .pmem i c
  all_goals cases h; exact .ignored (by simp) (by simp) (by simp)

/-- Only a window write, or a CMD write with ERR = 0, is held. -/
theorem busWrite_held {x : Target} {w : Word} {s : State} (h : busWrite x w s = .held) :
    x ≠ .ctrl ∧ x ≠ .status ∧ (x = .cmd → s.err = false) := by
  cases x
  case cmd =>
    simp only [busWrite, cmdWrite] at h
    split_ifs at h with he hroom
    · cases h
    · cases h
    · exact ⟨by simp, by simp, fun _ => Bool.eq_false_of_not_eq_true he⟩
  case sreg => simp
  case pmem => simp
  all_goals cases h

/-- A read changes nothing but the count of drawn free values. -/
theorem busRead_effect {x : Target} {s u : State} {r : BusResp} (h : busRead x s = .completes r u) :
    u = { s with draws := u.draws } := by
  have hwindow : ∀ v : Slot, windowRead v s = .completes r u → u = { s with draws := u.draws } := by
    intro v hv
    unfold windowRead at hv
    split_ifs at hv
    cases hv
    rfl
  cases x
  case sreg => exact hwindow _ h
  case pmem => exact hwindow _ h
  all_goals
    obtain ⟨-, rfl⟩ := Handshake.completes.inj h
    rfl

/-! ## What a step does -/

/-- The next step performs no write that CTRL, STATUS or, with ERR = 1, CMD answers. -/
def TouchesNoControl (s : State) : Prop :=
  ∀ x w, WriteMove s x w → x ≠ .ctrl ∧ x ≠ .status ∧ (x = .cmd → s.err = false)

/-- Everything one step can do, with whose move it is (log 3): the reset input, the engine's start, the engine's
complete step, a write that is answered, or a turn that leaves the unit as it is (a read, an unsupported access, a held
transaction, no move to make). -/
inductive Moved (s : State) : State → Prop
  | pin (level : Bool) (h : nextTurn s = .resetPin level) : Moved s (hardReset level (passed s))
  | started (h : EngineMoves s) (hidle : s.engine = .idle) : Moved s (startStep (passed s))
  | completed {w : Word} {t : State} (h : CompleteMove s w) (ht : CommandEnd w (passed s) t) : Moved s t
  | wrote {x : Target} {w : Word} {u : State} (h : WriteMove s x w) (hu : WriteEffect w (passed s) x u)
      (rest : List BusReq) (resps : List BusResp) : Moved s { u with txns := rest, responses := resps }
  | unmoved (txns : List BusReq) (resps : List BusResp) (sched : List Turn) (draws : Nat)
      (hcomplete : ∀ w, ¬ CompleteMove s w) (hpin : ¬ PinMove s)
      (hwrite : TouchesNoControl s) :
      Moved s { s with txns := txns, responses := resps, sched := sched, draws := draws }

section Exclusive

variable {s : State} {x y : Target} {w v : Word} {level : Bool}

theorem EngineMoves.not_write (h : EngineMoves s) : ¬ WriteMove s x w := by
  rintro ⟨-, hhost, -⟩
  cases h.2.symm.trans hhost

theorem EngineMoves.not_pin (h : EngineMoves s) : ¬ PinMove s := by
  rintro ⟨level, hpin⟩
  cases h.2.symm.trans hpin

theorem WriteMove.not_complete (h : WriteMove s x w) : ¬ CompleteMove s v := fun hc => hc.1.not_write h

theorem WriteMove.not_pin (h : WriteMove s x w) : ¬ PinMove s := by
  rintro ⟨level, hpin⟩
  obtain ⟨-, hhost, -⟩ := h
  cases hhost.symm.trans hpin

theorem not_complete_of_pin (h : nextTurn s = .resetPin level) : ¬ CompleteMove s v := fun hc =>
  hc.1.not_pin ⟨level, h⟩

theorem not_write_of_pin (h : nextTurn s = .resetPin level) : ¬ WriteMove s x w := fun hw => hw.not_pin ⟨level, h⟩

theorem not_complete_of_idle (h : s.engine = .idle) : ¬ CompleteMove s v := fun hc => by
  cases h.symm.trans hc.2

/-- A step completes one word only. -/
theorem CompleteMove.iff (h : CompleteMove s w) : CompleteMove s v ↔ v = w := by
  constructor
  · intro h'
    exact (Engine.exec.inj (h.2.symm.trans h'.2)).symm
  · rintro rfl
    exact h

/-- A step writes one word to one target only. -/
theorem WriteMove.iff (h : WriteMove s x w) : WriteMove s y v ↔ x = y ∧ w = v := by
  constructor
  · rintro ⟨-, -, r', rest', htx', -, -, rfl, rfl⟩
    obtain ⟨-, -, r, rest, htx, -, -, rfl, rfl⟩ := h
    obtain ⟨rfl, -⟩ := List.cons.inj (htx'.symm.trans htx)
    exact ⟨rfl, rfl⟩
  · rintro ⟨rfl, rfl⟩
    exact h

end Exclusive

/-- A host's turn that performs no supported write leaves the unit as it is. -/
theorem moved_of_no_write {s : State} (hturn : nextTurn s = .host) (hw : ∀ x w, ¬ WriteMove s x w)
    (txns : List BusReq) (resps : List BusResp) (draws : Nat) :
    Moved s { passed s with txns := txns, responses := resps, draws := draws } :=
  .unmoved txns resps _ draws (fun _ hc => Turn.noConfusion (hturn.symm.trans hc.1.2))
    (fun ⟨_, hp⟩ => Turn.noConfusion (hturn.symm.trans hp)) fun x w h => absurd h (hw x w)

/-- The host's turn with a transaction outstanding. -/
theorem moved_transact {s : State} {r : BusReq} {rest : List BusReq} (hturn : nextTurn s = .host)
    (hr : s.rstN = true) (htx : s.txns = r :: rest) : Moved s (hostAnswer s rest (transact r (passed s))) := by
  have hhead : ∀ x w, WriteMove s x w → badAccess r = false ∧ r.write = true := by
    rintro x w ⟨-, -, r', rest', htx', hb, hw, -, -⟩
    obtain ⟨rfl, -⟩ := List.cons.inj (htx.symm.trans htx')
    exact ⟨hb, hw⟩
  unfold transact
  split_ifs with hbad hwrite
  · exact moved_of_no_write hturn (fun x w h => by simp [hbad] at hhead; exact hhead x w h) _ _ _
  · have hmove : WriteMove s (targetOf s.cfg.npoly r.addr) r.wdata :=
      ⟨hr, hturn, r, rest, htx, Bool.eq_false_of_not_eq_true hbad, hwrite, rfl, rfl⟩
    cases hans : busWrite (targetOf (passed s).cfg.npoly r.addr) r.wdata (passed s) with
    | held =>
      refine .unmoved _ _ _ _ (fun _ => hmove.not_complete) hmove.not_pin fun x w h => ?_
      obtain ⟨rfl, -⟩ := hmove.iff.1 h
      exact busWrite_held (s := passed s) hans
    | completes resp u => exact .wrote hmove (busWrite_effect hans) _ _
  · have hno : ∀ x w, ¬ WriteMove s x w := fun x w h => hwrite (hhead x w h).2
    cases hans : busRead (targetOf (passed s).cfg.npoly r.addr) (passed s) with
    | held => exact moved_of_no_write hturn hno _ _ _
    | completes resp u =>
      rw [busRead_effect hans]
      exact moved_of_no_write hturn hno _ _ _

/-- The engine's turn. -/
theorem moved_engine {s t : State} (hturn : nextTurn s = .engine) (h : engineTurn (passed s) = .next t) :
    Moved s t := by
  unfold engineTurn at h
  split_ifs at h with hr
  · split at h
    · rename_i w hw
      exact .completed ⟨⟨hr, hturn⟩, hw⟩ (completeStep_end h)
    · rename_i hidle
      cases h
      exact .started ⟨hr, hturn⟩ hidle
  · cases h
    exact .unmoved _ _ _ _ (fun _ hc => hr hc.1.1) (fun ⟨_, hp⟩ => Turn.noConfusion (hturn.symm.trans hp))
      fun x w hw => absurd hw.1 hr

/-- The host's turn. -/
theorem moved_host {s t : State} (hturn : nextTurn s = .host) (h : step s = .next t) : Moved s t := by
  cases htx : s.txns with
  | nil =>
    rw [step_host hturn, hostTurn, passed_txns, htx] at h
    cases h
    refine moved_of_no_write hturn ?_ _ _ _
    rintro x w ⟨-, -, r, rest, htx', -⟩
    rw [htx] at htx'
    cases htx'
  | cons r rest =>
    by_cases hr : s.rstN = true
    · rw [step_transact hturn hr htx] at h
      cases h
      exact moved_transact hturn hr htx
    · rw [step_host hturn, hostTurn, passed_txns, htx] at h
      simp [hr] at h

/-- EVERYTHING A STEP CAN DO. -/
theorem step_moved {s t : State} (h : step s = .next t) : Moved s t := by
  cases hturn : nextTurn s with
  | engine => exact moved_engine hturn (step_engine hturn ▸ h)
  | host => exact moved_host hturn h
  | resetPin level =>
    rw [step_pin hturn] at h
    cases h
    exact .pin level hturn

end Sys2Proof.Machine
end

section
/-! The invariant of the machine is kept by every step (10_state.md R33, R37, R49, R56; 60_exceptions.md R264). -/

namespace Sys2Proof.Laws.InRange

/-- Every command, constructor by constructor. -/
theorem statement (i : Instr) : Statement i := by
  cases i
  exacts [nop, add _ _ _, sub _ _ _, neg _ _, mul _ _ _, red _ _, tosym _ _, fromsym _ _, norm _ _, mov _ _, li _ _,
    zeta _ _, p2r _ _ _, decomp _ _ _ _, high _ _ _, low _ _ _, mkhint _ _ _ _, usehint _ _ _ _, padd _ _ _ _ _,
    psub _ _ _ _ _, pneg _ _ _, psmul _ _ _ _, pmov _ _ _, ptosym _ _ _, pfromsym _ _ _, pred _ _ _, pnorm _ _ _,
    pnormz _ _ _, ntt _ _ _, intt _ _ _, pmul _ _ _ _ _, pdot _ _ _ _ _, pp2r _ _ _ _, pdecomp _ _ _ _ _,
    phigh _ _ _ _, plow _ _ _ _, pmkhint _ _ _ _ _ _, pusehint _ _ _ _ _ _, pwgt _ _ _]

end Sys2Proof.Laws.InRange

namespace Sys2Proof.Machine

/-! ## ERRLOC -/

theorem NPoly.count_le (np : NPoly) : np.count ≤ 64 := by cases np <;> decide

/-- The word a legal command can fault at has a register number of six bits and a coefficient number of eight. -/
theorem badLoc_lt {np : NPoly} {i : Instr} {l : Loc} (hi : i.wf np = true) (h : BadLoc i l) :
    l.reg < 64 ∧ l.coef < 256 := by
  rcases h with ⟨-, hcoef, x, -, hreg⟩ | ⟨-, hcoef, x, hx, -, hreg⟩
  · have := x.1.isLt
    omega
  · have hfit := Laws.InRange.vectors_fit hi x (vectorSources_vectors x hx)
    have := NPoly.count_le np
    omega

/-- R265: ERRLOC of an OPERAND_RANGE fault has VALID set and bits 31:16 zero. -/
theorem bits_errlocWord {l : Loc} (hreg : l.reg < 64) (hcoef : l.coef < 256) :
    bits (errlocWord (some l)) 31 16 = 0 ∧ bits (errlocWord (some l)) 15 15 = 1 := by
  have hfile : l.file.bit ≤ 1 := by cases l.file <;> decide
  simp only [errlocWord, bits, BitVec.toNat_ofNat]
  omega

/-- ERRLOC as every fault writes it. -/
theorem commandEnd_errloc {w : Word} {s : State} {i : Instr} {l : Loc} (hi : decodeWord s.cfg.npoly w = .ok i)
    (hl : BadLoc i l) : bits (errlocWord (some l)) 31 16 = 0 ∧ bits (errlocWord (some l)) 15 15 = 1 := by
  obtain ⟨hreg, hcoef⟩ := badLoc_lt (encode_of_decodeWord hi).2 hl
  exact bits_errlocWord hreg hcoef

/-! ## The start step -/

/-- R38: the start step takes the head of the queue, or there is nothing to start. -/
theorem startStep_cases (s : State) :
    (∃ w ws, s.err = false ∧ s.queue = w :: ws ∧ startStep s = { s with queue := ws, engine := .exec w }) ∨
      ((s.err = true ∨ s.queue = []) ∧ startStep s = s) := by
  unfold startStep
  split
  · exact .inr ⟨.inr ‹_›, rfl⟩
  · rename_i w ws hq
    split_ifs with he
    · exact .inr ⟨.inl he, rfl⟩
    · exact .inl ⟨w, ws, Bool.eq_false_of_not_eq_true he, hq, rfl⟩

/-! ## The invariant, move by move -/

theorem heldInReset_of_running {s : State} (h : s.rstN = true) : HeldInReset s := fun h0 =>
  Bool.noConfusion (h.symm.trans h0)

theorem errlocLegal_of_zero {s : State} (h : s.errloc = 0#32) (hcode : s.errcode ≠ .operandRange) : ErrlocLegal s :=
  ⟨by rw [h]; decide, fun he => absurd he hcode, fun _ => h⟩

theorem inv_hardReset {s : State} (h : s.cfg.wf) (level : Bool) : (hardReset level s).Inv := by
  refine ⟨h, rfl, fun x hx => ?_, Nat.zero_le _, by simp [ErrcodeAgrees], fun _ => ⟨rfl, rfl⟩, ?_, ?_⟩
  · cases hx
  · exact errlocLegal_of_zero rfl fun h => ErrCode.noConfusion h
  · intro h0
    cases (show level = false from h0)
    rfl

/-- The host's side of the bus, the schedule and the count of free values are no part of the invariant. -/
theorem inv_congr_environment {s : State} (h : s.Inv) (txns : List BusReq) (resps : List BusResp) (sched : List Turn)
    (draws : Nat) : ({ s with txns := txns, responses := resps, sched := sched, draws := draws } : State).Inv := by
  obtain ⟨hcfg, hwf, hrange, hlen, hcode, hhalt, hloc, hheld⟩ := h
  refine ⟨hcfg, hwf, hrange, hlen, hcode, hhalt, hloc, fun h0 => ?_⟩
  exact congrArg (fun u : State => { u with txns := txns, responses := resps, sched := sched, draws := draws })
    (hheld h0)

theorem inv_passed {s : State} (h : s.Inv) : (passed s).Inv := inv_congr_environment h _ _ _ _

theorem inv_startStep {s : State} (h : s.Inv) (hr : s.rstN = true) : (startStep s).Inv := by
  rcases startStep_cases s with ⟨w, ws, he, hq, heq⟩ | ⟨-, heq⟩ <;> rw [heq]
  · obtain ⟨hcfg, hwf, hrange, hlen, hcode, -, hloc, -⟩ := h
    have hlen' : ws.length ≤ s.cfg.cqDepth := by
      rw [hq, List.length_cons] at hlen
      omega
    exact ⟨hcfg, hwf, hrange, hlen', hcode, fun he' => Bool.noConfusion (he.symm.trans he'), hloc,
      heldInReset_of_running hr⟩
  · exact h

theorem pmemInRange_of_memFrom {s : State} {np : NPoly} {i : Instr} {m : Mem} (hi : i.wf np = true)
    (h : ∀ x ∈ s.pmem, x.1 < 256 * np.count) (hm : MemFrom (destsOf i) s.pmem m) : ∀ x ∈ m, x.1 < 256 * np.count := by
  intro x hx
  rcases hm.listed x hx with hx | ⟨j, c, hj, hc, hxj⟩
  · exact h x hx
  · have hfit := (Laws.InRange.statement i np hi).1 j hj
    rw [hxj, wordNo]
    omega

/-- A complete step: the word in flight means that no error is pending. -/
theorem inv_commandEnd {w : Word} {s t : State} (h : s.Inv) (hr : s.rstN = true) (hw : s.engine = .exec w)
    (ht : CommandEnd w s t) : t.Inv := by
  obtain ⟨hcfg, hwf, hrange, hlen, hcode, hhalt, hloc, -⟩ := h
  have herr : s.err = true → False := fun he => Engine.noConfusion (hw.symm.trans (hhalt he).2)
  cases ht with
  | retires hi sreg m n hs hm =>
    exact ⟨hcfg, hm.wf hwf, pmemInRange_of_memFrom (encode_of_decodeWord hi).2 hrange hm, hlen, hcode,
      fun he => (herr he).elim, hloc, heldInReset_of_running hr⟩
  | outOfRange hi l n hl =>
    obtain ⟨hhigh, hvalid⟩ := commandEnd_errloc hi hl
    exact ⟨hcfg, clobber_wf _ _ hwf, fun x hx => hrange x (clobber_mem _ _ x hx), Nat.zero_le _,
      by simp [ErrcodeAgrees], fun _ => ⟨rfl, rfl⟩, ⟨hhigh, fun _ => hvalid, fun h => ErrCode.noConfusion h⟩,
      heldInReset_of_running hr⟩
  | illegal =>
    exact ⟨hcfg, hwf, hrange, Nat.zero_le _, by simp [ErrcodeAgrees], fun _ => ⟨rfl, rfl⟩,
      errlocLegal_of_zero rfl fun h => ErrCode.noConfusion h, heldInReset_of_running hr⟩

theorem inv_softReset {s : State} (h : s.Inv) (hr : s.rstN = true) : (softReset s).Inv := by
  obtain ⟨hcfg, hwf, hrange, -⟩ := h
  refine ⟨?_, clobber_wf _ _ hwf, fun x hx => ?_, Nat.zero_le _, by simp [ErrcodeAgrees], fun _ => ⟨rfl, rfl⟩,
    errlocLegal_of_zero rfl fun h => ErrCode.noConfusion h, heldInReset_of_running (by simpa using hr)⟩
  · rwa [softReset_cfg]
  · rw [softReset_cfg]
    exact hrange x (clobber_mem _ _ x hx)

theorem inv_clearError {s : State} (h : s.Inv) (hr : s.rstN = true) : (clearError s).Inv := by
  unfold clearError
  split_ifs with he
  · obtain ⟨hcfg, hwf, hrange, hlen, -, -, ⟨hhigh, -⟩, -⟩ := h
    exact ⟨hcfg, hwf, hrange, hlen, by simp [ErrcodeAgrees], fun h => Bool.noConfusion h,
      ⟨hhigh, fun h => ErrCode.noConfusion h, fun h => ErrCode.noConfusion h⟩, heldInReset_of_running hr⟩
  · exact h

theorem inv_setP {s : State} (h : s.Inv) (hr : s.rstN = true) {i c : Nat} (hi : i < s.cfg.npoly.count)
    (hc : c < 256) (v : Slot) : (s.setP i c v).Inv := by
  obtain ⟨hcfg, hwf, hrange, hlen, hcode, hhalt, hloc, -⟩ := h
  refine ⟨hcfg, Mem.wf_write hwf _ _, fun x hx => ?_, hlen, hcode, hhalt, hloc, heldInReset_of_running hr⟩
  rcases Mem.mem_write hx with hx | ⟨-, hx⟩
  · exact hrange x hx
  · simp only [wordNo, List.length_singleton] at hx
    change x.1 < 256 * s.cfg.npoly.count
    omega

theorem inv_queued {s : State} (h : s.Inv) (hr : s.rstN = true) (he : s.err = false)
    (hroom : s.queue.length < s.cfg.cqDepth) (w : Word) : ({ s with queue := s.queue ++ [w] } : State).Inv := by
  obtain ⟨hcfg, hwf, hrange, -, hcode, -, hloc, -⟩ := h
  refine ⟨hcfg, hwf, hrange, ?_, hcode, fun he' => Bool.noConfusion (he.symm.trans he'), hloc,
    heldInReset_of_running hr⟩
  simpa using hroom

/-- A write that is answered; a PMEM target is one the unit has. -/
theorem inv_writeEffect {w : Word} {s u : State} {x : Target} (h : s.Inv) (hr : s.rstN = true)
    (hx : ∀ i c, x = .pmem i c → i < s.cfg.npoly.count ∧ c < 256) (hu : WriteEffect w s x u) : u.Inv := by
  have ⟨hcfg, hwf, hrange, hlen, hcode, hhalt, hloc, _⟩ := h
  have hheld {t : State} : t.rstN = true → HeldInReset t := heldInReset_of_running
  cases hu with
  | softReset => exact inv_softReset h hr
  | clearError => exact inv_clearError h hr
  | noControl => exact h
  | status => exact ⟨hcfg, hwf, hrange, hlen, hcode, hhalt, hloc, hheld hr⟩
  | ie => exact ⟨hcfg, hwf, hrange, hlen, hcode, hhalt, hloc, hheld hr⟩
  | dropped => exact ⟨hcfg, hwf, hrange, hlen, hcode, hhalt, hloc, hheld hr⟩
  | queued he hroom => exact inv_queued h hr he hroom w
  | sreg i => exact ⟨hcfg, hwf, hrange, hlen, hcode, hhalt, hloc, hheld hr⟩
  | pmem i c =>
    obtain ⟨hi, hc⟩ := hx i c rfl
    exact inv_setP h hr hi hc _
  | ignored => exact h

/-- Every move keeps the invariant. -/
theorem inv_moved {s t : State} (h : s.Inv) (ht : Moved s t) : t.Inv := by
  have hp : (passed s).Inv := inv_passed h
  cases ht with
  | pin level => exact inv_hardReset hp.1 level
  | started he => exact inv_startStep hp he.1
  | completed hc ht => exact inv_commandEnd hp hc.1.1 hc.2 ht
  | wrote hw hu rest resps =>
    obtain ⟨hr, -, r, -, -, -, -, -, hx⟩ := hw
    have hin : ∀ i c, targetOf s.cfg.npoly r.addr = .pmem i c → i < s.cfg.npoly.count ∧ c < 256 :=
      fun i c => targetAddress_of_eq
    exact inv_congr_environment (inv_writeEffect hp hr (hx ▸ hin) hu) rest resps _ _
  | unmoved txns resps sched draws => exact inv_congr_environment h txns resps sched draws

/-- Settles O11: every kind of move keeps the invariant. -/
theorem invariantKeptByEveryStep : Obligations.InvariantKeptByEveryStep := by
  unfold Obligations.InvariantKeptByEveryStep
  exact fun s t h hstep => inv_moved h (step_moved hstep)

/-- A state after reset is a hardware reset of itself, so it has the invariant. -/
theorem inv_resetWith {cfg : Config} (h : cfg.wf) : (State.resetWith cfg).Inv :=
  inv_hardReset (s := State.resetWith cfg) h true

/-- Settles O12, for the default configuration (legal) and every legal one. -/
theorem invariantAtReset : Obligations.InvariantAtReset := by
  unfold Obligations.InvariantAtReset
  exact ⟨inv_resetWith (cfg := Config.default) (by decide), fun _ h => inv_resetWith h⟩

end Sys2Proof.Machine
end

section
/-! What the engine's steps are, and what a step does to the status bits, the counter and the diagnostics (10_state.md
R38, R46 to R48, R53 to R56). -/

namespace Sys2Proof.Machine

/-! ## The engine's steps -/

/-- Out of reset, the step that completes w is w's complete step. -/
theorem step_complete {s : State} {w : Word} (h : CompleteMove s w) : step s = completeStep w (passed s) := by
  rw [step_engine h.1.2, engineTurn, passed_rstN, h.1.1, passed_engine, h.2]
  rfl

/-- Out of reset, the step of an idle engine is the start step. -/
theorem step_start {s : State} (h : EngineMoves s) (hidle : s.engine = .idle) :
    step s = .next (startStep (passed s)) := by
  rw [step_engine h.2, engineTurn, passed_rstN, h.1, passed_engine, hidle]
  rfl

theorem completeStep_of_ok {s : State} {w : Word} {i : Instr} (h : decodeWord s.cfg.npoly w = .ok i) :
    completeStep w s = exec i s := by
  rw [completeStep, h]

/-- Settles O9: the engine's turn is the complete step, which dispatches on the decoded word. -/
theorem stepRunsTheDecodedCommand : Obligations.StepRunsTheDecodedCommand := by
  unfold Obligations.StepRunsTheDecodedCommand
  constructor
  · intro s w i hmove hi
    rw [step_complete hmove]
    exact completeStep_of_ok hi
  · intro s nbits w i hi
    have hmove : CompleteMove (s.withFetchWord nbits w) (BitVec.ofNat 32 (w % 2 ^ nbits)) := ⟨⟨rfl, rfl⟩, rfl⟩
    rw [step_complete hmove]
    exact completeStep_of_ok (s := passed (s.withFetchWord nbits w)) hi

/-- Settles O10, by the two steps of the engine. -/
theorem engineStartsAndCompletes : Obligations.EngineStartsAndCompletes := by
  unfold Obligations.EngineStartsAndCompletes
  refine ⟨rfl, fun s hmove => ⟨?_, ?_, ?_⟩⟩
  · intro w ws hidle herr hq
    rw [step_start hmove hidle, startStep, passed_queue, hq]
    simp [herr]
  · intro hidle hnone
    rw [step_start hmove hidle]
    rcases startStep_cases (passed s) with ⟨w, ws, herr, hq, -⟩ | ⟨-, heq⟩
    · rcases hnone with he | he
      · exact Bool.noConfusion (herr.symm.trans he)
      · exact absurd (hq.symm.trans he) (List.cons_ne_nil w ws)
    · rw [heq]
  · intro w hw
    obtain ⟨t, ht, hidle⟩ := completeStep_next w (passed s)
    exact ⟨t, (step_complete ⟨hmove, hw⟩).trans ht, ht, hidle⟩

/-! ## What the start step leaves as it is -/

theorem startStep_frame (s : State) :
    startStep s = { s with queue := (startStep s).queue, engine := (startStep s).engine } := by
  rcases startStep_cases s with ⟨w, ws, -, -, h⟩ | ⟨-, h⟩ <;> rw [h]

@[simp] theorem startStep_done (s : State) : (startStep s).done = s.done := by rw [startStep_frame]
@[simp] theorem startStep_err (s : State) : (startStep s).err = s.err := by rw [startStep_frame]
@[simp] theorem startStep_drop (s : State) : (startStep s).drop = s.drop := by rw [startStep_frame]
@[simp] theorem startStep_retired (s : State) : (startStep s).retired = s.retired := by rw [startStep_frame]
@[simp] theorem startStep_errcmd (s : State) : (startStep s).errcmd = s.errcmd := by rw [startStep_frame]
@[simp] theorem startStep_erridx (s : State) : (startStep s).erridx = s.erridx := by rw [startStep_frame]
@[simp] theorem startStep_errloc (s : State) : (startStep s).errloc = s.errloc := by rw [startStep_frame]

/-- With ERR = 1 there is nothing to start. -/
theorem startStep_of_err {s : State} (h : s.err = true) : startStep s = s := by
  rcases startStep_cases s with ⟨_, _, herr, -, -⟩ | ⟨-, heq⟩
  · exact Bool.noConfusion (herr.symm.trans h)
  · exact heq

/-! ## The moves that touch the control registers, of which a turn that leaves the unit as it is performs none -/

theorem TouchesNoControl.not_softReset {s : State} (h : TouchesNoControl s) : ¬ SoftResetMove s := by
  rw [softResetMove_iff]
  rintro ⟨w, hw, -⟩
  exact (h _ _ hw).1 rfl

theorem TouchesNoControl.not_clear {s : State} (h : TouchesNoControl s) : ¬ ClearMove s := by
  rw [clearMove_iff]
  rintro ⟨w, hw, -⟩
  exact (h _ _ hw).1 rfl

theorem TouchesNoControl.not_status {s : State} {k : Nat} (h : TouchesNoControl s) : ¬ StatusMove s k := by
  rw [statusMove_iff]
  rintro ⟨w, hw, -⟩
  exact (h _ _ hw).2.1 rfl

theorem TouchesNoControl.not_drop {s : State} (h : TouchesNoControl s) : ¬ DropMove s := by
  rw [dropMove_iff]
  rintro ⟨he, w, hw⟩
  exact Bool.noConfusion (((h _ _ hw).2.2 rfl).symm.trans he)

/-! ## DONE, ERR and DROP after a step -/

/-- Counting a command changes RETIRED. -/
theorem add_one_ne_self (r : Word) : r + 1#32 ≠ r := by
  simp

/-- R46. -/
theorem done_moved {s t : State} (h : Moved s t) :
    t.done = true ↔
      (s.queue = [] ∧ ∃ w, CompleteMove s w ∧ t.retired = s.retired + 1#32) ∨
        (s.done = true ∧ ¬ StatusMove s 1 ∧ ¬ SoftResetMove s ∧ ¬ PinMove s) := by
  cases h with
  | pin level hp =>
    have hpin : PinMove s := ⟨level, hp⟩
    simp [not_complete_of_pin hp, hpin]
  | started he hidle =>
    simp [statusMove_iff, softResetMove_iff, he.not_write, he.not_pin, not_complete_of_idle hidle]
  | completed hc ht =>
    cases ht <;> simp [statusMove_iff, softResetMove_iff, hc.iff, hc.1.not_write, hc.1.not_pin, or_comm]
  | wrote hw hu =>
    cases hu <;> simp_all [statusMove_iff, softResetMove_iff, hw.iff, hw.not_complete, hw.not_pin]
  | unmoved txns resps sched draws hcomplete hpin hwrite =>
    simp [hcomplete, hpin, hwrite.not_status, hwrite.not_softReset]

/-- R47. -/
theorem err_moved {s t : State} (h : Moved s t) :
    t.err = true ↔
      (∃ w, CompleteMove s w ∧ t.retired = s.retired) ∨
        (s.err = true ∧ ¬ ClearMove s ∧ ¬ SoftResetMove s ∧ ¬ PinMove s) := by
  cases h with
  | pin level hp =>
    have hpin : PinMove s := ⟨level, hp⟩
    simp [not_complete_of_pin hp, hpin]
  | started he hidle =>
    simp [clearMove_iff, softResetMove_iff, he.not_write, he.not_pin, not_complete_of_idle hidle]
  | completed hc ht =>
    cases ht <;> simp [clearMove_iff, softResetMove_iff, hc.iff, hc.1.not_write, hc.1.not_pin]
  | wrote hw hu =>
    cases hu <;> simp_all [clearMove_iff, softResetMove_iff, hw.iff, hw.not_complete, hw.not_pin]
  | unmoved txns resps sched draws hcomplete hpin hwrite =>
    simp [hcomplete, hpin, hwrite.not_clear, hwrite.not_softReset]

/-- R48. -/
theorem drop_moved {s t : State} (h : Moved s t) :
    t.drop = true ↔
      DropMove s ∨ (s.drop = true ∧ ¬ StatusMove s 3 ∧ ¬ SoftResetMove s ∧ ¬ PinMove s) := by
  cases h with
  | pin level hp =>
    have hpin : PinMove s := ⟨level, hp⟩
    simp [dropMove_iff, not_write_of_pin hp, hpin]
  | started he hidle =>
    simp [dropMove_iff, statusMove_iff, softResetMove_iff, he.not_write, he.not_pin]
  | completed hc ht =>
    cases ht <;> simp [dropMove_iff, statusMove_iff, softResetMove_iff, hc.1.not_write, hc.1.not_pin]
  | wrote hw hu =>
    cases hu <;> simp_all [dropMove_iff, statusMove_iff, softResetMove_iff, hw.iff, hw.not_pin]
  | unmoved txns resps sched draws hcomplete hpin hwrite =>
    simp [hpin, hwrite.not_drop, hwrite.not_status, hwrite.not_softReset]

/-- R47, R87: while ERR = 1 an idle engine starts nothing and no word is queued. -/
theorem halted_moved {s t : State} (h : Moved s t) (herr : s.err = true) (hidle : s.engine = .idle) :
    t.engine = .idle ∧ t.queue.length ≤ s.queue.length := by
  cases h with
  | pin => simp
  | started => rw [startStep_of_err (s := passed s) herr]; exact ⟨hidle, le_rfl⟩
  | completed hc => exact absurd hc (not_complete_of_idle hidle)
  | wrote hw hu => cases hu <;> simp_all
  | unmoved => exact ⟨hidle, le_rfl⟩

/-- Settles O14, bit by bit. -/
theorem statusBitsChangeExactlyAsTheRulesSay : Obligations.StatusBitsChangeExactlyAsTheRulesSay := by
  unfold Obligations.StatusBitsChangeExactlyAsTheRulesSay
  refine ⟨rfl, rfl, rfl, fun s t hstep => ?_⟩
  have h := step_moved hstep
  exact ⟨done_moved h, err_moved h, drop_moved h, halted_moved h⟩

/-! ## RETIRED and the diagnostics after a step -/

/-- R292: the soft reset clears the counter and the diagnostics. -/
theorem diagnostics_softReset {s t : State} (h : Moved s t) (hsoft : SoftResetMove s) :
    t.retired = 0#32 ∧ t.errcmd = 0#32 ∧ t.erridx = 0#32 ∧ t.errloc = 0#32 := by
  obtain ⟨v, hv, h1⟩ := softResetMove_iff.1 hsoft
  cases h with
  | pin level hp => exact absurd hv (not_write_of_pin hp)
  | started he => exact absurd hv he.not_write
  | completed hc => exact absurd hv hc.1.not_write
  | wrote hw hu =>
    obtain ⟨rfl, rfl⟩ := hw.iff.1 hv
    cases hu with
    | softReset => simp
    | clearError hno => exact Bool.noConfusion (hno.symm.trans h1)
    | noControl hno => exact Bool.noConfusion (hno.symm.trans h1)
    | ignored hctrl => exact absurd rfl hctrl
  | unmoved txns resps sched draws hcomplete hpin hwrite => exact absurd hsoft hwrite.not_softReset

/-- R264: a complete step that does not count has faulted and says where. -/
theorem diagnostics_of_fault {s t : State} {w : Word} (ht : CommandEnd w s t) (h : t.retired = s.retired) :
    t.err = true ∧ t.errcmd = w ∧ t.erridx = s.retired ∧ bits t.errloc 31 16 = 0 ∧
      (t.errcode = .operandRange ∧ bits t.errloc 15 15 = 1 ∨ t.errcode = .illegalCommand ∧ t.errloc = 0#32) := by
  cases ht with
  | retires => exact absurd h (add_one_ne_self _)
  | outOfRange hi l n hl =>
    obtain ⟨hhigh, hvalid⟩ := commandEnd_errloc hi hl
    exact ⟨rfl, rfl, rfl, hhigh, .inl ⟨rfl, hvalid⟩⟩
  | illegal => exact ⟨rfl, rfl, rfl, by simp [bits], .inr ⟨rfl, rfl⟩⟩

/-- R263: a complete step that changes RETIRED counts one and keeps the diagnostics. -/
theorem diagnostics_of_completion {s t : State} {w : Word} (ht : CommandEnd w s t) (h : t.retired ≠ s.retired) :
    t.retired = s.retired + 1#32 ∧ t.err = s.err ∧ t.errcmd = s.errcmd ∧ t.erridx = s.erridx ∧
      t.errloc = s.errloc := by
  cases ht with
  | retires => exact ⟨rfl, rfl, rfl, rfl, rfl⟩
  | outOfRange => exact absurd rfl h
  | illegal => exact absurd rfl h

/-- Every step that neither resets nor completes keeps the counter and the diagnostics. -/
theorem diagnostics_kept {s t : State} (h : Moved s t) (hsoft : ¬ SoftResetMove s) (hpin : ¬ PinMove s)
    (hcomplete : ∀ w, ¬ CompleteMove s w) :
    t.retired = s.retired ∧ t.errcmd = s.errcmd ∧ t.erridx = s.erridx ∧ t.errloc = s.errloc := by
  cases h with
  | pin level hp => exact absurd ⟨level, hp⟩ hpin
  | started => simp
  | completed hc => exact absurd hc (hcomplete _)
  | wrote hw hu =>
    cases hu with
    | softReset h1 => exact absurd (softResetMove_iff.2 ⟨_, hw, h1⟩) hsoft
    | _ => simp [State.setP]
  | unmoved => simp

/-- A complete step, seen from the state before its turn. -/
theorem commandEnd_of_moved {s t : State} {w : Word} (h : Moved s t) (hc : CompleteMove s w) :
    CommandEnd w (passed s) t := by
  cases h with
  | pin level hp => exact absurd hc (not_complete_of_pin hp)
  | started he hidle => exact absurd hc (not_complete_of_idle hidle)
  | completed hc' ht =>
    obtain rfl := hc.iff.1 hc'
    exact ht
  | wrote hw => exact absurd hc hw.not_complete
  | unmoved txns resps sched draws hcomplete => exact absurd hc (hcomplete w)

/-- Settles O15: the resets, the two ends of a complete step, and every other move. -/
theorem counterAndDiagnosticsChangeExactlyAsTheRulesSay :
    Obligations.CounterAndDiagnosticsChangeExactlyAsTheRulesSay := by
  unfold Obligations.CounterAndDiagnosticsChangeExactlyAsTheRulesSay
  intro s t hstep
  have h := step_moved hstep
  refine ⟨?_, fun w hc => ?_, diagnostics_kept h⟩
  · rintro (hsoft | hpin)
    · exact diagnostics_softReset h hsoft
    · rw [step_pin hpin] at hstep
      cases hstep
      simp
  · have ht := commandEnd_of_moved h hc
    exact ⟨diagnostics_of_fault (s := passed s) ht, diagnostics_of_completion (s := passed s) ht⟩

end Sys2Proof.Machine
end

section
/-! A command's effect depends on the registers, PMEM and the count of drawn free values only (10_state.md R58,
20_memory.md R92). -/

namespace Sys2Proof.Machine

/-- Two results of reading and computing in the states s and t: both the same illegal word, or both the same registers
and PMEM, written into s and into t. -/
inductive SameResult (s t : State) : Fetched State → Fetched State → Prop
  | ok (sreg : Vector Slot 16) (m : Mem) (n : Nat) :
      SameResult s t (.ok { s with sreg := sreg, pmem := m } n) (.ok { t with sreg := sreg, pmem := m } n)
  | bad (l : Loc) (n : Nat) : SameResult s t (.bad l n) (.bad l n)

/-- Both computations go on from the same value read. -/
theorem SameResult.bind {s t : State} {α : Type} (r : Fetched α) {f g : α → Nat → Fetched State}
    (h : ∀ v n, SameResult s t (f v n) (g v n)) : SameResult s t (r.bind f) (r.bind g) := by
  cases r with
  | ok v n => exact h v n
  | bad l n => exact .bad l n

/-- The command i ends in both states with the same result. -/
def SameEffect (i : Instr) (s t : State) (f : State → Host.Outcome State Fault Refusal) : Prop :=
  ∃ r r', f s = .next (finish i s r) ∧ f t = .next (finish i t r') ∧ SameResult s t r r'

section Shapes

variable {s t : State} (h : SameData s t)
include h

theorem SameData.sreg_eq : t.sreg = s.sreg := h.2.1.symm
theorem SameData.pmem_eq : t.pmem = s.pmem := h.2.2.1.symm
theorem SameData.draws_eq : t.draws = s.draws := h.2.2.2.symm

theorem SameData.readS_eq (a : SReg) (ty : OpType) (n : Nat) : readS t a ty n = readS s a ty n := by
  rw [readS, readS, State.s, State.s, h.sreg_eq]

/-- The same registers and PMEM written into both states. -/
theorem SameData.same_writeS (d : SReg) (v : Int) (n : Nat) :
    SameResult s t (.ok (s.writeS d v) n) (.ok (t.writeS d v) n) := by
  have hs : s.writeS d v = { s with sreg := s.sreg.set d (.val (wordOf v)), pmem := s.pmem } := rfl
  have ht : t.writeS d v = { t with sreg := s.sreg.set d (.val (wordOf v)), pmem := s.pmem } := by
    rw [← h.sreg_eq, ← h.pmem_eq]; rfl
  rw [hs, ht]
  exact .ok _ _ n

theorem SameData.same_writeS_writeS (d b : SReg) (u v : Int) (n : Nat) :
    SameResult s t (.ok ((s.writeS d u).writeS b v) n) (.ok ((t.writeS d u).writeS b v) n) := by
  have hs : (s.writeS d u).writeS b v =
      { s with sreg := (s.sreg.set d (.val (wordOf u))).set b (.val (wordOf v)), pmem := s.pmem } := rfl
  have ht : (t.writeS d u).writeS b v =
      { t with sreg := (s.sreg.set d (.val (wordOf u))).set b (.val (wordOf v)), pmem := s.pmem } := by
    rw [← h.sreg_eq, ← h.pmem_eq]; rfl
  rw [hs, ht]
  exact .ok _ _ n

theorem SameData.same_setMem (m : Mem) (n : Nat) : SameResult s t (.ok (s.setMem m) n) (.ok (t.setMem m) n) := by
  have hs : s.setMem m = { s with sreg := s.sreg, pmem := m } := rfl
  have ht : t.setMem m = { t with sreg := s.sreg, pmem := m } := by rw [← h.sreg_eq]; rfl
  rw [hs, ht]
  exact .ok _ _ n

theorem SameData.sameEffect_scalarUnary (i : Instr) (ty : OpType) (f : Int → Int) (d a : SReg) :
    SameEffect i s t (scalarUnary i ty f d a) := by
  refine ⟨_, _, rfl, rfl, ?_⟩
  rw [h.readS_eq, h.draws_eq]
  exact .bind _ fun x n => h.same_writeS d _ n

theorem SameData.sameEffect_scalarBinary (i : Instr) (ty ty' : OpType) (f : Int → Int → Int) (d a b : SReg) :
    SameEffect i s t (scalarBinary i ty ty' f d a b) := by
  refine ⟨_, _, rfl, rfl, ?_⟩
  simp only [h.readS_eq, h.draws_eq]
  exact .bind _ fun x n => .bind _ fun y n => h.same_writeS d _ n

theorem SameData.sameEffect_scalarPair (i : Instr) (ty : OpType) (f : Int → Int × Int) (d a b : SReg) :
    SameEffect i s t (scalarPair i ty f d a b) := by
  refine ⟨_, _, rfl, rfl, ?_⟩
  rw [h.readS_eq, h.draws_eq]
  exact .bind _ fun x n => h.same_writeS_writeS d b _ _ n

theorem SameData.sameEffect_scalarConst (i : Instr) (v : Int) (d : SReg) : SameEffect i s t (scalarConst i v d) := by
  refine ⟨_, _, rfl, rfl, ?_⟩
  rw [h.draws_eq]
  exact h.same_writeS d v _

theorem SameData.sameEffect_polyUnary (i : Instr) (ty : OpType) (f : List Int → List Int) (d a : PReg) (v : VLen) :
    SameEffect i s t (polyUnary i ty f d a v) := by
  refine ⟨_, _, rfl, rfl, ?_⟩
  rw [h.pmem_eq, h.draws_eq]
  exact .bind _ fun m n => h.same_setMem m n

theorem SameData.sameEffect_polyBinary (i : Instr) (ty ty' : OpType) (f : Int → Int → Int) (d a b : PReg) (v : VLen)
    (c : Bcast) : SameEffect i s t (polyBinary i ty ty' f d a b v c) := by
  refine ⟨_, _, rfl, rfl, ?_⟩
  rw [h.pmem_eq, h.draws_eq]
  exact .bind _ fun m n => h.same_setMem m n

theorem SameData.sameEffect_polyPair (i : Instr) (ty : OpType) (f : Int → Int × Int) (d a b : PReg) (v : VLen) :
    SameEffect i s t (polyPair i ty f d a b v) := by
  refine ⟨_, _, rfl, rfl, ?_⟩
  rw [h.pmem_eq, h.draws_eq]
  exact .bind _ fun m n => h.same_setMem m n

theorem SameData.sameEffect_polyReduce (i : Instr) (ty : OpType) (g : Int → Int → Int) (d : SReg) (a : PReg)
    (v : VLen) : SameEffect i s t (polyReduce i ty g d a v) := by
  refine ⟨_, _, rfl, rfl, ?_⟩
  rw [h.pmem_eq, h.draws_eq]
  exact .bind _ fun acc n => h.same_writeS d acc n

theorem SameData.sameEffect_execNop : SameEffect .nop s t execNop := by
  refine ⟨_, _, rfl, rfl, ?_⟩
  have ht : t.setMem s.pmem = t := by rw [← h.pmem_eq]; rfl
  have hsame := h.same_setMem s.pmem s.draws
  rw [ht] at hsame
  rw [h.draws_eq]
  exact hsame

theorem SameData.sameEffect_execPsmul (d a : PReg) (b : SReg) (v : VLen) :
    SameEffect (.psmul d a b v) s t (execPsmul d a b v) := by
  refine ⟨_, _, rfl, rfl, ?_⟩
  rw [h.readS_eq, h.pmem_eq, h.draws_eq]
  exact .bind _ fun k n => .bind _ fun m n => h.same_setMem m n

theorem SameData.sameEffect_execPdot (d a b : PReg) (v : VLen) (c : Bcast) :
    SameEffect (.pdot d a b v c) s t (execPdot d a b v c) := by
  refine ⟨_, _, rfl, rfl, ?_⟩
  rw [h.pmem_eq, h.draws_eq]
  exact .bind _ fun acc n => h.same_setMem _ n

/-- Every command reads only the data. -/
theorem SameData.sameEffect_exec (i : Instr) : SameEffect i s t (exec i) := by
  cases i
  case nop => exact h.sameEffect_execNop
  case psmul => exact h.sameEffect_execPsmul _ _ _ _
  case pdot => exact h.sameEffect_execPdot _ _ _ _ _
  case li | zeta => exact h.sameEffect_scalarConst _ _ _
  case neg | red | tosym | fromsym | norm | mov | high | low => exact h.sameEffect_scalarUnary _ _ _ _ _
  case add | sub | mul | mkhint | usehint => exact h.sameEffect_scalarBinary _ _ _ _ _ _ _
  case p2r | decomp => exact h.sameEffect_scalarPair _ _ _ _ _ _
  case pneg | pmov | ptosym | pfromsym | pred | ntt | intt | phigh | plow => exact h.sameEffect_polyUnary _ _ _ _ _ _
  case padd | psub | pmul | pmkhint | pusehint => exact h.sameEffect_polyBinary _ _ _ _ _ _ _ _ _
  case pp2r | pdecomp => exact h.sameEffect_polyPair _ _ _ _ _ _ _
  case pnorm | pnormz | pwgt => exact h.sameEffect_polyReduce _ _ _ _ _ _

/-- Making destinations ⊥ is the same in both states. -/
theorem SameData.clobber (ds : List Dest) : SameData (clobber ds s) (clobber ds t) := by
  induction ds generalizing s t with
  | nil => exact h
  | cons d ds ih =>
    obtain ⟨hcfg, hsreg, hpmem, hdraws⟩ := h
    cases d with
    | s r => exact ih ⟨hcfg, by simp [clobberOne, hsreg], hpmem, hdraws⟩
    | p r => exact ih ⟨hcfg, hsreg, by simp [clobberOne, hpmem], hdraws⟩

end Shapes

/-- Settles O19: both runs end in the same way, and so with the same data. -/
theorem commandsDoNotReadTheControlRegisters : Obligations.CommandsDoNotReadTheControlRegisters := by
  unfold Obligations.CommandsDoNotReadTheControlRegisters
  intro i s t h
  obtain ⟨r, r', hs, ht, hsame⟩ := h.sameEffect_exec i
  refine ⟨_, _, hs, ht, ?_⟩
  cases hsame with
  | ok sreg m n =>
    have hs : (finish i s (.ok { s with sreg := sreg, pmem := m } n)).retired ≠ s.retired := add_one_ne_self _
    have ht : (finish i t (.ok { t with sreg := sreg, pmem := m } n)).retired ≠ t.retired := add_one_ne_self _
    exact ⟨⟨h.1, rfl, rfl, rfl⟩, by simp only [hs, ht], fun he => absurd he hs⟩
  | bad l n =>
    obtain ⟨hcfg, hsreg, hpmem, -⟩ := h
    have hdata : SameData { s with draws := n } { t with draws := n } := ⟨hcfg, hsreg, hpmem, rfl⟩
    have hcleared := hdata.clobber (destsOf i)
    have hretired (u : State) : (finish i u (.bad l n)).retired = u.retired := by rw [finish_bad]; rfl
    exact ⟨hcleared, by simp only [hretired], fun _ => ⟨rfl, rfl, rfl⟩⟩

end Sys2Proof.Machine
end

section
/-! The registers as the host reads and writes them (10_state.md R40 to R57), and the state after reset (R60). -/

namespace Sys2Proof.Machine

/-! ## Reads and writes of a register -/

/-- A read of a register that is answered with the word v. -/
theorem step_read_register {s : State} {a : Nat} {rest : List BusReq} {x : Target} {v : Word}
    (hx : targetOf s.cfg.npoly (BitVec.ofNat 17 a) = x) (hv : busRead x (passed s) = respond v (passed s))
    (h4 : a % 4 = 0) (h : HostReads s a rest) : step s = .next (answered s rest v false) := by
  rw [step_read h h4, hx, hv]
  rfl

/-- A write of w to a register that is answered and leaves the state u. -/
theorem step_write_register {s u : State} {a : Nat} {w : Word} {rest : List BusReq} {x : Target}
    (hx : targetOf s.cfg.npoly (BitVec.ofNat 17 a) = x) (hw : busWrite x w (passed s) = respond 0#32 (passed u))
    (h4 : a % 4 = 0) (h : HostWrites s a w rest) :
    step s = .next (answered u rest 0#32 false) := by
  rw [step_write h h4, hx, hw]
  rfl

/-! ## The constant registers -/

/-- R41: the fields of CONFIG. -/
theorem bits_configWord {c : Config} (h : c.wf) :
    bits (configWord c) 7 0 = c.npoly.count ∧ bits (configWord c) 15 8 = 16 ∧ bits (configWord c) 23 16 = c.cqDepth ∧
      bits (configWord c) 31 24 = 1 := by
  have hcount := NPoly.count_le c.npoly
  have hdepth := h.2
  simp only [configWord, bits, BitVec.toNat_ofNat]
  omega

/-- Settles O50, by the fields of CONFIG. -/
theorem constantRegisters : Obligations.ConstantRegisters := by
  unfold Obligations.ConstantRegisters
  intro s rest hcfg
  refine ⟨step_read_register rfl rfl rfl, step_read_register rfl rfl rfl, fun h => ?_⟩
  obtain ⟨hnpoly, hnsreg, hdepth, hversion⟩ := bits_configWord hcfg
  refine ⟨configWord s.cfg, step_read_register rfl rfl rfl h, hnpoly, hnsreg, hdepth, hversion, fun hdefault => ?_⟩
  rw [hdefault]
  decide

/-! ## STATUS -/

theorem ErrCode.code_le (k : ErrCode) : k.code ≤ 2 := by cases k <;> decide

/-- R44: the fields of STATUS. -/
theorem bits_statusWord {s : State} (h : s.queue.length ≤ 255) :
    bits s.statusWord 0 0 = s.busy.toNat ∧ bits s.statusWord 1 1 = s.done.toNat ∧
      bits s.statusWord 2 2 = s.err.toNat ∧ bits s.statusWord 3 3 = s.drop.toNat ∧ bits s.statusWord 7 4 = 0 ∧
      bits s.statusWord 11 8 = s.errcode.code ∧ bits s.statusWord 15 12 = 0 ∧
      bits s.statusWord 23 16 = s.queue.length ∧ bits s.statusWord 31 24 = 0 := by
  have hbusy := Bool.toNat_le s.busy
  have hdone := Bool.toNat_le s.done
  have herr := Bool.toNat_le s.err
  have hdrop := Bool.toNat_le s.drop
  have hcode := ErrCode.code_le s.errcode
  simp only [State.statusWord, State.qlevel, bits, BitVec.toNat_ofNat]
  omega

/-- R45: BUSY. -/
theorem busy_toNat (s : State) : s.busy.toNat = if s.engine = .idle ∧ s.queue = [] then 0 else 1 := by
  cases hq : s.queue <;> cases he : s.engine <;> simp [State.busy, hq, he]

/-- Settles O51, by the fields of STATUS and the effect of a STATUS write. -/
theorem statusRegister : Obligations.StatusRegister := by
  unfold Obligations.StatusRegister
  refine ⟨by decide, fun s rest hlen => ⟨fun h => ?_, fun w h => ⟨0#32, ?_⟩⟩⟩
  · refine ⟨s.statusWord, step_read_register rfl rfl rfl h, ?_⟩
    rw [← busy_toNat]
    exact bits_statusWord hlen
  · refine step_write_register (x := .status) rfl ?_ rfl h
    rw [busWrite, statusWrite_eq]
    rfl

/-! ## IE and irq -/

theorem irq_iff (s : State) : s.irq = true ↔ (s.done = true ∧ s.doneIe = true) ∨ (s.err = true ∧ s.errIe = true) := by
  simp [State.irq]

/-- R51: the fields of IE. -/
theorem bits_ieWord (s : State) :
    bits s.ieWord 0 0 = s.doneIe.toNat ∧ bits s.ieWord 1 1 = s.errIe.toNat ∧ bits s.ieWord 31 2 = 0 := by
  have hdone := Bool.toNat_le s.doneIe
  have herr := Bool.toNat_le s.errIe
  simp only [State.ieWord, bits, BitVec.toNat_ofNat]
  omega

/-- Settles O52: an IE write is a register write, the other four clauses are register reads. -/
theorem interruptEnableAndReadOnlyRegisters : Obligations.InterruptEnableAndReadOnlyRegisters := by
  unfold Obligations.InterruptEnableAndReadOnlyRegisters
  refine ⟨by decide, rfl, irq_iff, fun s rest => ⟨fun w h => ⟨0#32, ?_, rfl⟩, fun h => ?_, ?_, ?_, ?_, ?_⟩⟩
  · refine step_write_register (x := .ie) rfl ?_ rfl h
    rw [busWrite, ieWrite_eq]
    rfl
  · exact ⟨s.ieWord, step_read_register rfl rfl rfl h, bits_ieWord s⟩
  · exact step_read_register rfl rfl rfl
  · exact step_read_register rfl rfl rfl
  · exact step_read_register rfl rfl rfl
  · exact step_read_register rfl rfl rfl

/-! ## The state after reset -/

/-- R210: the table of ZROM is the formula, entry by entry. -/
theorem zromTable_eq : zromTable = (List.range 256).map fun k => 1753 ^ brv8 k % 8380417 := by decide +kernel

theorem zrom_eq_formula (k : Fin 256) : zrom k.val = (1753 ^ brv8 k.val : Int) % q := by
  have hk : zromTable.getD k.val 0 = 1753 ^ brv8 k.val % 8380417 := by
    rw [zromTable_eq, List.getD_eq_getElem?_getD, List.getElem?_map, List.getElem?_range k.isLt]
    rfl
  rw [zrom, hk, q]
  push_cast
  rfl

/-- R44, R60: a unit after reset is not busy and has no status bit set. -/
theorem statusWord_resetWith (cfg : Config) : (State.resetWith cfg).statusWord = 0#32 := by
  simp [State.statusWord, State.busy, State.qlevel, ErrCode.code, State.resetWith]

theorem s_resetWith (cfg : Config) (r : SReg) : (State.resetWith cfg).s r = .bot := by
  simp [State.s, State.resetWith, Vector.get]

/-- Settles O13: the constants and ZROM are evaluated, the rest is the reset state field by field. -/
theorem resetValues : Obligations.ResetValues := by
  unfold Obligations.ResetValues
  refine ⟨rfl, by decide, zrom_eq_formula, fun cfg => ?_⟩
  exact ⟨s_resetWith cfg, fun _ _ => rfl, rfl, rfl, rfl, by decide, statusWord_resetWith cfg, rfl, rfl, rfl, rfl, rfl,
    rfl⟩

end Sys2Proof.Machine
end

section
/-! What the host's accesses do: the address map by word addresses, and each kind of access (20_memory.md R70 to R87). -/

namespace Sys2Proof.Machine

/-! ## The address map -/

/-- The word addresses of a target (R71 to R75). -/
def WordAddress (np : NPoly) (a : Nat) : Target → Prop
  | .id => a = 0x00
  | .config => a = 0x04
  | .qval => a = 0x08
  | .ctrl => a = 0x0C
  | .status => a = 0x10
  | .ie => a = 0x14
  | .cmd => a = 0x18
  | .retired => a = 0x1C
  | .errcmd => a = 0x20
  | .erridx => a = 0x24
  | .errloc => a = 0x28
  | .sreg i => a = 0x100 + 4 * i.val
  | .zrom k => k < 256 ∧ a = 0x400 + 4 * k
  | .pmem r c => r < np.count ∧ c < 256 ∧ a = 0x10000 + 1024 * r + 4 * c
  | .reserved => ReservedAddress np a

theorem WordAddress.aligned {np : NPoly} {a : Nat} {x : Target} (h : WordAddress np a x) : a % 4 = 0 := by
  cases x <;> simp only [WordAddress, ReservedAddress] at h <;> omega

/-- Above the control registers the map has the two windows, ZROM and reserved addresses. -/
theorem targetOf_of_ge {np : NPoly} {a : BitVec 17} (h : 0x2C ≤ a.toNat) :
    targetOf np a =
      if 0x100 ≤ a.toNat ∧ a.toNat < 0x140 then .sreg (sField ((a.toNat - 0x100) / 4))
      else if 0x400 ≤ a.toNat ∧ a.toNat < 0x800 then .zrom ((a.toNat - 0x400) / 4)
      else if 0x10000 ≤ a.toNat ∧ bits a 15 10 < np.count then .pmem (bits a 15 10) (bits a 9 2)
      else .reserved := by
  unfold targetOf
  iterate 11 rw [if_neg (by omega)]

/-- Every word address is one of the target the map names there. -/
theorem wordAddress_targetOf {np : NPoly} {a : BitVec 17} (h4 : a.toNat % 4 = 0) :
    WordAddress np a.toNat (targetOf np a) := by
  have hlt := a.isLt
  unfold targetOf
  iterate 11 refine iteInduction (motive := WordAddress np a.toNat) id fun _ => ?_
  split_ifs with hsreg hzrom hpmem
  · simp only [WordAddress, sField, Fin.ofNat]
    omega
  · exact ⟨by omega, by omega⟩
  · simp only [bits] at hpmem
    simp only [WordAddress, bits]
    omega
  · simp only [bits] at hpmem
    simp only [WordAddress, ReservedAddress]
    omega

/-- The map names the target at each of its word addresses. -/
theorem targetOf_of_wordAddress {np : NPoly} {a : Nat} {x : Target} (h : WordAddress np a x) :
    targetOf np (BitVec.ofNat 17 a) = x := by
  have hcount := NPoly.count_le np
  have hlow : ∀ {b : Nat}, b < 0x20000 → (BitVec.ofNat 17 b).toNat = b := fun hb => by simpa using hb
  cases x
  case sreg i =>
    obtain rfl : a = 0x100 + 4 * i.val := h
    have ha := hlow (b := 0x100 + 4 * i.val) (by omega)
    rw [targetOf_of_ge (by omega), if_pos (by omega), ha]
    congr 1
    apply Fin.ext
    simp only [sField, Fin.ofNat]
    omega
  case zrom k =>
    obtain ⟨hk, rfl⟩ := h
    have ha := hlow (b := 0x400 + 4 * k) (by omega)
    rw [targetOf_of_ge (by omega), if_neg (by omega), if_pos (by omega), ha]
    congr 1
    omega
  case pmem r c =>
    obtain ⟨hr, hc, rfl⟩ := h
    have ha := hlow (b := 0x10000 + 1024 * r + 4 * c) (by omega)
    have hreg : bits (BitVec.ofNat 17 (0x10000 + 1024 * r + 4 * c)) 15 10 = r := by rw [bits, ha]; omega
    have hcoef : bits (BitVec.ofNat 17 (0x10000 + 1024 * r + 4 * c)) 9 2 = c := by rw [bits, ha]; omega
    rw [targetOf_of_ge (by omega), if_neg (by omega), if_neg (by omega), hreg, hcoef, if_pos (by omega)]
  case reserved =>
    obtain ⟨h4, hrange⟩ := h
    have ha := hlow (b := a) (by omega)
    have hreg : 0x10000 ≤ a → np.count ≤ bits (BitVec.ofNat 17 a) 15 10 := by rw [bits, ha]; omega
    rw [targetOf_of_ge (by omega), if_neg (by omega), if_neg (by omega), if_neg (by omega)]
  all_goals
    obtain rfl := h
    rfl

/-- The map, both ways, for an aligned address. -/
theorem targetOf_eq_iff {np : NPoly} {a : BitVec 17} (h4 : a.toNat % 4 = 0) {x : Target} :
    targetOf np a = x ↔ WordAddress np a.toNat x := by
  constructor
  · rintro rfl
    exact wordAddress_targetOf h4
  · intro h
    simpa using targetOf_of_wordAddress h

/-! ## Reads and writes of a target by its word address -/

theorem step_read_target {s : State} {a : Nat} {rest : List BusReq} {x : Target}
    (hx : WordAddress s.cfg.npoly a x) (h : HostReads s a rest) :
    step s = .next (hostAnswer s rest (busRead x (passed s))) := by
  rw [step_read h hx.aligned, targetOf_of_wordAddress hx]

theorem step_write_target {s : State} {a : Nat} {w : Word} {rest : List BusReq} {x : Target}
    (hx : WordAddress s.cfg.npoly a x) (h : HostWrites s a w rest) :
    step s = .next (hostAnswer s rest (busWrite x w (passed s))) := by
  rw [step_write h hx.aligned, targetOf_of_wordAddress hx]

/-! ## Reserved, read-only and ZROM addresses -/

/-- R73, R75: the targets that ignore a write. -/
def IgnoresWrites (x : Target) : Prop := ∀ w s, busWrite x w s = respond 0#32 s

theorem ignoresWrites_reserved : IgnoresWrites .reserved := fun _ _ => rfl

/-- A reserved address, the address of a read-only register or one of ZROM names a target that ignores writes. -/
theorem exists_ignoresWrites {np : NPoly} {a : Nat}
    (h : ReservedAddress np a ∨ a ∈ [0x000, 0x004, 0x008, 0x01C, 0x020, 0x024, 0x028] ∨
      ∃ k, k < 256 ∧ a = 0x400 + 4 * k) : ∃ x, WordAddress np a x ∧ IgnoresWrites x := by
  rcases h with h | h | ⟨k, hk, ha⟩
  · exact ⟨.reserved, h, ignoresWrites_reserved⟩
  · simp only [List.mem_cons, List.not_mem_nil, or_false] at h
    rcases h with h | h | h | h | h | h | h
    · exact ⟨.id, h, fun _ _ => rfl⟩
    · exact ⟨.config, h, fun _ _ => rfl⟩
    · exact ⟨.qval, h, fun _ _ => rfl⟩
    · exact ⟨.retired, h, fun _ _ => rfl⟩
    · exact ⟨.errcmd, h, fun _ _ => rfl⟩
    · exact ⟨.erridx, h, fun _ _ => rfl⟩
    · exact ⟨.errloc, h, fun _ _ => rfl⟩
  · exact ⟨.zrom k, ⟨hk, ha⟩, fun _ _ => rfl⟩

theorem step_write_ignored {s : State} {a : Nat} {w : Word} {rest : List BusReq} {x : Target}
    (hx : WordAddress s.cfg.npoly a x) (hign : IgnoresWrites x) (h : HostWrites s a w rest) :
    step s = .next (answered s rest 0#32 false) := by
  rw [step_write_target hx h, hign]
  rfl

/-- R73: the word of ZROM[k]. -/
theorem wordOf_zrom (k : Nat) : wordOf (zrom k) = BitVec.ofNat 32 (zromTable.getD k 0) :=
  BitVec.ofInt_natCast 32 _

/-- Settles O53: each address names its target, which answers at once. -/
theorem reservedReadOnlyAndRomAccesses : Obligations.ReservedReadOnlyAndRomAccesses := by
  unfold Obligations.ReservedReadOnlyAndRomAccesses
  intro s rest a
  refine ⟨fun hres h => ?_, fun ha w h => ?_, fun k hk h => ?_, ?_, ?_⟩
  · exact step_read_target (x := .reserved) hres h
  · obtain ⟨x, hx, hign⟩ := exists_ignoresWrites ha
    exact ⟨_, step_write_ignored hx hign h⟩
  · rw [← wordOf_zrom]
    exact step_read_target (x := .zrom k) ⟨hk, rfl⟩ h
  · exact step_read_target (x := .ctrl) rfl
  · exact step_read_target (x := .cmd) rfl

/-! ## The SREG and PMEM windows -/

/-- The storage word a window target names (R72, R74). -/
def windowSlot (s : State) : Target → Option Slot
  | .sreg i => some (s.s i)
  | .pmem r c => some (s.p r c)
  | _ => none

theorem windowSlot_passed (s : State) (x : Target) : windowSlot (passed s) x = windowSlot s x := rfl

/-- A read of a window reads the storage word; every other read is answered and changes nothing. -/
theorem busRead_cases (x : Target) (s : State) :
    (∃ v, windowSlot s x = some v ∧ busRead x s = windowRead v s) ∨
      (windowSlot s x = none ∧ ∃ w, busRead x s = respond w s) := by
  cases x
  case sreg i => exact .inl ⟨_, rfl, rfl⟩
  case pmem r c => exact .inl ⟨_, rfl, rfl⟩
  all_goals exact .inr ⟨rfl, _, rfl⟩

theorem busRead_window {x : Target} {s : State} {v : Slot} (h : windowSlot s x = some v) :
    busRead x s = windowRead v s := by
  rcases busRead_cases x s with ⟨v', hv', hread⟩ | ⟨hnone, -⟩
  · cases h.symm.trans hv'
    exact hread
  · cases h.symm.trans hnone

/-- R84: a window write of a busy unit is held. -/
theorem busWrite_window_busy {x : Target} {s : State} {v : Slot} {w : Word} (hx : windowSlot s x = some v)
    (hbusy : s.busy = true) : busWrite x w s = .held := by
  cases x
  case sreg i => simp only [busWrite, windowWrite, hbusy, if_true]
  case pmem r c => simp only [busWrite, windowWrite, hbusy, if_true]
  all_goals cases hx

theorem windowRead_busy {v : Slot} {s : State} (h : s.busy = true) : windowRead v s = .held := by
  rw [windowRead, if_pos h]

theorem windowRead_idle {v : Slot} {s : State} (h : s.busy = false) :
    windowRead v s = respond (look v s.draws).1 { s with draws := (look v s.draws).2 } := by
  simp only [windowRead, h, Bool.false_eq_true, if_false]

theorem windowWrite_idle {s u : State} (h : s.busy = false) : windowWrite s u = respond 0#32 u := by
  simp only [windowWrite, h, Bool.false_eq_true, if_false]

section WindowSteps

variable {s : State} {a : Nat} {w : Word} {rest : List BusReq} {x : Target} {v : Slot}

/-- R84: a window access of a busy unit is held. -/
theorem step_read_window_busy (hx : WordAddress s.cfg.npoly a x) (hv : windowSlot s x = some v)
    (hbusy : s.busy = true) (h : HostReads s a rest) : step s = .next (passed s) := by
  rw [step_read_target hx h, busRead_window (s := passed s) hv, windowRead_busy (s := passed s) hbusy]
  rfl

theorem step_write_window_busy (hx : WordAddress s.cfg.npoly a x) (hv : windowSlot s x = some v)
    (hbusy : s.busy = true) (h : HostWrites s a w rest) : step s = .next (passed s) := by
  rw [step_write_target hx h, busWrite_window_busy (s := passed s) hv hbusy]
  rfl

/-- R72, R74, U1: a window read of an idle unit gives the word, a free one for ⊥. -/
theorem step_read_window_idle (hx : WordAddress s.cfg.npoly a x) (hv : windowSlot s x = some v)
    (hidle : s.busy = false) (h : HostReads s a rest) :
    step s = .next (answered { s with draws := (look v s.draws).2 } rest (look v s.draws).1 false) := by
  rw [step_read_target hx h, busRead_window (s := passed s) hv, windowRead_idle (s := passed s) hidle]
  rfl

theorem step_write_sreg {i : SReg} (hidle : s.busy = false) (h : HostWrites s (0x100 + 4 * i) w rest) :
    step s = .next (answered (s.setS i (.val w)) rest 0#32 false) := by
  rw [step_write_target (x := .sreg i) rfl h, busWrite, windowWrite_idle (s := passed s) hidle]
  rfl

theorem step_write_pmem {r c : Nat} (hr : r < s.cfg.npoly.count) (hc : c < 256) (hidle : s.busy = false)
    (h : HostWrites s (0x10000 + 1024 * r + 4 * c) w rest) :
    step s = .next (answered (s.setP r c (.val w)) rest 0#32 false) := by
  rw [step_write_target (x := .pmem r c) ⟨hr, hc, rfl⟩ h, busWrite, windowWrite_idle (s := passed s) hidle]
  rfl

end WindowSteps

/-- Writing one word sets that word and keeps every other. -/
theorem Mem.get_write_word (m : Mem) {r c j e : Nat} (hc : c < 256) (he : e < 256) (v : Slot) :
    Mem.get (Mem.write m (wordNo r c) [v]) (wordNo j e) = if j = r ∧ e = c then v else Mem.get m (wordNo j e) := by
  have hsame : (wordNo r c ≤ wordNo j e ∧ wordNo j e < wordNo r c + 1) ↔ (j = r ∧ e = c) := by
    simp only [wordNo]
    omega
  rw [Mem.get_write, List.length_singleton]
  simp only [hsame]
  split_ifs with h
  · obtain ⟨rfl, rfl⟩ := h
    simp
  · rfl

/-- R74: beyond NPOLY the PMEM window is reserved. -/
theorem reservedAddress_beyond {np : NPoly} {r c : Nat} (hr : np.count ≤ r) (h64 : r < 64) (hc : c < 256) :
    WordAddress np (0x10000 + 1024 * r + 4 * c) .reserved := by
  simp only [WordAddress, ReservedAddress]
  omega

/-- Settles O54: reserved beyond NPOLY; held while busy; else the word is read, or written and no other. -/
theorem windowAccesses : Obligations.WindowAccesses := by
  unfold Obligations.WindowAccesses
  constructor
  · intro s rest r c hr h64 hc
    have hx := reservedAddress_beyond hr h64 hc
    exact ⟨step_read_target hx, fun w h => ⟨_, step_write_ignored hx ignoresWrites_reserved h⟩⟩
  · intro s rest i r c hr hc
    have hsreg : WordAddress s.cfg.npoly (0x100 + 4 * i) (.sreg i) := rfl
    have hpmem : WordAddress s.cfg.npoly (0x10000 + 1024 * r + 4 * c) (.pmem r c) := ⟨hr, hc, rfl⟩
    constructor
    · rintro hbusy (h | h | ⟨w, h | h⟩)
      · exact step_read_window_busy hsreg rfl hbusy h
      · exact step_read_window_busy hpmem rfl hbusy h
      · exact step_write_window_busy hsreg rfl hbusy h
      · exact step_write_window_busy hpmem rfl hbusy h
    · intro hidle
      have hreadS {v : Slot} (hv : s.s i = v) := step_read_window_idle (rest := rest) hsreg (congrArg some hv) hidle
      have hreadP {v : Slot} (hv : s.p r c = v) := step_read_window_idle (rest := rest) hpmem (congrArg some hv) hidle
      refine ⟨fun w h hv => hreadS hv h, fun h hv => ⟨_, _, hreadS hv h⟩, fun w h => ⟨_, step_write_sreg hidle h⟩,
        fun w h hv => hreadP hv h, fun h hv => ⟨_, _, hreadP hv h⟩, fun w h => ?_⟩
      exact ⟨_, _, fun j e he => Mem.get_write_word s.pmem hc he _, fun hwf => Mem.wf_write hwf _ _,
        step_write_pmem hr hc hidle h⟩

/-! ## CMD -/

/-- Settles O55, by the three outcomes of a CMD write. -/
theorem commandWrites : Obligations.CommandWrites := by
  unfold Obligations.CommandWrites
  intro s w rest h
  rw [step_write_target (x := .cmd) rfl h, busWrite, cmdWrite, passed_err, passed_queue, passed_cfg]
  refine ⟨fun herr hroom => ⟨0#32, ?_⟩, fun herr hfull => ?_, fun herr => ⟨0#32, ?_⟩⟩
  · rw [herr, if_neg Bool.false_ne_true, if_pos hroom]
    rfl
  · rw [herr, if_neg Bool.false_ne_true, if_neg (Nat.not_lt.2 hfull)]
    rfl
  · rw [if_pos herr]
    rfl

/-! ## Unsupported accesses, and what a read can change -/

theorem badAccess_iff {t : BusReq} :
    badAccess t = true ↔ bits t.addr 1 0 ≠ 0 ∨ (t.write = true ∧ t.wstrb ≠ 0b1111#4) := by
  simp only [badAccess, Bool.or_eq_true, Bool.and_eq_true, decide_eq_true_eq]

/-- R78: an unsupported access is answered with err and changes nothing. -/
theorem step_badAccess {s : State} {t : BusReq} {rest : List BusReq} (hr : s.rstN = true)
    (hturn : nextTurn s = .host) (htx : s.txns = t :: rest) (hbad : badAccess t = true) :
    step s = .next (answered s rest 0#32 true) := by
  rw [step_transact hturn hr htx, transact, if_pos hbad]
  rfl

/-- Settles O57: such an access is `badAccess`, answered before anything else is looked at. -/
theorem unsupportedAccessesHaveNoEffect : Obligations.UnsupportedAccessesHaveNoEffect := by
  unfold Obligations.UnsupportedAccessesHaveNoEffect
  intro s t rest hr hturn htx hbad
  exact step_badAccess hr hturn htx (badAccess_iff.2 hbad)

/-- An address is aligned when its two low bits are 0. -/
theorem aligned_iff_bits {a : BitVec 17} : a.toNat % 4 = 0 ↔ bits a 1 0 = 0 := by
  simp [bits]

/-- A ⊥ word stands at the address iff the target it names is a window word that is ⊥. -/
theorem unfixedWordAt_iff {s : State} {a : BitVec 17} (h4 : a.toNat % 4 = 0) :
    UnfixedWordAt s a.toNat ↔ windowSlot s (targetOf s.cfg.npoly a) = some .bot := by
  constructor
  · rintro (⟨i, ha, hv⟩ | ⟨r, c, hr, hc, ha, hv⟩)
    · rw [(targetOf_eq_iff (x := .sreg i) h4).2 ha]
      exact congrArg some hv
    · rw [(targetOf_eq_iff (x := .pmem r c) h4).2 ⟨hr, hc, ha⟩]
      exact congrArg some hv
  · intro h
    have haddr := wordAddress_targetOf (np := s.cfg.npoly) h4
    cases hx : targetOf s.cfg.npoly a <;> rw [hx] at h haddr
    case sreg i => exact .inl ⟨i, haddr, Option.some.inj h⟩
    case pmem r c =>
      obtain ⟨hr, hc, ha⟩ := haddr
      exact .inr ⟨r, c, hr, hc, ha, Option.some.inj h⟩
    all_goals cases h

theorem not_unfixedWordAt_of_misaligned {s : State} {a : Nat} (h4 : a % 4 ≠ 0) : ¬ UnfixedWordAt s a := by
  rintro (⟨i, ha, -⟩ | ⟨r, c, -, -, ha, -⟩) <;> omega

/-- U1: a look at a slot draws a free value exactly when it is ⊥. -/
theorem look_draws (v : Slot) (n : Nat) :
    (some v = some .bot → (look v n).2 = n + 1) ∧ (some v ≠ some .bot → (look v n).2 = n) := by
  cases v <;> simp [look]

/-- Settles O58: an unsupported read, a read of a window word (held or answered), any other read. -/
theorem readsHaveNoSideEffect : Obligations.ReadsHaveNoSideEffect := by
  unfold Obligations.ReadsHaveNoSideEffect
  intro s u t rest hr hturn htx hread hstep
  by_cases hbad : badAccess t = true
  · have h4 : t.addr.toNat % 4 ≠ 0 := by simpa [badAccess_iff, hread, aligned_iff_bits] using hbad
    rw [step_badAccess hr hturn htx hbad] at hstep
    cases hstep
    have hfixed := not_unfixedWordAt_of_misaligned (s := s) h4
    exact .inr ⟨_, _, s.draws, rfl, fun h => absurd h hfixed, fun _ => rfl⟩
  · have h4 : t.addr.toNat % 4 = 0 := by simpa [badAccess_iff, hread, aligned_iff_bits] using hbad
    have hx := wordAddress_targetOf (np := s.cfg.npoly) h4
    have h : HostReads s t.addr.toNat rest := ⟨hr, hturn, t, htx, hread, by simp⟩
    rw [unfixedWordAt_iff h4]
    rcases busRead_cases (targetOf s.cfg.npoly t.addr) (passed s) with ⟨v, hv, -⟩ | ⟨hnone, w, hw⟩
    · rw [windowSlot_passed] at hv
      cases hbusy : s.busy
      · rw [step_read_window_idle hx hv hbusy h] at hstep
        cases hstep
        rw [hv]
        exact .inr ⟨_, _, _, rfl, look_draws v s.draws⟩
      · rw [step_read_window_busy hx hv hbusy h] at hstep
        cases hstep
        exact .inl ⟨rfl, rfl⟩
    · rw [windowSlot_passed] at hnone
      rw [step_read_target hx h, hw] at hstep
      cases hstep
      rw [hnone]
      exact .inr ⟨w, false, s.draws, rfl, nofun, fun _ => rfl⟩

end Sys2Proof.Machine
end

section
/-! What may change SREG and PMEM (20_memory.md R81, R84, R92; 70_reset_and_hazards.md R290, R293). -/

namespace Sys2Proof.Machine

/-- A supported write is a whole-word write at a word address of its target. -/
theorem WriteMove.hostWrites {s : State} {x : Target} {w : Word} (h : WriteMove s x w) :
    ∃ a rest, HostWrites s a w rest ∧ WordAddress s.cfg.npoly a x := by
  obtain ⟨hr, hturn, r, rest, htx, hok, hw, hd, rfl⟩ := h
  have hgood : ¬ (bits r.addr 1 0 ≠ 0 ∨ (r.write = true ∧ r.wstrb ≠ 0b1111#4)) := by
    rw [← badAccess_iff, hok]
    exact Bool.false_ne_true
  simp only [hw, true_and, not_or, not_not] at hgood
  obtain ⟨h4, hstrb⟩ := hgood
  exact ⟨r.addr.toNat, rest, ⟨hr, hturn, r, htx, hw, by simp, hd, hstrb⟩, wordAddress_targetOf (aligned_iff_bits.2 h4)⟩

/-- R84: a window write of an idle unit is the window move of the statements; one of a busy unit is held and changes
nothing. -/
theorem WriteMove.windowMove_or_kept {s t : State} {x : Target} {w : Word} {v : Slot} (h : WriteMove s x w)
    (hx : windowSlot s x = some v) (hstep : step s = .next t) :
    WindowMove s ∨ (t.sreg = s.sreg ∧ t.pmem = s.pmem) := by
  obtain ⟨a, rest, hwrites, haddr⟩ := h.hostWrites
  cases hbusy : s.busy
  · refine .inl ⟨hbusy, a, w, rest, hwrites, ?_⟩
    cases x
    case sreg i =>
      simp only [WordAddress] at haddr
      omega
    case pmem r c =>
      simp only [WordAddress] at haddr
      omega
    all_goals cases hx
  · rw [step_write_window_busy haddr hx hbusy hwrites] at hstep
    cases hstep
    exact .inr ⟨rfl, rfl⟩

/-- R293: with no command in flight the soft reset keeps SREG and PMEM. -/
theorem inFlightDests_idle {s : State} (h : s.engine = .idle) : inFlightDests s = [] := by
  rw [inFlightDests, h]

/-- No complete step changes the configuration. -/
theorem CommandEnd.cfg_eq {w : Word} {s t : State} (h : CommandEnd w s t) : t.cfg = s.cfg := by
  cases h <;> rfl

theorem WriteEffect.cfg_eq {w : Word} {s u : State} {x : Target} (h : WriteEffect w s x u) : u.cfg = s.cfg := by
  cases h <;> simp [State.setP]

theorem cfg_moved {s t : State} (h : Moved s t) : t.cfg = s.cfg := by
  cases h with
  | pin => rfl
  | started => rw [startStep_frame]; rfl
  | completed _ ht => exact ht.cfg_eq
  | wrote _ hu => exact hu.cfg_eq
  | unmoved => rfl

/-- A step that keeps SREG and PMEM, or one of the moves that may change them. -/
theorem storage_moved {s t : State} (h : Moved s t) (hstep : step s = .next t) :
    (t.sreg = s.sreg ∧ t.pmem = s.pmem) ∨
      (∃ w, CompleteMove s w) ∨ WindowMove s ∨ (SoftResetMove s ∧ s.engine ≠ .idle) ∨ PinMove s := by
  cases h with
  | pin level hp => exact .inr (.inr (.inr (.inr ⟨level, hp⟩)))
  | started => rw [startStep_frame]; exact .inl ⟨rfl, rfl⟩
  | completed hc => exact .inr (.inl ⟨_, hc⟩)
  | wrote hw hu =>
    cases hu with
    | softReset h1 =>
      by_cases hidle : s.engine = .idle
      · simp [inFlightDests_idle (s := passed s) hidle, clobber]
      · exact .inr (.inr (.inr (.inl ⟨softResetMove_iff.2 ⟨_, hw, h1⟩, hidle⟩)))
    | sreg i => exact (hw.windowMove_or_kept rfl hstep).symm.imp_right fun h => .inr (.inl h)
    | pmem i c => exact (hw.windowMove_or_kept rfl hstep).symm.imp_right fun h => .inr (.inl h)
    | clearError => simp
    | _ => exact .inl ⟨rfl, rfl⟩
  | unmoved => exact .inl ⟨rfl, rfl⟩

/-- Settles O16, move by move. -/
theorem storageChangesOnlyByCommandsWindowsAndResets : Obligations.StorageChangesOnlyByCommandsWindowsAndResets := by
  unfold Obligations.StorageChangesOnlyByCommandsWindowsAndResets
  intro s t hstep
  have h := step_moved hstep
  refine ⟨cfg_moved h, fun hchanged => (storage_moved h hstep).resolve_left ?_⟩
  rintro ⟨hsreg, hpmem⟩
  exact hchanged.elim (absurd hsreg) (absurd hpmem)

end Sys2Proof.Machine
end

section
/-! A busy unit left to itself becomes idle (70_reset_and_hazards.md §4; 20_memory.md R84, R86). -/

namespace Sys2Proof.Machine

/-- Out of reset, nothing scheduled, and nothing queued while ERR = 1: the engine works the queue off by itself. -/
structure Unattended (s : State) : Prop where
  running : s.rstN = true
  unscheduled : s.sched = []
  halted : s.err = true → s.queue = []

/-- The host's side of the bus has not moved from s to t. -/
def HostWaits (s t : State) : Prop := t.txns = s.txns ∧ t.responses = s.responses

/-- Within k steps the unit is idle, and the host has waited meanwhile. -/
def IdleWithin (k : Nat) (s : State) : Prop :=
  ∃ n t, n ≤ k ∧ steps n s = some t ∧ t.busy = false ∧ HostWaits s t

theorem busy_eq_false {s : State} (hidle : s.engine = .idle) (hq : s.queue = []) : s.busy = false := by
  simp [State.busy, hidle, hq]

theorem IdleWithin.of_idle {s : State} (k : Nat) (hidle : s.engine = .idle) (hq : s.queue = []) : IdleWithin k s :=
  ⟨0, s, Nat.zero_le k, rfl, busy_eq_false hidle hq, rfl, rfl⟩

theorem IdleWithin.mono {k l : Nat} {s : State} (h : IdleWithin k s) (hkl : k ≤ l) : IdleWithin l s := by
  obtain ⟨n, t, hn, ht⟩ := h
  exact ⟨n, t, hn.trans hkl, ht⟩

theorem IdleWithin.step {k : Nat} {s u : State} (h : IdleWithin k u) (hstep : step s = .next u)
    (hwaits : HostWaits s u) : IdleWithin (k + 1) s := by
  obtain ⟨n, t, hn, hsteps, hbusy, htxns, hresps⟩ := h
  refine ⟨n + 1, t, Nat.succ_le_succ hn, ?_, hbusy, htxns.trans hwaits.1, hresps.trans hwaits.2⟩
  rw [steps, hstep]
  exact hsteps

/-- An engine that can move does so when nothing is scheduled (log 3). -/
theorem Unattended.engineMoves {s : State} (h : Unattended s)
    (hcan : s.engine ≠ .idle ∨ s.err = false ∧ s.queue ≠ []) : EngineMoves s := by
  have hmove : engineCanMove s = true := by simpa [engineCanMove, h.running] using hcan
  refine ⟨h.running, ?_⟩
  rw [nextTurn, h.unscheduled]
  simp only [hmove, if_true]

/-- One step completes the word in flight. -/
theorem Unattended.completes {s : State} {w : Word} (h : Unattended s) (hw : s.engine = .exec w) :
    ∃ t, step s = .next t ∧ Unattended t ∧ t.engine = .idle ∧ t.queue.length ≤ s.queue.length ∧ HostWaits s t := by
  have hmove : EngineMoves s := h.engineMoves (.inl (by simp [hw]))
  obtain ⟨t, ht, hidle⟩ := completeStep_next w (passed s)
  rw [passed_eq h.unscheduled] at ht
  refine ⟨t, by rw [step_complete ⟨hmove, hw⟩, passed_eq h.unscheduled, ht], ?_⟩
  cases completeStep_end ht with
  | retires => exact ⟨⟨h.running, h.unscheduled, h.halted⟩, rfl, le_rfl, rfl, rfl⟩
  | outOfRange => exact ⟨⟨h.running, h.unscheduled, fun _ => rfl⟩, rfl, Nat.zero_le _, rfl, rfl⟩
  | illegal => exact ⟨⟨h.running, h.unscheduled, fun _ => rfl⟩, rfl, Nat.zero_le _, rfl, rfl⟩

/-- One step starts the head of the queue. -/
theorem Unattended.starts {s : State} {w : Word} {ws : List Word} (h : Unattended s) (hidle : s.engine = .idle)
    (hq : s.queue = w :: ws) :
    ∃ t, step s = .next t ∧ Unattended t ∧ t.engine = .exec w ∧ t.queue = ws ∧ HostWaits s t := by
  have herr : s.err = false := by
    by_contra he
    cases hq.symm.trans (h.halted (Bool.eq_true_of_not_eq_false he))
  have hmove : EngineMoves s := h.engineMoves (.inr ⟨herr, by simp [hq]⟩)
  refine ⟨{ s with queue := ws, engine := .exec w }, ?_, ⟨h.running, h.unscheduled, ?_⟩, rfl, rfl, rfl, rfl⟩
  · rw [step_start hmove hidle, passed_eq h.unscheduled, startStep, hq]
    simp [herr]
  · exact fun he => Bool.noConfusion (herr.symm.trans he)

/-- Two steps a queued word: the start and the completion. -/
theorem Unattended.idleWithin_of_idle {k : Nat} {s : State} (h : Unattended s) (hidle : s.engine = .idle)
    (hlen : s.queue.length ≤ k) : IdleWithin (2 * k) s := by
  induction k generalizing s with
  | zero => exact .of_idle _ hidle (List.length_eq_zero_iff.1 (Nat.le_zero.1 hlen))
  | succ k ih =>
    cases hq : s.queue with
    | nil => exact .of_idle _ hidle hq
    | cons w ws =>
      obtain ⟨t, hstart, ht, hexec, hqt, hwaits⟩ := h.starts hidle hq
      obtain ⟨u, hcomplete, hu, hidleu, hlenu, hwaitsu⟩ := ht.completes hexec
      have hrest : u.queue.length ≤ k := by
        rw [hq, List.length_cons] at hlen
        rw [hqt] at hlenu
        omega
      exact ((ih hu hidleu hrest).step hcomplete hwaitsu).step hstart hwaits

/-- With a word in flight, one step more. -/
theorem Unattended.idleWithin {s : State} (h : Unattended s) : IdleWithin (2 * s.queue.length + 1) s := by
  cases he : s.engine with
  | idle => exact (h.idleWithin_of_idle he le_rfl).mono (Nat.le_succ _)
  | exec w =>
    obtain ⟨t, hstep, ht, hidle, hlen, hwaits⟩ := h.completes he
    exact (ht.idleWithin_of_idle hidle hlen).step hstep hwaits

/-- Settles O18: by induction on the length of the queue (`Unattended.idleWithin_of_idle`). -/
theorem busyUnitBecomesIdle : Obligations.BusyUnitBecomesIdle := by
  unfold Obligations.BusyUnitBecomesIdle
  intro s hr hsched _ hhalted
  exact Unattended.idleWithin ⟨hr, hsched, hhalted⟩

end Sys2Proof.Machine
end

section
/-! The decoder by opcode (spec/30_encoding.md R111): which form reads the words of an opcode, and what the word of a
command is read as. -/

namespace Sys2Proof

/-! ## The form of each opcode -/

section Opcodes

variable {w : Word}

theorem decodeRow_op_zero (h : fOp w = 0) : decodeRow w = if w = 0#32 then .ok .nop else .error .badBits := by
  simp only [decodeRow, h]

theorem decodeRow_add (h : fOp w = 0x01) : decodeRow w = formDAB w .add := by simp only [decodeRow, h]
theorem decodeRow_sub (h : fOp w = 0x02) : decodeRow w = formDAB w .sub := by simp only [decodeRow, h]
theorem decodeRow_neg (h : fOp w = 0x03) : decodeRow w = formDA w .neg := by simp only [decodeRow, h]
theorem decodeRow_mul (h : fOp w = 0x04) : decodeRow w = formDAB w .mul := by simp only [decodeRow, h]
theorem decodeRow_red (h : fOp w = 0x05) : decodeRow w = formDA w .red := by simp only [decodeRow, h]
theorem decodeRow_tosym (h : fOp w = 0x06) : decodeRow w = formDA w .tosym := by simp only [decodeRow, h]
theorem decodeRow_fromsym (h : fOp w = 0x07) : decodeRow w = formDA w .fromsym := by simp only [decodeRow, h]
theorem decodeRow_norm (h : fOp w = 0x08) : decodeRow w = formDA w .norm := by simp only [decodeRow, h]
theorem decodeRow_mov (h : fOp w = 0x09) : decodeRow w = formDA w .mov := by simp only [decodeRow, h]
theorem decodeRow_li (h : fOp w = 0x0A) : decodeRow w = formLI w .li := by simp only [decodeRow, h]
theorem decodeRow_zeta (h : fOp w = 0x0B) : decodeRow w = formZETA w .zeta := by simp only [decodeRow, h]
theorem decodeRow_p2r (h : fOp w = 0x10) : decodeRow w = formDAB w .p2r := by simp only [decodeRow, h]
theorem decodeRow_decomp (h : fOp w = 0x11) : decodeRow w = formDABG w .decomp := by simp only [decodeRow, h]
theorem decodeRow_high (h : fOp w = 0x12) : decodeRow w = formDAG w .high := by simp only [decodeRow, h]
theorem decodeRow_low (h : fOp w = 0x13) : decodeRow w = formDAG w .low := by simp only [decodeRow, h]
theorem decodeRow_mkhint (h : fOp w = 0x14) : decodeRow w = formDABG w .mkhint := by simp only [decodeRow, h]
theorem decodeRow_usehint (h : fOp w = 0x15) : decodeRow w = formDABG w .usehint := by simp only [decodeRow, h]
theorem decodeRow_padd (h : fOp w = 0x20) : decodeRow w = formP3C w .padd := by simp only [decodeRow, h]
theorem decodeRow_psub (h : fOp w = 0x21) : decodeRow w = formP3C w .psub := by simp only [decodeRow, h]
theorem decodeRow_pneg (h : fOp w = 0x22) : decodeRow w = formP2 w .pneg := by simp only [decodeRow, h]
theorem decodeRow_psmul (h : fOp w = 0x23) : decodeRow w = formP2S w .psmul := by simp only [decodeRow, h]
theorem decodeRow_pmov (h : fOp w = 0x24) : decodeRow w = formP2 w .pmov := by simp only [decodeRow, h]
theorem decodeRow_ptosym (h : fOp w = 0x25) : decodeRow w = formP2 w .ptosym := by simp only [decodeRow, h]
theorem decodeRow_pfromsym (h : fOp w = 0x26) : decodeRow w = formP2 w .pfromsym := by simp only [decodeRow, h]
theorem decodeRow_pred (h : fOp w = 0x27) : decodeRow w = formP2 w .pred := by simp only [decodeRow, h]
theorem decodeRow_pnorm (h : fOp w = 0x28) : decodeRow w = formSP w .pnorm := by simp only [decodeRow, h]
theorem decodeRow_pnormz (h : fOp w = 0x29) : decodeRow w = formSP w .pnormz := by simp only [decodeRow, h]
theorem decodeRow_ntt (h : fOp w = 0x30) : decodeRow w = formP2 w .ntt := by simp only [decodeRow, h]
theorem decodeRow_intt (h : fOp w = 0x31) : decodeRow w = formP2 w .intt := by simp only [decodeRow, h]
theorem decodeRow_pmul (h : fOp w = 0x32) : decodeRow w = formP3C w .pmul := by simp only [decodeRow, h]
theorem decodeRow_pdot (h : fOp w = 0x33) : decodeRow w = formP3C w .pdot := by simp only [decodeRow, h]
theorem decodeRow_pp2r (h : fOp w = 0x38) : decodeRow w = formP3 w .pp2r := by simp only [decodeRow, h]
theorem decodeRow_pdecomp (h : fOp w = 0x39) : decodeRow w = formP3G w .pdecomp := by simp only [decodeRow, h]
theorem decodeRow_phigh (h : fOp w = 0x3A) : decodeRow w = formP2G w .phigh := by simp only [decodeRow, h]
theorem decodeRow_plow (h : fOp w = 0x3B) : decodeRow w = formP2G w .plow := by simp only [decodeRow, h]
theorem decodeRow_pmkhint (h : fOp w = 0x3C) : decodeRow w = formP3CG w .pmkhint := by simp only [decodeRow, h]
theorem decodeRow_pusehint (h : fOp w = 0x3D) : decodeRow w = formP3CG w .pusehint := by simp only [decodeRow, h]
theorem decodeRow_pwgt (h : fOp w = 0x3E) : decodeRow w = formSP w .pwgt := by simp only [decodeRow, h]

end Opcodes

/-- R114: the reserved opcodes. -/
def reservedOps : List Nat :=
  [0x0C, 0x0D, 0x0E, 0x0F, 0x16, 0x17, 0x18, 0x19, 0x1A, 0x1B, 0x1C, 0x1D, 0x1E, 0x1F, 0x2A, 0x2B, 0x2C, 0x2D, 0x2E,
    0x2F, 0x34, 0x35, 0x36, 0x37, 0x3F]

theorem decodeRow_reserved {w : Word} (h : fOp w ∈ reservedOps) : decodeRow w = .error .reservedOpcode := by
  generalize hop : fOp w = op at h
  fin_cases h <;> simp only [decodeRow, hop]

/-! ## The word of a command is read as that command, form by form -/

theorem SReg.lt_64 (r : SReg) : r.val < 64 := r.isLt.trans (by decide)
theorem Gamma.bit_le (g : Gamma) : g.bit ≤ 1 := Nat.le_of_lt_succ g.bit_lt
theorem Bcast.bit_le (c : Bcast) : c.bit ≤ 1 := Nat.le_of_lt_succ c.bit_lt

section Forms

variable {op : Nat} (ho : op < 64)
include ho

theorem decodeRow_formR_DAB {mk : SReg → SReg → SReg → Instr}
    (hread : ∀ {w}, fOp w = op → decodeRow w = formDAB w mk) (d a b : SReg) :
    decodeRow (formR op d a b 0 0 0) = .ok (mk d a b) := by
  simp [hread, fields_formR, ho, SReg.lt_64, formDAB, guardBits]

theorem decodeRow_formR_DABG {mk : SReg → SReg → SReg → Gamma → Instr}
    (hread : ∀ {w}, fOp w = op → decodeRow w = formDABG w mk) (d a b : SReg) (g : Gamma) :
    decodeRow (formR op d a b 0 0 g.bit) = .ok (mk d a b g) := by
  simp [hread, fields_formR, ho, SReg.lt_64, Gamma.bit_le, formDABG, guardBits]

theorem decodeRow_formR_DA {mk : SReg → SReg → Instr}
    (hread : ∀ {w}, fOp w = op → decodeRow w = formDA w mk) (d a : SReg) :
    decodeRow (formR op d a 0 0 0 0) = .ok (mk d a) := by
  simp [hread, fields_formR, ho, SReg.lt_64, formDA, guardBits]

theorem decodeRow_formR_DAG {mk : SReg → SReg → Gamma → Instr}
    (hread : ∀ {w}, fOp w = op → decodeRow w = formDAG w mk) (d a : SReg) (g : Gamma) :
    decodeRow (formR op d a 0 0 0 g.bit) = .ok (mk d a g) := by
  simp [hread, fields_formR, ho, SReg.lt_64, Gamma.bit_le, formDAG, guardBits]

theorem decodeRow_formR_P3C {mk : PReg → PReg → PReg → VLen → Bcast → Instr}
    (hread : ∀ {w}, fOp w = op → decodeRow w = formP3C w mk) (d a b : PReg) (v : VLen) (c : Bcast) :
    decodeRow (formR op d a b v c.bit 0) = .ok (mk d a b v c) := by
  simp [hread, fields_formR, ho, Bcast.bit_le, formP3C, guardBits]

theorem decodeRow_formR_P3CG {mk : PReg → PReg → PReg → VLen → Bcast → Gamma → Instr}
    (hread : ∀ {w}, fOp w = op → decodeRow w = formP3CG w mk) (d a b : PReg) (v : VLen) (c : Bcast) (g : Gamma) :
    decodeRow (formR op d a b v c.bit g.bit) = .ok (mk d a b v c g) := by
  simp [hread, fields_formR, ho, Bcast.bit_le, Gamma.bit_le, formP3CG, guardBits]

theorem decodeRow_formR_P3 {mk : PReg → PReg → PReg → VLen → Instr}
    (hread : ∀ {w}, fOp w = op → decodeRow w = formP3 w mk) (d a b : PReg) (v : VLen) :
    decodeRow (formR op d a b v 0 0) = .ok (mk d a b v) := by
  simp [hread, fields_formR, ho, formP3, guardBits]

theorem decodeRow_formR_P3G {mk : PReg → PReg → PReg → VLen → Gamma → Instr}
    (hread : ∀ {w}, fOp w = op → decodeRow w = formP3G w mk) (d a b : PReg) (v : VLen) (g : Gamma) :
    decodeRow (formR op d a b v 0 g.bit) = .ok (mk d a b v g) := by
  simp [hread, fields_formR, ho, Gamma.bit_le, formP3G, guardBits]

theorem decodeRow_formR_P2 {mk : PReg → PReg → VLen → Instr}
    (hread : ∀ {w}, fOp w = op → decodeRow w = formP2 w mk) (d a : PReg) (v : VLen) :
    decodeRow (formR op d a 0 v 0 0) = .ok (mk d a v) := by
  simp [hread, fields_formR, ho, formP2, guardBits]

theorem decodeRow_formR_P2G {mk : PReg → PReg → VLen → Gamma → Instr}
    (hread : ∀ {w}, fOp w = op → decodeRow w = formP2G w mk) (d a : PReg) (v : VLen) (g : Gamma) :
    decodeRow (formR op d a 0 v 0 g.bit) = .ok (mk d a v g) := by
  simp [hread, fields_formR, ho, Gamma.bit_le, formP2G, guardBits]

theorem decodeRow_formR_P2S {mk : PReg → PReg → SReg → VLen → Instr}
    (hread : ∀ {w}, fOp w = op → decodeRow w = formP2S w mk) (d a : PReg) (b : SReg) (v : VLen) :
    decodeRow (formR op d a b v 0 0) = .ok (mk d a b v) := by
  simp [hread, fields_formR, ho, SReg.lt_64, formP2S, guardBits]

theorem decodeRow_formR_SP {mk : SReg → PReg → VLen → Instr}
    (hread : ∀ {w}, fOp w = op → decodeRow w = formSP w mk) (d : SReg) (a : PReg) (v : VLen) :
    decodeRow (formR op d a 0 v 0 0) = .ok (mk d a v) := by
  simp [hread, fields_formR, ho, SReg.lt_64, formSP, guardBits]

end Forms

/-- LI's word is read as LI. -/
theorem decodeRow_formI_LI (d : SReg) (imm : BitVec 20) : decodeRow (formI 0x0A d imm.toNat) = .ok (.li d imm) := by
  obtain ⟨hop, hd, himm, -, -⟩ := fields_formI (op := 0x0A) (by decide) d.lt_64 imm.isLt
  simp [decodeRow_li hop, formLI, guardBits, hd, himm]

/-- ZETA's word is read as ZETA. -/
theorem decodeRow_formI_ZETA (d : SReg) (k : Fin 256) : decodeRow (formI 0x0B d k) = .ok (.zeta d k) := by
  obtain ⟨hop, hd, -, hk, hhigh⟩ := fields_formI (op := 0x0B) (by decide) d.lt_64 (k.isLt.trans (by decide))
  simp [decodeRow_zeta hop, formZETA, guardBits, hd, hk, hhigh, Fin.ext_iff]

/-- R116: every command is read back from its own word, whatever its operands. -/
theorem decodeRow_encode (i : Instr) : decodeRow (encode i) = .ok i := by
  cases i with
  | nop => rfl
  | li d imm => exact decodeRow_formI_LI d imm
  | zeta d k => exact decodeRow_formI_ZETA d k
  | add d a b => exact decodeRow_formR_DAB (by decide) decodeRow_add d a b
  | sub d a b => exact decodeRow_formR_DAB (by decide) decodeRow_sub d a b
  | neg d a => exact decodeRow_formR_DA (by decide) decodeRow_neg d a
  | mul d a b => exact decodeRow_formR_DAB (by decide) decodeRow_mul d a b
  | red d a => exact decodeRow_formR_DA (by decide) decodeRow_red d a
  | tosym d a => exact decodeRow_formR_DA (by decide) decodeRow_tosym d a
  | fromsym d a => exact decodeRow_formR_DA (by decide) decodeRow_fromsym d a
  | norm d a => exact decodeRow_formR_DA (by decide) decodeRow_norm d a
  | mov d a => exact decodeRow_formR_DA (by decide) decodeRow_mov d a
  | p2r d a b => exact decodeRow_formR_DAB (by decide) decodeRow_p2r d a b
  | decomp d a b g => exact decodeRow_formR_DABG (by decide) decodeRow_decomp d a b g
  | high d a g => exact decodeRow_formR_DAG (by decide) decodeRow_high d a g
  | low d a g => exact decodeRow_formR_DAG (by decide) decodeRow_low d a g
  | mkhint d a b g => exact decodeRow_formR_DABG (by decide) decodeRow_mkhint d a b g
  | usehint d a b g => exact decodeRow_formR_DABG (by decide) decodeRow_usehint d a b g
  | padd d a b v c => exact decodeRow_formR_P3C (by decide) decodeRow_padd d a b v c
  | psub d a b v c => exact decodeRow_formR_P3C (by decide) decodeRow_psub d a b v c
  | pneg d a v => exact decodeRow_formR_P2 (by decide) decodeRow_pneg d a v
  | psmul d a b v => exact decodeRow_formR_P2S (by decide) decodeRow_psmul d a b v
  | pmov d a v => exact decodeRow_formR_P2 (by decide) decodeRow_pmov d a v
  | ptosym d a v => exact decodeRow_formR_P2 (by decide) decodeRow_ptosym d a v
  | pfromsym d a v => exact decodeRow_formR_P2 (by decide) decodeRow_pfromsym d a v
  | pred d a v => exact decodeRow_formR_P2 (by decide) decodeRow_pred d a v
  | pnorm d a v => exact decodeRow_formR_SP (by decide) decodeRow_pnorm d a v
  | pnormz d a v => exact decodeRow_formR_SP (by decide) decodeRow_pnormz d a v
  | ntt d a v => exact decodeRow_formR_P2 (by decide) decodeRow_ntt d a v
  | intt d a v => exact decodeRow_formR_P2 (by decide) decodeRow_intt d a v
  | pmul d a b v c => exact decodeRow_formR_P3C (by decide) decodeRow_pmul d a b v c
  | pdot d a b v c => exact decodeRow_formR_P3C (by decide) decodeRow_pdot d a b v c
  | pp2r d a b v => exact decodeRow_formR_P3 (by decide) decodeRow_pp2r d a b v
  | pdecomp d a b v g => exact decodeRow_formR_P3G (by decide) decodeRow_pdecomp d a b v g
  | phigh d a v g => exact decodeRow_formR_P2G (by decide) decodeRow_phigh d a v g
  | plow d a v g => exact decodeRow_formR_P2G (by decide) decodeRow_plow d a v g
  | pmkhint d a b v c g => exact decodeRow_formR_P3CG (by decide) decodeRow_pmkhint d a b v c g
  | pusehint d a b v c g => exact decodeRow_formR_P3CG (by decide) decodeRow_pusehint d a b v c g
  | pwgt d a v => exact decodeRow_formR_SP (by decide) decodeRow_pwgt d a v

/-- A word is read as a command exactly when it is the command's word. -/
theorem decodeRow_eq_ok_iff {w : Word} {i : Instr} : decodeRow w = .ok i ↔ encode i = w :=
  ⟨encode_of_decodeRow, fun h => h ▸ decodeRow_encode i⟩

/-- Settles O1: the word's row gives the command back (`decodeRow_encode`), and conditions 3 to 5 are `Instr.wf`. -/
theorem decodeOfEncode : Obligations.DecodeOfEncode := by
  unfold Obligations.DecodeOfEncode
  intro np i hwf
  exact (decodeWord_ok np (encode i) i).2 ⟨decodeRow_encode i, hwf⟩

/-- Settles O2, by the forms of the decoder (`encode_of_decodeRow`). -/
theorem encodeOfDecode : Obligations.EncodeOfDecode := by
  unfold Obligations.EncodeOfDecode
  intro np w i h
  exact encode_of_decodeWord h

/-- Settles O5: the decoder's answer for each of these opcodes. -/
theorem reservedOpcodesAreIllegal : Obligations.ReservedOpcodesAreIllegal := by
  unfold Obligations.ReservedOpcodesAreIllegal
  intro np w
  refine ⟨fun h => ?_, fun h0 hw => ?_, rfl⟩
  · rw [decodeWord, decodeRow_reserved h]
  · rw [decodeWord, decodeRow_op_zero h0, if_neg hw]

/-- Settles O6, by running the decoder on each word. -/
theorem decodeOfSpecWords : Obligations.DecodeOfSpecWords := by
  unfold Obligations.DecodeOfSpecWords
  exact ⟨rfl, rfl, rfl, rfl, rfl, rfl, rfl, rfl, rfl, rfl, rfl, rfl, rfl, rfl⟩

end Sys2Proof
end

section
/-! The opcode map (spec/30_encoding.md R111): a mask with its match says of a word that its OP is the row's and that
some fields are 0, which is what the row's form asks of it. -/

namespace Sys2Proof

/-! ## A mask over fields -/

/-- The fields, each as its high and low bit, are 0. -/
def ZeroFields (w : Word) (zs : List (Nat × Nat)) : Prop := ∀ z ∈ zs, bits w z.1 z.2 = 0

/-- The bits of the mask are those of OP and of these fields, which lie below OP. -/
abbrev Covers (m : Word) (zs : List (Nat × Nat)) : Prop :=
  (∀ z ∈ zs, z.2 ≤ z.1 ∧ z.1 < 26) ∧ ∀ k < 32, m.getLsbD k = true ↔ 26 ≤ k ∨ ∃ z ∈ zs, z.2 ≤ k ∧ k ≤ z.1

/-- The match has no bits besides those of OP. -/
abbrev OnlyOp (v : Word) : Prop := ∀ k < 26, v.getLsbD k = false

theorem testBit_bits {n : Nat} (w : BitVec n) (hi lo k : Nat) :
    (bits w hi lo).testBit k = (decide (k < hi - lo + 1) && w.getLsbD (lo + k)) := by
  simp only [bits, Nat.testBit_mod_two_pow, Nat.testBit_div_two_pow, BitVec.getLsbD, Nat.add_comm]

/-- Two words agree on a field exactly when they agree on its bits. -/
theorem bits_eq_bits_iff (w v : Word) {hi lo : Nat} (hle : lo ≤ hi) :
    bits w hi lo = bits v hi lo ↔ ∀ k, lo ≤ k → k ≤ hi → w.getLsbD k = v.getLsbD k := by
  constructor
  · intro h k hlo hk
    have hbit := congrArg (Nat.testBit · (k - lo)) h
    have hlt : k - lo < hi - lo + 1 := by omega
    simpa only [testBit_bits, hlt, decide_true, Bool.true_and, Nat.add_sub_cancel' hlo] using hbit
  · intro h
    apply Nat.eq_of_testBit_eq
    intro k
    rw [testBit_bits, testBit_bits]
    by_cases hk : k < hi - lo + 1
    · rw [h (lo + k) (by omega) (by omega)]
    · simp only [hk, decide_false, Bool.false_and]

/-- A masked word is the masked match exactly when the two agree on every bit of the mask. -/
theorem and_eq_and_iff (w v m : Word) :
    w &&& m = v &&& m ↔ ∀ k < 32, m.getLsbD k = true → w.getLsbD k = v.getLsbD k := by
  rw [BitVec.eq_of_getLsbD_eq_iff]
  refine forall₂_congr fun k _ => ?_
  rw [BitVec.getLsbD_and, BitVec.getLsbD_and]
  cases m.getLsbD k <;> simp

/-- A field that OP does not overlap is 0 in the match. -/
theorem OnlyOp.bits_eq_zero {v : Word} (hv : OnlyOp v) {hi lo : Nat} (hle : lo ≤ hi) (hhi : hi < 26) :
    bits v hi lo = 0 := by
  have hzero : bits v hi lo = bits 0#32 hi lo :=
    (bits_eq_bits_iff v 0#32 hle).2 fun k _ hk => by rw [hv k (by omega), BitVec.getLsbD_zero]
  rw [hzero, bits, BitVec.toNat_ofNat]
  simp

/-- (w AND mask) = match: OP is the match's and the covered fields are 0. -/
theorem and_eq_iff_zeroFields {w v m : Word} {zs : List (Nat × Nat)} (hv : OnlyOp v) (hm : Covers m zs) :
    w &&& m = v ↔ fOp w = fOp v ∧ ZeroFields w zs := by
  obtain ⟨hz, hbits⟩ := hm
  have hvm : v &&& m = v := by
    rw [BitVec.eq_of_getLsbD_eq_iff]
    intro k hk
    rw [BitVec.getLsbD_and]
    by_cases hop : 26 ≤ k
    · rw [(hbits k hk).2 (.inl hop), Bool.and_true]
    · rw [hv k (by omega), Bool.false_and]
  have hzero : ZeroFields w zs ↔ ∀ z ∈ zs, ∀ k, z.2 ≤ k → k ≤ z.1 → w.getLsbD k = v.getLsbD k :=
    forall₂_congr fun z hmem => by
      rw [← bits_eq_bits_iff w v (hz z hmem).1, hv.bits_eq_zero (hz z hmem).1 (hz z hmem).2]
  rw [hzero, fOp, fOp, bits_eq_bits_iff w v (by decide)]
  conv_lhs => rw [← hvm]
  rw [and_eq_and_iff]
  constructor
  · intro h
    refine ⟨fun k hop hk => h k (by omega) ((hbits k (by omega)).2 (.inl hop)), fun z hmem k hlo hhi => ?_⟩
    have hlt := (hz z hmem).2
    exact h k (by omega) ((hbits k (by omega)).2 (.inr ⟨z, hmem, hlo, hhi⟩))
  · rintro ⟨hop, hfields⟩ k hk hmk
    rcases (hbits k hk).1 hmk with h26 | ⟨z, hmem, hlo, hhi⟩
    · exact hop k h26 (by omega)
    · exact hfields z hmem k hlo hhi

/-! ## The mask of each form -/

/-- A scalar register field is below 16 when its two high bits are 0 (R104). -/
theorem bits_lt_16_iff (w : Word) (lo : Nat) : bits w (lo + 5) lo < 16 ↔ bits w (lo + 5) (lo + 4) = 0 := by
  have h6 : lo + 5 - lo + 1 = 6 := by omega
  have h2 : lo + 5 - (lo + 4) + 1 = 2 := by omega
  have hdiv : w.toNat / 2 ^ (lo + 4) = w.toNat / 2 ^ lo / 16 := by
    rw [Nat.div_div_eq_div_mul, pow_add]
    rfl
  rw [bits, bits, h6, h2, hdiv]
  omega

/-- The bits a mask may cover below OP, as the fields the forms speak of. -/
theorem bits_as_fields (w : Word) :
    (bits w 25 24 = 0 ↔ fD w < 16) ∧ (bits w 19 18 = 0 ↔ fA w < 16) ∧ (bits w 13 12 = 0 ↔ fB w < 16) ∧
    bits w 13 8 = fB w ∧ bits w 7 5 = fV w ∧ bits w 4 4 = fC w ∧ bits w 3 3 = fG w ∧ bits w 2 0 = fRsv w ∧
    bits w 19 8 = fKHigh w :=
  ⟨(bits_lt_16_iff w 20).symm, (bits_lt_16_iff w 14).symm, (bits_lt_16_iff w 8).symm, rfl, rfl, rfl, rfl, rfl, rfl⟩

/-- R111: a word with the row's opcode is a command with the row's mnemonic if the row selects it, and else has a bad
bit. -/
def OpRow.Reads (r : OpRow) : Prop :=
  ∀ w, fOp w = fOp r.value → ∃ i : Instr, i.mnemonic = r.mnemonic ∧ decodeRow w = guardBits (r.selects w) i

theorem OpRow.selects_iff {r : OpRow} {w : Word} : r.selects w = true ↔ w &&& r.mask = r.value := beq_iff_eq

/-- A row is read right when the guard of its form is that the fields its mask covers are 0. -/
theorem OpRow.Reads.of_guard {n : String} {m v : Word} {zs : List (Nat × Nat)} (hv : OnlyOp v) (hm : Covers m zs)
    (hread : ∀ w, fOp w = fOp v → ∃ (i : Instr) (ok : Bool),
      i.mnemonic = n ∧ decodeRow w = guardBits ok i ∧ (ok = true ↔ ZeroFields w zs)) : Reads ⟨n, m, v⟩ := by
  intro w hop
  obtain ⟨i, ok, hn, hdec, hok⟩ := hread w hop
  have hsel : selects ⟨n, m, v⟩ w = ok := by
    rw [Bool.eq_iff_iff, selects_iff, and_eq_iff_zeroFields hv hm, hok]
    exact and_iff_right hop
  exact ⟨i, hn, by rw [hdec, hsel]⟩

section Masks

variable {n : String} {v : Word} (hv : OnlyOp v)
include hv

theorem reads_formDAB {mk : SReg → SReg → SReg → Instr}
    (hmn : ∀ d a b, (mk d a b).mnemonic = n) (hread : ∀ {w}, fOp w = fOp v → decodeRow w = formDAB w mk) :
    OpRow.Reads ⟨n, 0xFF0C30FF#32, v⟩ :=
  .of_guard (zs := [(25, 24), (19, 18), (13, 12), (7, 5), (4, 4), (3, 3), (2, 0)]) hv (by decide) fun w hop =>
    ⟨_, _, hmn _ _ _, hread hop, by simp [ZeroFields, bits_as_fields, and_assoc]⟩

theorem reads_formDABG {mk : SReg → SReg → SReg → Gamma → Instr}
    (hmn : ∀ d a b g, (mk d a b g).mnemonic = n) (hread : ∀ {w}, fOp w = fOp v → decodeRow w = formDABG w mk) :
    OpRow.Reads ⟨n, 0xFF0C30F7#32, v⟩ :=
  .of_guard (zs := [(25, 24), (19, 18), (13, 12), (7, 5), (4, 4), (2, 0)]) hv (by decide) fun w hop =>
    ⟨_, _, hmn _ _ _ _, hread hop, by simp [ZeroFields, bits_as_fields, and_assoc]⟩

theorem reads_formDA {mk : SReg → SReg → Instr}
    (hmn : ∀ d a, (mk d a).mnemonic = n) (hread : ∀ {w}, fOp w = fOp v → decodeRow w = formDA w mk) :
    OpRow.Reads ⟨n, 0xFF0C3FFF#32, v⟩ :=
  .of_guard (zs := [(25, 24), (19, 18), (13, 8), (7, 5), (4, 4), (3, 3), (2, 0)]) hv (by decide) fun w hop =>
    ⟨_, _, hmn _ _, hread hop, by simp [ZeroFields, bits_as_fields, and_assoc]⟩

theorem reads_formDAG {mk : SReg → SReg → Gamma → Instr}
    (hmn : ∀ d a g, (mk d a g).mnemonic = n) (hread : ∀ {w}, fOp w = fOp v → decodeRow w = formDAG w mk) :
    OpRow.Reads ⟨n, 0xFF0C3FF7#32, v⟩ :=
  .of_guard (zs := [(25, 24), (19, 18), (13, 8), (7, 5), (4, 4), (2, 0)]) hv (by decide) fun w hop =>
    ⟨_, _, hmn _ _ _, hread hop, by simp [ZeroFields, bits_as_fields, and_assoc]⟩

theorem reads_formLI {mk : SReg → BitVec 20 → Instr}
    (hmn : ∀ d imm, (mk d imm).mnemonic = n) (hread : ∀ {w}, fOp w = fOp v → decodeRow w = formLI w mk) :
    OpRow.Reads ⟨n, 0xFF000000#32, v⟩ :=
  .of_guard (zs := [(25, 24)]) hv (by decide) fun w hop =>
    ⟨_, _, hmn _ _, hread hop, by simp [ZeroFields, bits_as_fields]⟩

theorem reads_formZETA {mk : SReg → Fin 256 → Instr}
    (hmn : ∀ d k, (mk d k).mnemonic = n) (hread : ∀ {w}, fOp w = fOp v → decodeRow w = formZETA w mk) :
    OpRow.Reads ⟨n, 0xFF0FFF00#32, v⟩ :=
  .of_guard (zs := [(25, 24), (19, 8)]) hv (by decide) fun w hop =>
    ⟨_, _, hmn _ _, hread hop, by simp [ZeroFields, bits_as_fields]⟩

theorem reads_formP3C {mk : PReg → PReg → PReg → VLen → Bcast → Instr}
    (hmn : ∀ d a b v c, (mk d a b v c).mnemonic = n) (hread : ∀ {w}, fOp w = fOp v → decodeRow w = formP3C w mk) :
    OpRow.Reads ⟨n, 0xFC00000F#32, v⟩ :=
  .of_guard (zs := [(3, 3), (2, 0)]) hv (by decide) fun w hop =>
    ⟨_, _, hmn _ _ _ _ _, hread hop, by simp [ZeroFields, bits_as_fields]⟩

theorem reads_formP3CG {mk : PReg → PReg → PReg → VLen → Bcast → Gamma → Instr}
    (hmn : ∀ d a b v c g, (mk d a b v c g).mnemonic = n) (hread : ∀ {w}, fOp w = fOp v → decodeRow w = formP3CG w mk) :
    OpRow.Reads ⟨n, 0xFC000007#32, v⟩ :=
  .of_guard (zs := [(2, 0)]) hv (by decide) fun w hop =>
    ⟨_, _, hmn _ _ _ _ _ _, hread hop, by simp [ZeroFields, bits_as_fields]⟩

theorem reads_formP3 {mk : PReg → PReg → PReg → VLen → Instr}
    (hmn : ∀ d a b v, (mk d a b v).mnemonic = n) (hread : ∀ {w}, fOp w = fOp v → decodeRow w = formP3 w mk) :
    OpRow.Reads ⟨n, 0xFC00001F#32, v⟩ :=
  .of_guard (zs := [(4, 4), (3, 3), (2, 0)]) hv (by decide) fun w hop =>
    ⟨_, _, hmn _ _ _ _, hread hop, by simp [ZeroFields, bits_as_fields, and_assoc]⟩

theorem reads_formP3G {mk : PReg → PReg → PReg → VLen → Gamma → Instr}
    (hmn : ∀ d a b v g, (mk d a b v g).mnemonic = n) (hread : ∀ {w}, fOp w = fOp v → decodeRow w = formP3G w mk) :
    OpRow.Reads ⟨n, 0xFC000017#32, v⟩ :=
  .of_guard (zs := [(4, 4), (2, 0)]) hv (by decide) fun w hop =>
    ⟨_, _, hmn _ _ _ _ _, hread hop, by simp [ZeroFields, bits_as_fields]⟩

theorem reads_formP2 {mk : PReg → PReg → VLen → Instr}
    (hmn : ∀ d a v, (mk d a v).mnemonic = n) (hread : ∀ {w}, fOp w = fOp v → decodeRow w = formP2 w mk) :
    OpRow.Reads ⟨n, 0xFC003F1F#32, v⟩ :=
  .of_guard (zs := [(13, 8), (4, 4), (3, 3), (2, 0)]) hv (by decide) fun w hop =>
    ⟨_, _, hmn _ _ _, hread hop, by simp [ZeroFields, bits_as_fields, and_assoc]⟩

theorem reads_formP2G {mk : PReg → PReg → VLen → Gamma → Instr}
    (hmn : ∀ d a v g, (mk d a v g).mnemonic = n) (hread : ∀ {w}, fOp w = fOp v → decodeRow w = formP2G w mk) :
    OpRow.Reads ⟨n, 0xFC003F17#32, v⟩ :=
  .of_guard (zs := [(13, 8), (4, 4), (2, 0)]) hv (by decide) fun w hop =>
    ⟨_, _, hmn _ _ _ _, hread hop, by simp [ZeroFields, bits_as_fields, and_assoc]⟩

theorem reads_formP2S {mk : PReg → PReg → SReg → VLen → Instr}
    (hmn : ∀ d a b v, (mk d a b v).mnemonic = n) (hread : ∀ {w}, fOp w = fOp v → decodeRow w = formP2S w mk) :
    OpRow.Reads ⟨n, 0xFC00301F#32, v⟩ :=
  .of_guard (zs := [(13, 12), (4, 4), (3, 3), (2, 0)]) hv (by decide) fun w hop =>
    ⟨_, _, hmn _ _ _ _, hread hop, by simp [ZeroFields, bits_as_fields, and_assoc]⟩

theorem reads_formSP {mk : SReg → PReg → VLen → Instr}
    (hmn : ∀ d a v, (mk d a v).mnemonic = n) (hread : ∀ {w}, fOp w = fOp v → decodeRow w = formSP w mk) :
    OpRow.Reads ⟨n, 0xFF003F1F#32, v⟩ :=
  .of_guard (zs := [(25, 24), (13, 8), (4, 4), (3, 3), (2, 0)]) hv (by decide) fun w hop =>
    ⟨_, _, hmn _ _ _, hread hop, by simp [ZeroFields, bits_as_fields, and_assoc]⟩

end Masks

/-- NOP's mask is the whole word. -/
theorem reads_nop : OpRow.Reads ⟨"NOP", 0xFFFFFFFF#32, 0x00000000#32⟩ := by
  intro w hop
  have hsel : OpRow.selects ⟨"NOP", 0xFFFFFFFF#32, 0x00000000#32⟩ w = decide (w = 0#32) := by
    rw [Bool.eq_iff_iff, OpRow.selects_iff, decide_eq_true_iff]
    exact Eq.congr_left (BitVec.and_allOnes (x := w))
  refine ⟨.nop, rfl, ?_⟩
  rw [decodeRow_op_zero hop, hsel, guardBits]
  simp only [decide_eq_true_eq]

/-! ## The rows, family by family -/

theorem reads_fieldRows : ∀ r ∈ fieldRows, r.Reads := by
  simp only [fieldRows, List.forall_mem_cons, List.not_mem_nil, false_imp_iff, implies_true, and_true]
  exact ⟨reads_nop,
    reads_formDAB (by decide) (fun _ _ _ => rfl) decodeRow_add,
    reads_formDAB (by decide) (fun _ _ _ => rfl) decodeRow_sub,
    reads_formDA (by decide) (fun _ _ => rfl) decodeRow_neg,
    reads_formDAB (by decide) (fun _ _ _ => rfl) decodeRow_mul,
    reads_formDA (by decide) (fun _ _ => rfl) decodeRow_red,
    reads_formDA (by decide) (fun _ _ => rfl) decodeRow_tosym,
    reads_formDA (by decide) (fun _ _ => rfl) decodeRow_fromsym,
    reads_formDA (by decide) (fun _ _ => rfl) decodeRow_norm,
    reads_formDA (by decide) (fun _ _ => rfl) decodeRow_mov,
    reads_formLI (by decide) (fun _ _ => rfl) decodeRow_li,
    reads_formZETA (by decide) (fun _ _ => rfl) decodeRow_zeta⟩

theorem reads_roundingRows : ∀ r ∈ roundingRows, r.Reads := by
  simp only [roundingRows, List.forall_mem_cons, List.not_mem_nil, false_imp_iff, implies_true, and_true]
  exact ⟨reads_formDAB (by decide) (fun _ _ _ => rfl) decodeRow_p2r,
    reads_formDABG (by decide) (fun _ _ _ _ => rfl) decodeRow_decomp,
    reads_formDAG (by decide) (fun _ _ _ => rfl) decodeRow_high,
    reads_formDAG (by decide) (fun _ _ _ => rfl) decodeRow_low,
    reads_formDABG (by decide) (fun _ _ _ _ => rfl) decodeRow_mkhint,
    reads_formDABG (by decide) (fun _ _ _ _ => rfl) decodeRow_usehint⟩

theorem reads_ringRows : ∀ r ∈ ringRows, r.Reads := by
  simp only [ringRows, List.forall_mem_cons, List.not_mem_nil, false_imp_iff, implies_true, and_true]
  exact ⟨reads_formP3C (by decide) (fun _ _ _ _ _ => rfl) decodeRow_padd,
    reads_formP3C (by decide) (fun _ _ _ _ _ => rfl) decodeRow_psub,
    reads_formP2 (by decide) (fun _ _ _ => rfl) decodeRow_pneg,
    reads_formP2S (by decide) (fun _ _ _ _ => rfl) decodeRow_psmul,
    reads_formP2 (by decide) (fun _ _ _ => rfl) decodeRow_pmov,
    reads_formP2 (by decide) (fun _ _ _ => rfl) decodeRow_ptosym,
    reads_formP2 (by decide) (fun _ _ _ => rfl) decodeRow_pfromsym,
    reads_formP2 (by decide) (fun _ _ _ => rfl) decodeRow_pred,
    reads_formSP (by decide) (fun _ _ _ => rfl) decodeRow_pnorm,
    reads_formSP (by decide) (fun _ _ _ => rfl) decodeRow_pnormz⟩

theorem reads_nttRows : ∀ r ∈ nttRows, r.Reads := by
  simp only [nttRows, List.forall_mem_cons, List.not_mem_nil, false_imp_iff, implies_true, and_true]
  exact ⟨reads_formP2 (by decide) (fun _ _ _ => rfl) decodeRow_ntt,
    reads_formP2 (by decide) (fun _ _ _ => rfl) decodeRow_intt,
    reads_formP3C (by decide) (fun _ _ _ _ _ => rfl) decodeRow_pmul,
    reads_formP3C (by decide) (fun _ _ _ _ _ => rfl) decodeRow_pdot⟩

theorem reads_polyRoundingRows : ∀ r ∈ polyRoundingRows, r.Reads := by
  simp only [polyRoundingRows, List.forall_mem_cons, List.not_mem_nil, false_imp_iff, implies_true, and_true]
  exact ⟨reads_formP3 (by decide) (fun _ _ _ _ => rfl) decodeRow_pp2r,
    reads_formP3G (by decide) (fun _ _ _ _ _ => rfl) decodeRow_pdecomp,
    reads_formP2G (by decide) (fun _ _ _ _ => rfl) decodeRow_phigh,
    reads_formP2G (by decide) (fun _ _ _ _ => rfl) decodeRow_plow,
    reads_formP3CG (by decide) (fun _ _ _ _ _ _ => rfl) decodeRow_pmkhint,
    reads_formP3CG (by decide) (fun _ _ _ _ _ _ => rfl) decodeRow_pusehint,
    reads_formSP (by decide) (fun _ _ _ => rfl) decodeRow_pwgt⟩

theorem reads_opRows : ∀ r ∈ opRows, r.Reads := by
  simp only [opRows, List.forall_mem_append]
  exact ⟨⟨⟨⟨reads_fieldRows, reads_roundingRows⟩, reads_ringRows⟩, reads_nttRows⟩, reads_polyRoundingRows⟩

/-! ## Every opcode has a row or is reserved -/

theorem opcode_reserved_or_row : ∀ op < 64, op ∈ reservedOps ∨ ∃ r ∈ opRows, op = fOp r.value := by decide

theorem fOp_lt (w : Word) : fOp w < 64 := Nat.mod_lt _ (by decide)

/-- A row's mask covers OP, so the row selects words with its opcode only. -/
theorem fOp_eq_of_selects {r : OpRow} (hr : r ∈ opRows) {w : Word} (h : w &&& r.mask = r.value) :
    fOp w = fOp r.value := by
  have hmask : ∀ r ∈ opRows, ∀ k < 32, 26 ≤ k → r.mask.getLsbD k = true := by decide
  have hvalue : ∀ r ∈ opRows, r.value &&& r.mask = r.value := by decide
  have hbits := (and_eq_and_iff w r.value r.mask).1 (h.trans (hvalue r hr).symm)
  exact (bits_eq_bits_iff w r.value (by decide)).2 fun k hlo hhi =>
    hbits k (by omega) (hmask r hr k (by omega) hlo)

/-- Settles O3: a word with a row's opcode is its command exactly when the row selects it (`reads_opRows`), every other
opcode is reserved, and no two of the 39 rows agree on the bits that both masks cover. -/
theorem opcodeMapSelectsTheCommand : Obligations.OpcodeMapSelectsTheCommand := by
  unfold Obligations.OpcodeMapSelectsTheCommand
  refine ⟨fun w i hdec => ?_, fun w r hr hsel => ?_, by decide⟩
  · rcases opcode_reserved_or_row (fOp w) (fOp_lt w) with hres | ⟨r, hr, hop⟩
    · cases (decodeRow_reserved hres).symm.trans hdec
    · obtain ⟨j, hn, hj⟩ := reads_opRows r hr w hop
      obtain ⟨hsel, rfl⟩ := guardBits_eq_ok.1 (hj.symm.trans hdec)
      exact ⟨r, hr, hn.symm, OpRow.selects_iff.1 hsel⟩
  · obtain ⟨i, hn, hi⟩ := reads_opRows r hr w (fOp_eq_of_selects hr hsel)
    exact ⟨i, hi.trans (guardBits_eq_ok.2 ⟨OpRow.selects_iff.2 hsel, rfl⟩), hn⟩

end Sys2Proof
end

section
/-! When a word is an ILLEGAL_COMMAND (spec/30_encoding.md R112): conditions 3 to 5 over the fields of a command's word
are the failure of `Instr.wf`, and conditions 1 and 2 the failure of `decodeRow`. -/

namespace Sys2Proof.Machine

/-- R112, conditions 3 to 5 over the word's fields. -/
def OperandsIllegal (np : NPoly) (w : Word) : Prop :=
  (fOp w ∈ vectorDOps ∧ fD w + (fV w + 1) > np.count) ∨
  (fOp w ∈ vectorAOps ∧ fA w + (fV w + 1) > np.count) ∨
  (fOp w ∈ vectorBOps ∧ fC w = 0 ∧ fB w + (fV w + 1) > np.count) ∨
  (fOp w ∈ vectorBOps ∧ fC w = 1 ∧ fB w ≥ np.count) ∨
  (fOp w = 0x33 ∧ fD w ≥ np.count) ∨
  ((fOp w = 0x10 ∨ fOp w = 0x11) ∧ fD w = fB w) ∨
  ((fOp w = 0x38 ∨ fOp w = 0x39) ∧ fD w < fB w + (fV w + 1) ∧ fB w < fD w + (fV w + 1))

theorem illegalByRule_iff {np : NPoly} {w : Word} :
    IllegalByRule np w ↔ (∀ r ∈ opRows, r.selects w = false) ∨ OperandsIllegal np w := Iff.rfl

/-! ## Conditions 3 to 5, shape by shape -/

section Shapes

variable {np : NPoly} {op g : Nat}

theorem vectorFits_iff {r : PReg} {v : VLen} : vectorFits np r v = true ↔ r.val + (v.val + 1) ≤ np.count :=
  decide_eq_true_iff

theorem registerFits_iff {r : PReg} : registerFits np r = true ↔ r.val < np.count := decide_eq_true_iff

theorem vectorsDisjoint_iff {d b : PReg} {v : VLen} :
    vectorsDisjoint d b v = true ↔ d.val + (v.val + 1) ≤ b.val ∨ b.val + (v.val + 1) ≤ d.val := decide_eq_true_iff

/-- A scalar command with one destination meets none of them. -/
theorem not_operandsIllegal_scalar {w : Word} (hlt : fOp w < 0x20) (hp2r : fOp w ≠ 0x10) (hdecomp : fOp w ≠ 0x11) :
    ¬ OperandsIllegal np w := by
  have hA : ∀ op ∈ vectorAOps, 0x20 ≤ op := by decide
  have hD : ∀ op ∈ vectorDOps, 0x20 ≤ op := by decide
  have hB : ∀ op ∈ vectorBOps, 0x20 ≤ op := by decide
  unfold OperandsIllegal
  rintro (⟨h, -⟩ | ⟨h, -⟩ | ⟨h, -⟩ | ⟨h, -⟩ | ⟨h, -⟩ | ⟨h, -⟩ | ⟨h, -⟩)
  · exact absurd (hD _ h) (by omega)
  · exact absurd (hA _ h) (by omega)
  · exact absurd (hB _ h) (by omega)
  · exact absurd (hB _ h) (by omega)
  all_goals omega

theorem operandsLegal_formR_scalar (hop : op < 0x20 ∧ op ≠ 0x10 ∧ op ≠ 0x11) (hg : g ≤ 1) (d a : SReg) {b : Nat}
    (hb : b < 64) : ¬ OperandsIllegal np (formR op d a b 0 0 g) := by
  have hfop : fOp (formR op d a b 0 0 g) = op :=
    fOp_formR (by omega) d.lt_64 a.lt_64 hb (by decide) (by decide) (Nat.lt_succ_of_le hg)
  exact not_operandsIllegal_scalar (by omega) (by omega) (by omega)

theorem operandsLegal_formI {imm : Nat} (hop : op < 0x20 ∧ op ≠ 0x10 ∧ op ≠ 0x11) (d : SReg) (himm : imm < 2 ^ 20) :
    ¬ OperandsIllegal np (formI op d imm) := by
  obtain ⟨hfop, -⟩ := fields_formI (op := op) (by omega) d.lt_64 himm
  exact not_operandsIllegal_scalar (by omega) (by omega) (by omega)

/-- P2R and DECOMP: the destinations differ. -/
theorem operandsLegal_twoScalars_iff (hop : op ∈ [0x10, 0x11]) (hg : g ≤ 1) (d a b : SReg) :
    ¬ OperandsIllegal np (formR op d a b 0 0 g) ↔ decide (d ≠ b) = true := by
  have hkind : ∀ op ∈ [0x10, 0x11], op < 64 ∧ op ∉ vectorDOps ∧ op ∉ vectorAOps ∧ op ∉ vectorBOps ∧
    op ≠ 0x33 ∧ (op = 0x10 ∨ op = 0x11) ∧ ¬ (op = 0x38 ∨ op = 0x39) := by decide
  obtain ⟨hlt, hD, hA, hB, hdot, hscalar, hpair⟩ := hkind op hop
  simp [OperandsIllegal, fields_formR, hlt, hg, SReg.lt_64, hD, hA, hB, hdot, hscalar, hpair, Fin.ext_iff]

/-- PADD, PSUB, PMUL, PMKHINT and PUSEHINT: D, A and B fit. -/
theorem operandsLegal_P3C_iff (hop : op ∈ [0x20, 0x21, 0x32, 0x3C, 0x3D]) (hg : g ≤ 1) (d a b : PReg) (v : VLen)
    (c : Bcast) : ¬ OperandsIllegal np (formR op d a b v c.bit g) ↔
      (vectorFits np d v && vectorFits np a v && operandBFits np b v c) = true := by
  have hkind : ∀ op ∈ [0x20, 0x21, 0x32, 0x3C, 0x3D],
    op < 64 ∧ op ∈ vectorDOps ∧ op ∈ vectorAOps ∧ op ∈ vectorBOps ∧
    op ≠ 0x33 ∧ ¬ (op = 0x10 ∨ op = 0x11) ∧ ¬ (op = 0x38 ∨ op = 0x39) := by decide
  obtain ⟨hlt, hD, hA, hB, hdot, hscalar, hpair⟩ := hkind op hop
  cases c <;>
    simp [OperandsIllegal, fields_formR, hlt, hg, hD, hA, hB, hdot, hscalar, hpair, vectorFits_iff, registerFits_iff,
      operandBFits, Bcast.bit, and_assoc]

/-- The commands with one vector source: D and A fit. -/
theorem operandsLegal_P2_iff
    (hop : op ∈ [0x22, 0x23, 0x24, 0x25, 0x26, 0x27, 0x30, 0x31, 0x3A, 0x3B]) (hg : g ≤ 1) (d a : PReg) {b : Nat}
    (hb : b < 64) (v : VLen) : ¬ OperandsIllegal np (formR op d a b v 0 g) ↔
      (vectorFits np d v && vectorFits np a v) = true := by
  have hkind : ∀ op ∈ [0x22, 0x23, 0x24, 0x25, 0x26, 0x27, 0x30, 0x31, 0x3A, 0x3B],
    op < 64 ∧ op ∈ vectorDOps ∧ op ∈ vectorAOps ∧ op ∉ vectorBOps ∧
    op ≠ 0x33 ∧ ¬ (op = 0x10 ∨ op = 0x11) ∧ ¬ (op = 0x38 ∨ op = 0x39) := by decide
  obtain ⟨hlt, hD, hA, hB, hdot, hscalar, hpair⟩ := hkind op hop
  simp [OperandsIllegal, fields_formR, hlt, hg, hb, hD, hA, hB, hdot, hscalar, hpair, vectorFits_iff]

/-- PNORM, PNORMZ and PWGT: A fits. -/
theorem operandsLegal_SP_iff (hop : op ∈ [0x28, 0x29, 0x3E]) (d : SReg) (a : PReg) (v : VLen) :
    ¬ OperandsIllegal np (formR op d a 0 v 0 0) ↔ vectorFits np a v = true := by
  have hkind : ∀ op ∈ [0x28, 0x29, 0x3E], op < 64 ∧ op ∉ vectorDOps ∧ op ∈ vectorAOps ∧ op ∉ vectorBOps ∧
    op ≠ 0x33 ∧ ¬ (op = 0x10 ∨ op = 0x11) ∧ ¬ (op = 0x38 ∨ op = 0x39) := by decide
  obtain ⟨hlt, hD, hA, hB, hdot, hscalar, hpair⟩ := hkind op hop
  simp [OperandsIllegal, fields_formR, hlt, SReg.lt_64, hD, hA, hB, hdot, hscalar, hpair, vectorFits_iff]

/-- PDOT: its destination is one register. -/
theorem operandsLegal_pdot_iff (d a b : PReg) (v : VLen) (c : Bcast) :
    ¬ OperandsIllegal np (formR 0x33 d a b v c.bit 0) ↔
      (registerFits np d && vectorFits np a v && operandBFits np b v c) = true := by
  cases c <;>
    simp [OperandsIllegal, fields_formR, vectorDOps, vectorAOps, vectorBOps, vectorFits_iff, registerFits_iff,
      operandBFits, Bcast.bit, and_assoc, and_comm, and_left_comm]

/-- PP2R and PDECOMP: D, A and B fit, and the destinations do not intersect. -/
theorem operandsLegal_twoVectors_iff (hop : op ∈ [0x38, 0x39]) (hg : g ≤ 1) (d a b : PReg) (v : VLen) :
    ¬ OperandsIllegal np (formR op d a b v 0 g) ↔
      (vectorFits np d v && vectorFits np a v && vectorFits np b v && vectorsDisjoint d b v) = true := by
  have hkind : ∀ op ∈ [0x38, 0x39], op < 64 ∧ op ∈ vectorDOps ∧ op ∈ vectorAOps ∧ op ∈ vectorBOps ∧
    op ≠ 0x33 ∧ ¬ (op = 0x10 ∨ op = 0x11) ∧ (op = 0x38 ∨ op = 0x39) := by decide
  obtain ⟨hlt, hD, hA, hB, hdot, hscalar, hpair⟩ := hkind op hop
  simp [OperandsIllegal, fields_formR, hlt, hg, hD, hA, hB, hdot, hscalar, hpair, vectorFits_iff,
    vectorsDisjoint_iff, and_assoc, imp_iff_or_not]

end Shapes

/-- Conditions 3 to 5 over the fields of a command's word are the failure of `Instr.wf`. -/
theorem wf_iff_operandsLegal (np : NPoly) (i : Instr) : i.wf np = true ↔ ¬ OperandsIllegal np (encode i) := by
  cases i with
  | nop => exact iff_of_true rfl (not_operandsIllegal_scalar (by decide) (by decide) (by decide))
  | add d a b | sub d a b | mul d a b =>
    exact iff_of_true rfl (operandsLegal_formR_scalar (by decide) (by decide) d a b.lt_64)
  | neg d a | red d a | tosym d a | fromsym d a | norm d a | mov d a =>
    exact iff_of_true rfl (operandsLegal_formR_scalar (by decide) (by decide) d a (by decide))
  | li d imm =>
    exact iff_of_true rfl (operandsLegal_formI (by decide) d imm.isLt)
  | zeta d k =>
    exact iff_of_true rfl (operandsLegal_formI (by decide) d (k.isLt.trans (by decide)))
  | p2r d a b =>
    exact (operandsLegal_twoScalars_iff (by decide) (by decide) d a b).symm
  | decomp d a b g =>
    exact (operandsLegal_twoScalars_iff (by decide) g.bit_le d a b).symm
  | high d a g | low d a g =>
    exact iff_of_true rfl (operandsLegal_formR_scalar (by decide) g.bit_le d a (by decide))
  | mkhint d a b g | usehint d a b g =>
    exact iff_of_true rfl (operandsLegal_formR_scalar (by decide) g.bit_le d a b.lt_64)
  | padd d a b v c | psub d a b v c | pmul d a b v c =>
    exact (operandsLegal_P3C_iff (by decide) (by decide) d a b v c).symm
  | pneg d a v | pmov d a v | ptosym d a v | pfromsym d a v | pred d a v | ntt d a v | intt d a v =>
    exact (operandsLegal_P2_iff (by decide) (by decide) d a (by decide) v).symm
  | psmul d a b v =>
    exact (operandsLegal_P2_iff (by decide) (by decide) d a b.lt_64 v).symm
  | pnorm d a v | pnormz d a v | pwgt d a v =>
    exact (operandsLegal_SP_iff (by decide) d a v).symm
  | pdot d a b v c =>
    exact (operandsLegal_pdot_iff d a b v c).symm
  | pp2r d a b v =>
    exact (operandsLegal_twoVectors_iff (by decide) (by decide) d a b v).symm
  | pdecomp d a b v g =>
    exact (operandsLegal_twoVectors_iff (by decide) g.bit_le d a b v).symm
  | phigh d a v g | plow d a v g =>
    exact (operandsLegal_P2_iff (by decide) g.bit_le d a (by decide) v).symm
  | pmkhint d a b v c g | pusehint d a b v c g =>
    exact (operandsLegal_P3C_iff (by decide) g.bit_le d a b v c).symm

/-! ## A word is illegal by the rule exactly when the decoder rejects it -/

/-- Conditions 1 and 2: no row selects the word exactly when `decodeRow` reads no command. -/
theorem decodeRow_ok_iff_selected {w : Word} : (∃ i, decodeRow w = .ok i) ↔ ∃ r ∈ opRows, r.selects w = true := by
  obtain ⟨hrow, hcommand, -⟩ := opcodeMapSelectsTheCommand
  constructor
  · rintro ⟨i, hi⟩
    obtain ⟨r, hr, -, hsel⟩ := hrow w i hi
    exact ⟨r, hr, OpRow.selects_iff.2 hsel⟩
  · rintro ⟨r, hr, hsel⟩
    obtain ⟨i, hi, -⟩ := hcommand w r hr (OpRow.selects_iff.1 hsel)
    exact ⟨i, hi⟩

/-- R112: the decoder accepts exactly the words that meet none of the five conditions. -/
theorem decodeWord_ok_iff_legal {np : NPoly} {w : Word} :
    (∃ i, decodeWord np w = .ok i) ↔ ¬ IllegalByRule np w := by
  rw [illegalByRule_iff, not_or]
  have hselected : ¬ (∀ r ∈ opRows, r.selects w = false) ↔ ∃ i, decodeRow w = .ok i := by
    rw [decodeRow_ok_iff_selected]
    push Not
    simp only [ne_eq, Bool.not_eq_false]
  rw [hselected]
  constructor
  · rintro ⟨i, hi⟩
    obtain ⟨hrow, hwf⟩ := (decodeWord_ok np w i).1 hi
    exact ⟨⟨i, hrow⟩, encode_of_decodeRow hrow ▸ (wf_iff_operandsLegal np i).1 hwf⟩
  · rintro ⟨⟨i, hrow⟩, hlegal⟩
    refine ⟨i, (decodeWord_ok np w i).2 ⟨hrow, (wf_iff_operandsLegal np i).2 ?_⟩⟩
    rwa [encode_of_decodeRow hrow]

theorem completeStep_of_error {s : State} {w : Word} {e : Reject} (h : decodeWord s.cfg.npoly w = .error e) :
    completeStep w s = .next (takeIllegal w s) := by
  rw [completeStep, h]

/-- Settles O4: the decoder accepts exactly the legal words (`decodeWord_ok_iff_legal`), and the complete step of a
word it rejects is `takeIllegal`. -/
theorem illegalCommandExactlyByTheConditions : Obligations.IllegalCommandExactlyByTheConditions := by
  unfold Obligations.IllegalCommandExactlyByTheConditions
  intro s w hmove
  rw [step_complete hmove]
  constructor
  · intro hillegal
    cases hdec : decodeWord s.cfg.npoly w with
    | ok i => exact absurd hillegal (decodeWord_ok_iff_legal.1 ⟨i, hdec⟩)
    | error e => rw [completeStep_of_error (s := passed s) hdec, takeIllegal_eq, passed_sreg, passed_pmem, passed_draws]
  · intro hlegal
    obtain ⟨i, hi⟩ := decodeWord_ok_iff_legal.2 hlegal
    exact ⟨i, hi, completeStep_of_ok (s := passed s) hi⟩

end Sys2Proof.Machine
end

section
/-! The assembler (spec/30_encoding.md R117 to R120): registers in range, qualifiers read or refused. -/

namespace Sys2Proof.Machine

/-! ## The operand shapes on registers (R119) -/

theorem shapeSSS_registers (d a b : SReg) (mk : SReg → SReg → SReg → Instr) :
    shapeSSS [.s d, .s a, .s b] mk = .ok [mk d a b] := by
  simp [shapeSSS, inRange]

theorem shapeSS_registers (d a : SReg) (mk : SReg → SReg → Instr) : shapeSS [.s d, .s a] mk = .ok [mk d a] := by
  simp [shapeSS, inRange]

theorem shapePPP_registers (d a b : PReg) (mk : PReg → PReg → PReg → Instr) :
    shapePPP [.p d, .p a, .p b] mk = .ok [mk d a b] := by
  simp [shapePPP, inRange]

theorem shapePPS_registers (d a : PReg) (b : SReg) (mk : PReg → PReg → SReg → Instr) :
    shapePPS [.p d, .p a, .s b] mk = .ok [mk d a b] := by
  simp [shapePPS, inRange]

theorem clr_register (d : SReg) : clr [.s d] = .ok [.li d 0#20] := by
  simp [clr, inRange]

theorem lin_register (d : SReg) {n : Nat} (hpos : 1 ≤ n) (hlt : n < 2 ^ 20) :
    lin [.s d, .imm n] = .ok [.li d (BitVec.ofNat 20 n), .neg d d] := by
  have hn : (decide (d.val < 16) && decide (1 ≤ n) && decide (n < 2 ^ 20)) = true := by
    rw [decide_eq_true d.isLt, decide_eq_true hpos, decide_eq_true hlt]
    rfl
  simp only [lin, inRange, hn, if_true, sField_val]

theorem matvec_registers (D A B : PReg) {k l : Nat} (hk : 1 ≤ k ∧ k ≤ 8) (hl : 1 ≤ l ∧ l ≤ 8) (hD : D.val + k ≤ 64)
    (hA : A.val + k * l ≤ 64) : matvec [.k k, .l l] [.p D, .p A, .p B] = .ok (matvecRows k l D A B) := by
  have hregs : (decide (D.val + k ≤ 64) && decide (A.val + k * l ≤ 64) && decide (B.val < 64)) = true := by
    simp [hD, hA]
  rw [matvec, if_pos ⟨hk.1, hk.2, hl.1, hl.2⟩, inRange, if_pos hregs]

/-! ## Qualifiers that are read (R118) -/

theorem readQuals_v {al : Allowed} (hal : al.v = true) (v : VLen) (qs : List Qualifier) {q : Quals} (hq : q.v = none) :
    readQuals al (.v v.vl :: qs) q = readQuals al qs { q with v := some v } := by
  have hlen : 1 ≤ v.vl ∧ v.vl ≤ 8 := ⟨v.vl_pos, v.vl_le⟩
  have hfield : Fin.ofNat 8 (v.vl - 1) = v := vField_val v
  rw [readQuals, hal, hq, decide_eq_true hlen, hfield]
  rfl

theorem qualified_of_readQuals {al : Allowed} {qs : List Qualifier} {q : Quals} (h : readQuals al qs {} = .ok q)
    (f : Quals → Except AsmError (List Instr)) : qualified al qs f = f q := by
  rw [qualified, h]

theorem qualified_v {al : Allowed} (hal : al.v = true) (v : VLen) (f : Quals → Except AsmError (List Instr)) :
    qualified al [.v v.vl] f = f { v := some v } :=
  qualified_of_readQuals (readQuals_v hal v [] rfl) f

/-! ## Qualifiers that are refused (R118) -/

/-- With these operands the mnemonic names a command that allows the qualifiers of `al` (R113, R118). -/
def Takes (al : Allowed) (m : String) (ops : List AsmOperand) : Prop :=
  ∃ f, ∀ qs, assemble m qs ops = qualified al qs f

section Refused

variable {al : Allowed} {m : String} {ops : List AsmOperand} (h : Takes al m ops)
include h

theorem Takes.refuses_v (hal : al.v = false) (n : Nat) : assemble m [.v n] ops = .error .badQualifier := by
  obtain ⟨f, hf⟩ := h
  rw [hf, qualified, readQuals, hal]
  rfl

theorem Takes.refuses_bc (hal : al.c = false) : assemble m [.bc] ops = .error .badQualifier := by
  obtain ⟨f, hf⟩ := h
  rw [hf, qualified, readQuals, hal]
  rfl

theorem Takes.refuses_g (hal : al.g = false) :
    assemble m [.g88] ops = .error .badQualifier ∧ assemble m [.g32] ops = .error .badQualifier := by
  obtain ⟨f, hf⟩ := h
  constructor
  · rw [hf, qualified, readQuals, hal]
    rfl
  · rw [hf, qualified, readQuals, hal]
    rfl

/-- R118: `.vN` is `.v1` to `.v8`, for every command. -/
theorem Takes.refuses_v_outOfRange {n : Nat} (hn : n = 0 ∨ 8 < n) : assemble m [.v n] ops = .error .badQualifier := by
  obtain ⟨f, hf⟩ := h
  have hlen : ¬ (1 ≤ n ∧ n ≤ 8) := by omega
  rw [hf, qualified, readQuals, decide_eq_false hlen, Bool.and_false]
  rfl

end Refused

/-! ## The pseudo-instructions and the unusual shapes -/

/-- Settles O7: each pseudo-instruction by its shape's lemma. -/
theorem pseudoInstructionExpansions : Obligations.PseudoInstructionExpansions := by
  unfold Obligations.PseudoInstructionExpansions
  intro d a D A B v
  refine ⟨clr_register d, shapeSS_registers d a fun d a => .mul d a a, fun n => lin_register d, ?_, ?_, ?_, ?_⟩
  · exact (qualified_v rfl v _).trans (shapePPP_registers D A B _)
  · exact (qualified_v rfl v _).trans (shapePPP_registers D A B _)
  · exact (qualified_v rfl v _).trans (shapePPP_registers D A B _)
  · intro k l hk1 hk8 hl1 hl8 hD hA
    have hrows : matvecRows k l D A B = (List.range k).map fun i =>
        .pdot (Fin.ofNat 64 (D + i)) (Fin.ofNat 64 (A + l * i)) B (Fin.ofNat 8 (l - 1)) .each := by
      simp only [matvecRows, pField_val]
      rfl
    rw [← hrows]
    exact matvec_registers D A B ⟨hk1, hk8⟩ ⟨hl1, hl8⟩ hD hA

/-- R118, R119: destinations first, and what each qualifier sets. -/
theorem assemble_destinations_first (d a b : SReg) (D A B : PReg) (v : VLen) :
    assemble "p2r" [] [.s d, .s b, .s a] = .ok [.p2r d a b] ∧
    assemble "decomp" [.g32] [.s d, .s b, .s a] = .ok [.decomp d a b .g32] ∧
    assemble "decomp" [.g88] [.s d, .s b, .s a] = .ok [.decomp d a b .g88] ∧
    assemble "pp2r" [.v v.vl] [.p D, .p B, .p A] = .ok [.pp2r D A B v] ∧
    assemble "pdecomp" [.v v.vl] [.p D, .p B, .p A] = .ok [.pdecomp D A B v .g88] ∧
    assemble "usehint" [] [.s d, .s a, .s b] = .ok [.usehint d a b .g88] ∧
    assemble "padd" [.v v.vl, .bc] [.p D, .p A, .p B] = .ok [.padd D A B v .one] ∧
    assemble "padd" [] [.p D, .p A, .p B] = .ok [.padd D A B 0 .each] ∧
    assemble "pmkhint" [.v v.vl] [.p D, .p A, .p B] = .ok [.pmkhint D A B v .each .g88] ∧
    assemble "pusehint" [.bc, .g32] [.p D, .p A, .p B] = .ok [.pusehint D A B 0 .one .g32] ∧
    assemble "psmul" [] [.p D, .p A, .s b] = .ok [.psmul D A b 0] := by
  refine ⟨shapeSSS_registers d b a fun d b a => .p2r d a b, shapeSSS_registers d b a fun d b a => .decomp d a b .g32,
    shapeSSS_registers d b a fun d b a => .decomp d a b .g88, ?_, ?_,
    shapeSSS_registers d a b fun d a b => .usehint d a b .g88, ?_,
    shapePPP_registers D A B fun D A B => .padd D A B 0 .each, ?_,
    shapePPP_registers D A B fun D A B => .pusehint D A B 0 .one .g32,
    shapePPS_registers D A b fun D A b => .psmul D A b 0⟩
  · exact (qualified_v rfl v _).trans (shapePPP_registers D B A fun D B A => .pp2r D A B v)
  · exact (qualified_v rfl v _).trans (shapePPP_registers D B A fun D B A => .pdecomp D A B v .g88)
  · have hquals : readQuals { v := true, c := true } [.v v.vl, .bc] {} = .ok { v := some v, c := some .one } :=
      (readQuals_v rfl v [.bc] rfl).trans rfl
    exact (qualified_of_readQuals hquals _).trans (shapePPP_registers D A B fun D A B => .padd D A B v .one)
  · exact (qualified_v rfl v _).trans (shapePPP_registers D A B fun D A B => .pmkhint D A B v .each .g88)

/-- Settles O8: the operand order by the shapes' lemmas, the errors by the columns of the qualifiers each command
allows. -/
theorem assemblerNamesDestinationsFirst : Obligations.AssemblerNamesDestinationsFirst := by
  unfold Obligations.AssemblerNamesDestinationsFirst
  refine ⟨assemble_destinations_first, fun ops n => ⟨?_, ?_, ?_, ?_⟩⟩
  · intro m hm
    fin_cases hm <;> exact Takes.refuses_v ⟨_, fun _ => rfl⟩ rfl n
  · intro m hm
    fin_cases hm <;> exact Takes.refuses_bc ⟨_, fun _ => rfl⟩ rfl
  · intro m hm
    fin_cases hm <;> exact Takes.refuses_g ⟨_, fun _ => rfl⟩ rfl
  · intro hn m hm
    fin_cases hm <;> exact Takes.refuses_v_outOfRange ⟨_, fun _ => rfl⟩ hn

end Sys2Proof.Machine
end

section
/-! The field helpers give exact residues (spec/00_scope.md R16; 40_field.md R142, R144). -/

namespace Sys2Proof.Machine

theorem reduceOnce_of_lt {a : Int} (h : a < q) : reduceOnce a = a := if_neg (not_le.2 h)

theorem reduceOnce_add_q {a : Int} (h : 0 ≤ a) : reduceOnce (a + q) = a := by
  rw [reduceOnce, if_pos (by omega), Int.add_sub_cancel]

/-- The one conditional subtraction is the whole reduction, below 2q. -/
theorem reduceOnce_eq_emod {a : Int} (h0 : 0 ≤ a) (h2 : a < 2 * q) : reduceOnce a = a % q := by
  by_cases ha : a < q
  · rw [reduceOnce_of_lt ha, Int.emod_eq_of_lt h0 ha]
  · obtain ⟨b, rfl⟩ : ∃ b, a = b + q := ⟨a - q, by omega⟩
    rw [reduceOnce_add_q (by omega), Int.add_emod_right, Int.emod_eq_of_lt (by omega) (by omega)]

section Residues

variable {x y : Int} (hx0 : 0 ≤ x) (hxq : x < q) (hy0 : 0 ≤ y) (hyq : y < q)

include hx0 hxq hy0 hyq in
theorem fadd_eq_emod : fadd x y = (x + y) % q := reduceOnce_eq_emod (by omega) (by omega)

include hx0 hxq hy0 hyq in
theorem fsub_eq_emod : fsub x y = (x - y) % q := by
  rw [fsub, reduceOnce_eq_emod (by omega) (by omega), Int.add_emod_right]

include hx0 hxq in
theorem fneg_eq_emod : fneg x = (-x) % q := by
  rw [fneg, fsub_eq_emod le_rfl (by decide) hx0 hxq, Int.zero_sub]

include hx0 hxq in
theorem fadd_fneg : fadd x (fneg x) = 0 := by
  have hn0 : 0 ≤ -x % q := Int.emod_nonneg _ (by decide)
  have hnq : -x % q < q := Int.emod_lt_of_pos _ (by decide)
  rw [fneg_eq_emod hx0 hxq, fadd_eq_emod hx0 hxq hn0 hnq, Int.add_emod_emod, Int.add_right_neg, Int.zero_emod]

include hx0 hxq in
theorem fmul_one : fmul x 1 = x := by
  rw [fmul, Int.mul_one, Int.emod_eq_of_lt hx0 hxq]

end Residues

theorem fmul_zero (x : Int) : fmul x 0 = 0 := by
  rw [fmul, Int.mul_zero, Int.zero_emod]

/-- R132 without the detour over q: q is added exactly when the difference is negative. -/
theorem fsub_eq_ite (x y : Int) : fsub x y = if x - y + q ≥ q then x - y else x - y + q := by
  rw [fsub, reduceOnce, Int.add_sub_cancel]

/-- R133: the negation of 0 is 0, not q. -/
theorem fneg_eq_ite {x : Int} (h : 0 ≤ x) : fneg x = if x = 0 then 0 else q - x := by
  rw [fneg, fsub_eq_ite]
  by_cases hx : x = 0
  · simp [hx]
  · rw [if_neg hx, if_neg (by omega), Int.zero_sub, neg_add_eq_sub]

theorem fneg_natCast (n : Nat) : fneg n = if n = 0 then 0 else (8380417 : Int) - n := by
  rw [fneg_eq_ite (Int.natCast_nonneg n), q]
  simp only [Int.natCast_eq_zero]

/-! ## The symmetric representative -/

/-- (q − 1)/2, the greatest symmetric representative. -/
theorem half_q : (q - 1) / 2 = 4190208 := by decide

theorem toSym_low {x : Int} (h : x ≤ 4190208) : toSym x = x := if_pos (half_q ▸ h)

theorem toSym_high {x : Int} (h : 4190208 < x) : toSym x = x - q := if_neg (not_le.2 (half_q ▸ h))

theorem toSym_sub_emod (x : Int) : (toSym x - x) % q = 0 := by
  rcases le_or_gt x 4190208 with h | h
  · rw [toSym_low h, Int.sub_self, Int.zero_emod]
  · rw [toSym_high h, sub_right_comm, Int.sub_self, Int.zero_sub, Int.neg_emod_self]

section Symmetric

variable {x : Int} (hx0 : 0 ≤ x) (hxq : x < q)
include hx0 hxq

theorem toSym_range : -4190208 ≤ toSym x ∧ toSym x ≤ 4190208 := by
  rcases le_or_gt x 4190208 with h | h
  · rw [toSym_low h]; omega
  · rw [toSym_high h]; simp only [q] at *; omega

theorem fromSym_toSym : fromSym (toSym x) = x := by
  rcases le_or_gt x 4190208 with h | h
  · rw [toSym_low h, fromSym, if_neg (not_lt.2 hx0)]
  · rw [toSym_high h, fromSym, if_pos (Int.sub_neg_of_lt hxq), Int.sub_add_cancel]

/-- R138: the norm is the absolute value of the symmetric representative. -/
theorem fnorm_eq_abs_toSym : fnorm x = |toSym x| := by
  rcases le_or_gt x 4190208 with h | h
  · rw [toSym_low h, abs_of_nonneg hx0, fnorm, min_eq_left (by simp only [q]; omega)]
  · rw [toSym_high h, abs_of_neg (Int.sub_neg_of_lt hxq), Int.neg_sub, fnorm, min_eq_right (by simp only [q]; omega)]

theorem fnorm_range : 0 ≤ fnorm x ∧ fnorm x < q :=
  ⟨le_min hx0 (Int.sub_nonneg_of_le hxq.le), min_lt_of_left_lt hxq⟩

end Symmetric

/-- Settles O41: the residues of the operations, the symmetric representative, and the laws of R144. -/
theorem fieldResultsAreExactResidues : Obligations.FieldResultsAreExactResidues := by
  unfold Obligations.FieldResultsAreExactResidues
  intro x y hx0 hxq hy0 hyq
  obtain ⟨hnorm0, hnormq⟩ := fnorm_range hx0 hxq
  obtain ⟨hsymLow, hsymHigh⟩ := toSym_range hx0 hxq
  exact ⟨⟨fadd_eq_emod hx0 hxq hy0 hyq, fsub_eq_emod hx0 hxq hy0 hyq, fneg_eq_emod hx0 hxq, rfl,
      fnorm_eq_abs_toSym hx0 hxq, hnorm0, hnormq, toSym_sub_emod x, hsymLow, hsymHigh, fromSym_toSym hx0 hxq⟩,
    reduceOnce_add_q hx0, reduceOnce_of_lt hxq, fadd_fneg hx0 hxq, fmul_one hx0 hxq, fmul_zero x⟩

end Sys2Proof.Machine
end

section
/-! The scalar commands (spec/40_field.md R130 to R141): the shapes of Machine/Operands.lean meet the rules of
Safety.lean, and each command is one of the shapes. -/

namespace Sys2Proof.Machine

/-! ## The operand types of the rules -/

theorem legal_F_iff (w : Word) : OpType.F.legal w = true ↔ IsF w := by
  rw [OpType.legal, decide_eq_true_iff, IsF, q]
  exact Int.ofNat_lt

theorem legal_W_iff (w : Word) : OpType.W.legal w = true ↔ IsW w := by
  rw [OpType.legal, decide_eq_true_iff, IsW, q]
  exact Int.ofNat_lt

theorem legal_S_iff (w : Word) : OpType.S.legal w = true ↔ IsS w := by
  simp only [OpType.legal, IsS, half_q, Bool.and_eq_true, decide_eq_true_eq]

/-! ## The opcode of a scalar command -/

theorem fOp_formR_scalar {op g : Nat} (ho : op < 64) (hg : g < 2) (d a b : SReg) :
    fOp (formR op d a b 0 0 g) = op :=
  fOp_formR ho d.lt_64 a.lt_64 b.lt_64 (by decide) (by decide) hg

theorem fOp_formR_DAB {op : Nat} (ho : op < 64) (d a b : SReg) : fOp (formR op d a b 0 0 0) = op :=
  fOp_formR_scalar ho (by decide) d a b

theorem fOp_formR_DA {op : Nat} (ho : op < 64) (d a : SReg) : fOp (formR op d a 0 0 0 0) = op :=
  fOp_formR_DAB ho d a 0

/-! ## Reading a scalar register, and the two ends -/

theorem readS_legal {s : State} {a : SReg} {t : OpType} {w : Word} {n n' : Nat} (hw : look (s.s a) n = (w, n'))
    (h : t.legal w = true) : readS s a t n = .ok (t.value w) n' := by
  rw [readS, readTyped_legal _ (by rwa [hw]), hw]

theorem readS_illegal {s : State} {a : SReg} {t : OpType} {w : Word} {n n' : Nat} (hw : look (s.s a) n = (w, n'))
    (h : t.legal w = false) : readS s a t n = .bad ⟨.sreg, a.val, 0⟩ n' := by
  rw [readS, readTyped_illegal _ (by rwa [hw]), hw]

theorem errlocWord_sreg (a : SReg) : errlocWord (some ⟨.sreg, a.val, 0⟩) = scalarLoc a := by
  simp [errlocWord, scalarLoc, RegFile.bit, Nat.mul_comm]

theorem conclude_writeS (i : Instr) (s : State) (d : SReg) (v : Int) (n : Nat) :
    conclude i s (.ok (s.writeS d v) n) = .next (retiredWith s (s.sreg.set d (.val (wordOf v))) s.pmem n) := rfl

theorem conclude_bad_sreg {i : Instr} {d : SReg} (hd : destsOf i = [.s d]) (s : State) (a : SReg) (n : Nat) :
    conclude i s (.bad ⟨.sreg, a.val, 0⟩ n) =
      .next (faultedWith s (encode i) .operandRange (scalarLoc a) (s.sreg.set d .bot) s.pmem n) := by
  rw [conclude_bad, takeFault_eq, errlocWord_sreg, hd]
  rfl

/-! ## The shapes, for any words read, ⊥ among them -/

section Unary

variable {i : Instr} {t : OpType} {f : Int → Int} {d a : SReg} {s : State} {w : Word} {n : Nat}
  (hw : look (s.s a) s.draws = (w, n))
include hw

theorem scalarUnary_completes (h : t.legal w = true) :
    scalarUnary i t f d a s = .next (retiredWith s (s.sreg.set d (.val (wordOf (f (t.value w))))) s.pmem n) := by
  rw [scalarUnary, readS_legal hw h, Fetched.bind_ok, conclude_writeS]

theorem scalarUnary_faults (hd : destsOf i = [.s d]) (h : t.legal w = false) :
    scalarUnary i t f d a s =
      .next (faultedWith s (encode i) .operandRange (scalarLoc a) (s.sreg.set d .bot) s.pmem n) := by
  rw [scalarUnary, readS_illegal hw h, Fetched.bind_bad, conclude_bad_sreg hd]

end Unary

section Binary

variable {i : Instr} {t u : OpType} {f : Int → Int → Int} {d a b : SReg} {s : State} {w v : Word} {n n' : Nat}
  (hw : look (s.s a) s.draws = (w, n)) (hv : look (s.s b) n = (v, n'))

include hw in
theorem scalarBinary_faults_first (hd : destsOf i = [.s d]) (h : t.legal w = false) :
    scalarBinary i t u f d a b s =
      .next (faultedWith s (encode i) .operandRange (scalarLoc a) (s.sreg.set d .bot) s.pmem n) := by
  rw [scalarBinary, readS_illegal hw h, Fetched.bind_bad, conclude_bad_sreg hd]

include hw hv

theorem scalarBinary_completes (ht : t.legal w = true) (hu : u.legal v = true) :
    scalarBinary i t u f d a b s =
      .next (retiredWith s (s.sreg.set d (.val (wordOf (f (t.value w) (u.value v))))) s.pmem n') := by
  rw [scalarBinary, readS_legal hw ht, Fetched.bind_ok, readS_legal hv hu, Fetched.bind_ok, conclude_writeS]

theorem scalarBinary_faults_second (hd : destsOf i = [.s d]) (ht : t.legal w = true) (hu : u.legal v = false) :
    scalarBinary i t u f d a b s =
      .next (faultedWith s (encode i) .operandRange (scalarLoc b) (s.sreg.set d .bot) s.pmem n') := by
  rw [scalarBinary, readS_legal hw ht, Fetched.bind_ok, readS_illegal hv hu, Fetched.bind_bad, conclude_bad_sreg hd]

end Binary

theorem scalarConst_completes (i : Instr) (v : Int) (d : SReg) (s : State) :
    scalarConst i v d s = .next (retiredWith s (s.sreg.set d (.val (wordOf v))) s.pmem s.draws) :=
  conclude_writeS i s d v s.draws

/-! ## The shapes meet the rules -/

/-- A word that is not of the type's set is not a legal one. -/
theorem illegal_of_not {t : OpType} {ok : Word → Prop} (hok : ∀ w, t.legal w = true ↔ ok w) {w : Word} (h : ¬ ok w) :
    t.legal w = false :=
  Bool.eq_false_of_not_eq_true (mt (hok w).1 h)

/-- A command of the shape `scalarUnary` meets the rule of `OP sD, sA`. -/
theorem scalarUnaryRule_of_shape {mk : SReg → SReg → Instr} {op : Nat} {t : OpType} {ok : Word → Prop}
    {g : Int → Int} {f : Word → Int} (hop : ∀ d a, fOp (encode (mk d a)) = op) (hd : ∀ d a, destsOf (mk d a) = [.s d])
    (hexec : ∀ s d a, exec (mk d a) s = scalarUnary (mk d a) t g d a s) (hok : ∀ w, t.legal w = true ↔ ok w)
    (hf : ∀ w, ok w → g (t.value w) = f w) : ScalarUnaryRule mk op ok f := by
  intro s d a x hx
  have hlook : look (s.s a) s.draws = (x, s.draws) := by rw [hx, look_val]
  refine ⟨hop d a, fun h => ?_, fun h => ?_⟩
  · rw [hexec, scalarUnary_completes hlook ((hok x).2 h), hf x h]
  · rw [hexec, scalarUnary_faults hlook (hd d a) (illegal_of_not hok h)]

/-- A command of the shape `scalarBinary` meets the rule of `OP sD, sA, sB`. -/
theorem scalarBinaryRule_of_shape {mk : SReg → SReg → SReg → Instr} {op : Nat} {t u : OpType} {okA okB : Word → Prop}
    {g : Int → Int → Int} {f : Word → Word → Int} (hop : ∀ d a b, fOp (encode (mk d a b)) = op)
    (hd : ∀ d a b, destsOf (mk d a b) = [.s d])
    (hexec : ∀ s d a b, exec (mk d a b) s = scalarBinary (mk d a b) t u g d a b s)
    (hokA : ∀ w, t.legal w = true ↔ okA w) (hokB : ∀ w, u.legal w = true ↔ okB w)
    (hf : ∀ x y, okA x → okB y → g (t.value x) (u.value y) = f x y) : ScalarBinaryRule mk op okA okB f := by
  intro s d a b x hx
  have hlookA : look (s.s a) s.draws = (x, s.draws) := by rw [hx, look_val]
  refine ⟨hop d a b, fun h => ?_, fun y hy hA => ?_⟩
  · rw [hexec, scalarBinary_faults_first hlookA (hd d a b) (illegal_of_not hokA h)]
  · have hlookB : look (s.s b) s.draws = (y, s.draws) := by rw [hy, look_val]
    refine ⟨fun h => ?_, fun h => ?_⟩
    · rw [hexec, scalarBinary_completes hlookA hlookB ((hokA x).2 hA) ((hokB y).2 h), hf x y hA h]
    · rw [hexec, scalarBinary_faults_second hlookA hlookB (hd d a b) ((hokA x).2 hA) (illegal_of_not hokB h)]

/-- Settles O22: the three commands are of the shape `scalarBinary`, over the field's addition, subtraction
(`fsub_eq_ite`) and multiplication. -/
theorem addSubMul : Obligations.AddSubMul := by
  unfold Obligations.AddSubMul
  refine ⟨?add, ?sub, ?mul⟩
  case add =>
    exact scalarBinaryRule_of_shape (fOp_formR_DAB (by decide)) (fun _ _ _ => rfl) (fun _ _ _ _ => rfl)
      legal_F_iff legal_F_iff fun _ _ _ _ => rfl
  case sub =>
    exact scalarBinaryRule_of_shape (fOp_formR_DAB (by decide)) (fun _ _ _ => rfl) (fun _ _ _ _ => rfl)
      legal_F_iff legal_F_iff fun x y _ _ => fsub_eq_ite x.toNat y.toNat
  case mul =>
    exact scalarBinaryRule_of_shape (fOp_formR_DAB (by decide)) (fun _ _ _ => rfl) (fun _ _ _ _ => rfl)
      legal_F_iff legal_F_iff fun _ _ _ _ => rfl

/-- Settles O23: the five commands are of the shape `scalarUnary`, with the types F, W and S. -/
theorem negRedTosymFromsymNorm : Obligations.NegRedTosymFromsymNorm := by
  unfold Obligations.NegRedTosymFromsymNorm
  refine ⟨?neg, ?red, ?tosym, ?fromsym, ?norm⟩
  case neg =>
    exact scalarUnaryRule_of_shape (fOp_formR_DA (by decide)) (fun _ _ => rfl) (fun _ _ _ => rfl) legal_F_iff
      fun x _ => fneg_natCast x.toNat
  case red =>
    exact scalarUnaryRule_of_shape (fOp_formR_DA (by decide)) (fun _ _ => rfl) (fun _ _ _ => rfl) legal_W_iff
      fun _ _ => rfl
  case tosym =>
    exact scalarUnaryRule_of_shape (fOp_formR_DA (by decide)) (fun _ _ => rfl) (fun _ _ _ => rfl) legal_F_iff
      fun _ _ => rfl
  case fromsym =>
    exact scalarUnaryRule_of_shape (fOp_formR_DA (by decide)) (fun _ _ => rfl) (fun _ _ _ => rfl) legal_S_iff
      fun _ _ => rfl
  case norm =>
    exact scalarUnaryRule_of_shape (fOp_formR_DA (by decide)) (fun _ _ => rfl) (fun _ _ _ => rfl) legal_F_iff
      fun _ _ => rfl

/-! ## Words that are written unchanged -/

theorem wordOf_toInt (w : Word) : wordOf w.toInt = w := BitVec.ofInt_toInt

theorem wordOf_natCast (n : Nat) : wordOf n = BitVec.ofNat 32 n := BitVec.ofInt_natCast 32 n

/-- R140: the immediate is zero-extended. -/
theorem wordOf_imm (imm : BitVec 20) : wordOf imm.toNat = imm.setWidth 32 :=
  (wordOf_natCast imm.toNat).trans (BitVec.ofNat_toNat 32 imm)

/-- R139: MOV completes whatever the source holds, and writes the word it reads. -/
theorem exec_mov {s : State} {a : SReg} {w : Word} {n : Nat} (hw : look (s.s a) s.draws = (w, n)) (d : SReg) :
    exec (.mov d a) s = .next (retiredWith s (s.sreg.set d (.val w)) s.pmem n) := by
  have h := scalarUnary_completes (i := .mov d a) (t := .Z) (f := fun x => x) (d := d) hw rfl
  rwa [OpType.value, wordOf_toInt] at h

theorem exec_li (d : SReg) (imm : BitVec 20) (s : State) :
    exec (.li d imm) s = .next (retiredWith s (s.sreg.set d (.val (imm.setWidth 32))) s.pmem s.draws) := by
  rw [← wordOf_imm]
  exact scalarConst_completes _ _ d s

theorem exec_zeta (d : SReg) (k : Fin 256) (s : State) :
    exec (.zeta d k) s =
      .next (retiredWith s (s.sreg.set d (.val (BitVec.ofNat 32 (zromTable.getD k 0)))) s.pmem s.draws) := by
  rw [← wordOf_natCast]
  exact scalarConst_completes _ _ d s

theorem fOp_encode_li (d : SReg) (imm : BitVec 20) : fOp (encode (.li d imm)) = 0x0A :=
  (fields_formI (by decide) d.lt_64 imm.isLt).1

theorem fOp_encode_zeta (d : SReg) (k : Fin 256) : fOp (encode (.zeta d k)) = 0x0B :=
  (fields_formI (by decide) d.lt_64 (k.isLt.trans (by decide))).1

/-- Settles O24: NOP writes nothing, MOV writes the word it reads, LI and ZETA write the word the command names. -/
theorem nopMovLiZeta : Obligations.NopMovLiZeta := by
  unfold Obligations.NopMovLiZeta
  intro s d a x imm k
  refine ⟨rfl, fOp_formR_DA (by decide) d a, fOp_encode_li d imm, fOp_encode_zeta d k, rfl, fun hx => ?_, fun hbot => ?_,
    exec_li d imm s, exec_zeta d k s⟩
  · exact exec_mov (by rw [hx, look_val]) d
  · exact ⟨Config.freeWord s.draws, exec_mov (by rw [hbot, look_bot]) d⟩

end Sys2Proof.Machine
end

section
/-! The rounding and hint functions (spec/00_scope.md R17; 41_rounding.md R166 to R168). Modulo q the field is a circle of
m bands of width 2γ₂, band k around the multiple k·2γ₂; band 0 has one element more, −γ₂, because q = m·2γ₂ + 1. -/

namespace Sys2Proof.Machine

/-! ## Power2Round -/

/-- The low part is the remainder modulo 2^13 that lies in (−2^12, 2^12]. -/
theorem power2Low_spec (a : Int) : (8192 : Int) ∣ a - power2Low a ∧ -4096 < power2Low a ∧ power2Low a ≤ 4096 := by
  simp only [power2Low]
  split <;> omega

/-- Settles O42: the sum is exact because 2^13 divides a − r0, and the bounds of r1 follow from it. -/
theorem power2roundLaw : Obligations.Power2roundLaw := by
  unfold Obligations.Power2roundLaw
  intro a ha0 haq
  obtain ⟨hdvd, hlow, hhigh⟩ := power2Low_spec a
  have hsum : (power2round a).1 * 8192 = a - power2Low a := Int.ediv_mul_cancel hdvd
  have hr0 : (power2round a).2 = power2Low a := rfl
  simp only [q] at haq
  omega

/-! ## Decompose -/

theorem gamma2_pos (g : Gamma) : 0 < gamma2 g := by cases g <;> decide

theorem bands_pos (g : Gamma) : 0 < bands g := by cases g <;> decide

/-- R7: m = (q−1)/(2γ₂), without a remainder. -/
theorem bands_mul (g : Gamma) : bands g * (2 * gamma2 g) = q - 1 := by cases g <;> rfl

/-- The bands below m end at q − 1. -/
theorem band_le {g : Gamma} {k : Int} (hk : k < bands g) : k * (2 * gamma2 g) + 2 * gamma2 g ≤ q - 1 := by
  have hw : 0 ≤ 2 * gamma2 g := Int.mul_nonneg (by decide) (gamma2_pos g).le
  calc k * (2 * gamma2 g) + 2 * gamma2 g = (k + 1) * (2 * gamma2 g) := (add_one_mul _ _).symm
    _ ≤ bands g * (2 * gamma2 g) := Int.mul_le_mul_of_nonneg_right hk hw
    _ = q - 1 := bands_mul g

section Band

variable {g : Gamma} {e : Int} (hlow : -gamma2 g < e) (hhigh : e ≤ gamma2 g)

include hlow hhigh in
/-- The centred remainder of a number is its offset from the middle of its band. -/
theorem centred_add (k : Int) : centred (k * (2 * gamma2 g) + e) g = e := by
  simp only [centred, Int.mul_add_emod_self_right]
  rcases lt_or_ge e 0 with h | h
  · rw [← Int.add_emod_right, Int.emod_eq_of_lt (by omega) (by omega), if_pos (by omega), Int.add_sub_cancel]
  · rw [Int.emod_eq_of_lt h (by omega), if_neg (by omega)]

include hlow hhigh in
theorem decompose_add {k : Int} (hk : k < bands g) : decompose (k * (2 * gamma2 g) + e) g = (k, e) := by
  have hγ := gamma2_pos g
  have hle := band_le hk
  simp only [decompose, centred_add hlow hhigh, Int.add_sub_cancel]
  rw [if_neg (by omega), Int.mul_ediv_cancel _ (by omega)]

include hlow hhigh in
/-- The special case: the band around q − 1 belongs to band 0. -/
theorem decompose_top : decompose (q - 1 + e) g = (0, e - 1) := by
  simp only [decompose, ← bands_mul g, centred_add hlow hhigh, Int.add_sub_cancel, if_true]

end Band

theorem decompose_special {g : Gamma} {a : Int} (hlow : q - 1 - gamma2 g < a) (haq : a < q) :
    decompose a g = (0, a - q) := by
  have h := decompose_top (g := g) (e := a - (q - 1)) (by omega) (by have := gamma2_pos g; omega)
  rwa [show q - 1 + (a - (q - 1)) = a by omega, show a - (q - 1) - 1 = a - q by omega] at h

/-- Every number below the special case lies in a band. -/
theorem exists_band {g : Gamma} {a : Int} (ha0 : 0 ≤ a) (ha : a ≤ q - 1 - gamma2 g) :
    ∃ k e, 0 ≤ k ∧ k < bands g ∧ -gamma2 g < e ∧ e ≤ gamma2 g ∧ a = k * (2 * gamma2 g) + e := by
  refine ⟨(a + gamma2 g - 1) / (2 * gamma2 g), a - (a + gamma2 g - 1) / (2 * gamma2 g) * (2 * gamma2 g), ?_⟩
  cases g <;> simp only [gamma2, bands, q] at * <;> omega

/-- Settles O43: below the special case a is in a band (`exists_band`) and Decompose gives the band and the offset
(`decompose_add`); above it, `decompose_special`. -/
theorem decomposeLaw : Obligations.DecomposeLaw := by
  unfold Obligations.DecomposeLaw
  intro g a ha0 haq
  have hγ := gamma2_pos g
  have hm := bands_pos g
  rcases le_or_gt a (q - 1 - gamma2 g) with ha | ha
  · obtain ⟨k, e, hk0, hk, hlow, hhigh, rfl⟩ := exists_band ha0 ha
    rw [decompose_add hlow hhigh hk]
    exact ⟨Int.emod_eq_of_lt ha0 haq, hk0, by omega, hlow.le, hhigh, fun _ => ⟨rfl, hlow⟩, fun h => absurd h (by omega),
      fun h => absurd h hlow.ne'⟩
  · rw [decompose_special ha haq]
    refine ⟨?_, le_rfl, by omega, by omega, by omega, fun h => absurd h (by omega), fun _ => rfl, fun h => by omega⟩
    rw [Int.zero_mul, Int.zero_add, Int.sub_emod_right, Int.emod_eq_of_lt ha0 haq]

/-! ## The hint law -/

section Highbits

variable {g : Gamma} {k e : Int} (hk0 : 0 ≤ k) (hk : k < bands g)
include hk0 hk

/-- The numbers within γ₂ of k·2γ₂, modulo q, have the high bits k; the lower end belongs to band 0 only. -/
theorem highbits_emod (hlow : -gamma2 g ≤ e) (hhigh : e ≤ gamma2 g) (hend : e = -gamma2 g → k = 0) :
    highbits ((k * (2 * gamma2 g) + e) % q) g = k := by
  have hγ := gamma2_pos g
  have hle := band_le hk
  rcases lt_or_ge (k * (2 * gamma2 g) + e) 0 with hneg | hpos
  · obtain rfl : k = 0 := by
      by_contra hne
      have hw := le_mul_of_one_le_left (show 0 ≤ 2 * gamma2 g by omega) (show 1 ≤ k by omega)
      omega
    rw [← Int.add_emod_right, Int.emod_eq_of_lt (by omega) (by omega), highbits,
      decompose_special (by omega) (by omega)]
  · have hlow' : -gamma2 g < e := lt_of_le_of_ne hlow fun h => by
      obtain rfl := hend h.symm
      omega
    rw [Int.emod_eq_of_lt hpos (by omega), highbits, decompose_add hlow' hhigh hk]

/-- The next band, counted modulo m. -/
theorem highbits_emod_next (hlow : gamma2 g < e) (hhigh : e ≤ 2 * gamma2 g) :
    highbits ((k * (2 * gamma2 g) + e) % q) g = (k + 1) % bands g := by
  have hγ := gamma2_pos g
  rcases lt_or_eq_of_le (Int.add_one_le_of_lt hk) with h | h
  · rw [Int.emod_eq_of_lt (by omega) h,
      show k * (2 * gamma2 g) + e = (k + 1) * (2 * gamma2 g) + (e - 2 * gamma2 g) by ring]
    exact highbits_emod (by omega) h (by omega) (by omega) (by omega)
  · have hwrap : k * (2 * gamma2 g) + e = 0 * (2 * gamma2 g) + (e - 2 * gamma2 g - 1) + q := by
      linear_combination (2 * gamma2 g) * h + bands_mul g
    rw [h, Int.emod_self, hwrap, Int.add_emod_right]
    exact highbits_emod le_rfl (bands_pos g) (by omega) (by omega) fun _ => rfl

/-- The previous band, counted modulo m. -/
theorem highbits_emod_prev (hlow : -(2 * gamma2 g) ≤ e) (hhigh : e ≤ -gamma2 g) (hend : e = -gamma2 g → k ≠ 0) :
    highbits ((k * (2 * gamma2 g) + e) % q) g = (k - 1 + bands g) % bands g := by
  have hγ := gamma2_pos g
  by_cases h : k = 0
  · have hmod : (k - 1 + bands g) % bands g = bands g - 1 := by
      rw [Int.emod_eq_of_lt (by omega) (by omega)]
      omega
    have hwrap : k * (2 * gamma2 g) + e + q = (bands g - 1) * (2 * gamma2 g) + (e + 2 * gamma2 g + 1) := by
      linear_combination (2 * gamma2 g) * h - bands_mul g
    rw [hmod, ← Int.add_emod_right, hwrap]
    exact highbits_emod (by omega) (by omega) (by omega) (by omega) (by omega)
  · have hmod : (k - 1 + bands g) % bands g = k - 1 := by
      rw [Int.add_emod_right, Int.emod_eq_of_lt (by omega) (by omega)]
    rw [hmod, show k * (2 * gamma2 g) + e = (k - 1) * (2 * gamma2 g) + (e + 2 * gamma2 g) by ring]
    exact highbits_emod (by omega) (by omega) (by omega) (by omega) (by omega)

end Highbits

/-- R167 for the two parts by name. -/
theorem highbits_lowbits_spec (g : Gamma) {a : Int} (ha0 : 0 ≤ a) (haq : a < q) :
    (highbits a g * (2 * gamma2 g) + lowbits a g) % q = a ∧ 0 ≤ highbits a g ∧ highbits a g < bands g ∧
      -gamma2 g ≤ lowbits a g ∧ lowbits a g ≤ gamma2 g := by
  obtain ⟨hsum, hk0, hk, hlow, hhigh, -⟩ := decomposeLaw g a ha0 haq
  exact ⟨hsum, hk0, Int.lt_of_le_sub_one hk, hlow, hhigh⟩

theorem usehint_zero (r : Int) (g : Gamma) : usehint 0 r g = highbits r g := rfl

theorem usehint_one (r : Int) (g : Gamma) :
    usehint 1 r g =
      if lowbits r g > 0 then (highbits r g + 1) % bands g else (highbits r g - 1 + bands g) % bands g := rfl

/-- A sum in the field, around the middle of the first summand's band. -/
theorem reduceOnce_add_eq {g : Gamma} {r z : Int} (hr0 : 0 ≤ r) (hrq : r < q) (hz0 : 0 ≤ z) (hzq : z < q) :
    reduceOnce (r + z) = (highbits r g * (2 * gamma2 g) + (lowbits r g + toSym z)) % q := by
  have hr : (highbits r g * (2 * gamma2 g) + lowbits r g) % q = r % q := by
    rw [Int.emod_eq_of_lt hr0 hrq, (highbits_lowbits_spec g hr0 hrq).1]
  have hz : toSym z % q = z % q := Int.emod_eq_emod_iff_emod_sub_eq_zero.2 (toSym_sub_emod z)
  rw [reduceOnce_eq_emod (by omega) (by omega), ← Int.add_assoc, Int.add_emod, ← hr, ← hz, ← Int.add_emod]

/-- When adding at most γ₂ moves a number to another band, the sign of its low part says to which one. -/
theorem highbits_add_of_ne {g : Gamma} {r z : Int} (hr0 : 0 ≤ r) (hrq : r < q) (hz0 : 0 ≤ z) (hzq : z < q)
    (hz : |toSym z| ≤ gamma2 g) (hne : highbits r g ≠ highbits (reduceOnce (r + z)) g) :
    highbits (reduceOnce (r + z)) g =
      if lowbits r g > 0 then (highbits r g + 1) % bands g else (highbits r g - 1 + bands g) % bands g := by
  obtain ⟨-, hk0, hk, hlow, hhigh⟩ := highbits_lowbits_spec g hr0 hrq
  obtain ⟨hzlow, hzhigh⟩ := abs_le.1 hz
  rw [reduceOnce_add_eq hr0 hrq hz0 hzq (g := g)] at hne ⊢
  have hout : ¬ (-gamma2 g ≤ lowbits r g + toSym z ∧ lowbits r g + toSym z ≤ gamma2 g ∧
      (lowbits r g + toSym z = -gamma2 g → highbits r g = 0)) :=
    fun ⟨h1, h2, h3⟩ => hne (highbits_emod hk0 hk h1 h2 h3).symm
  split
  · exact highbits_emod_next hk0 hk (by omega) (by omega)
  · exact highbits_emod_prev hk0 hk (by omega) (by omega) (by omega)

/-- Settles O44: without a hint the high bits are those of r; with one, `highbits_add_of_ne`. -/
theorem hintLaw : Obligations.HintLaw := by
  unfold Obligations.HintLaw
  intro g r z hr0 hrq hz0 hzq hz
  by_cases h : highbits r g = highbits (reduceOnce (r + z)) g
  · rw [makehint, fadd, if_neg (not_not.2 h), usehint_zero, h]
  · rw [makehint, fadd, if_pos h, usehint_one, highbits_add_of_ne hr0 hrq hz0 hzq hz h]

end Sys2Proof.Machine
end

section
/-! The scalar rounding commands (spec/41_rounding.md R160 to R165): the shape with two destinations meets its rule, and
each command is one of the shapes. -/

namespace Sys2Proof.Machine

theorem legal_H_iff (w : Word) : OpType.H.legal w = true ↔ IsH w := by
  rw [OpType.legal, decide_eq_true_iff, IsH, Nat.le_one_iff_eq_zero_or_eq_one]

/-- The end of a command with two destination registers that reads an illegal word. -/
theorem conclude_bad_sreg_pair {i : Instr} {d b : SReg} (hd : destsOf i = [.s d, .s b]) (s : State) (a : SReg) (n : Nat) :
    conclude i s (.bad ⟨.sreg, a.val, 0⟩ n) =
      .next (faultedWith s (encode i) .operandRange (scalarLoc a) ((s.sreg.set d .bot).set b .bot) s.pmem n) := by
  rw [conclude_bad, takeFault_eq, errlocWord_sreg, hd]
  rfl

section Pair

variable {i : Instr} {t : OpType} {f : Int → Int × Int} {d a b : SReg} {s : State} {w : Word} {n : Nat}
  (hw : look (s.s a) s.draws = (w, n))
include hw

theorem scalarPair_completes (h : t.legal w = true) :
    scalarPair i t f d a b s =
      .next (retiredWith s ((s.sreg.set d (.val (wordOf (f (t.value w)).1))).set b (.val (wordOf (f (t.value w)).2)))
        s.pmem n) := by
  rw [scalarPair, readS_legal hw h, Fetched.bind_ok]
  rfl

theorem scalarPair_faults (hd : destsOf i = [.s d, .s b]) (h : t.legal w = false) :
    scalarPair i t f d a b s =
      .next (faultedWith s (encode i) .operandRange (scalarLoc a) ((s.sreg.set d .bot).set b .bot) s.pmem n) := by
  rw [scalarPair, readS_illegal hw h, Fetched.bind_bad, conclude_bad_sreg_pair hd]

end Pair

/-- A command of the shape `scalarPair` over a field element meets the rule of `OP sD, sB, sA`. -/
theorem scalarPairRule_of_shape {mk : SReg → SReg → SReg → Instr} {op : Nat} {f : Int → Int × Int}
    (hop : ∀ d a b, fOp (encode (mk d a b)) = op) (hd : ∀ d a b, destsOf (mk d a b) = [.s d, .s b])
    (hexec : ∀ s d a b, exec (mk d a b) s = scalarPair (mk d a b) .F f d a b s) : ScalarPairRule mk op f := by
  intro s d a b x _ hx
  have hlook : look (s.s a) s.draws = (x, s.draws) := by rw [hx, look_val]
  refine ⟨hop d a b, fun h => ?_, fun h => ?_⟩
  · rw [hexec, scalarPair_completes hlook ((legal_F_iff x).2 h), OpType.value]
  · rw [hexec, scalarPair_faults hlook (hd d a b) (illegal_of_not legal_F_iff h)]

/-- Settles O25: both commands are of the shape `scalarPair`. -/
theorem p2rDecomp : Obligations.P2rDecomp := by
  unfold Obligations.P2rDecomp
  refine ⟨?p2r, fun g => ?decomp⟩
  case p2r => exact scalarPairRule_of_shape (fOp_formR_DAB (by decide)) (fun _ _ _ => rfl) fun _ _ _ _ => rfl
  case decomp =>
    exact scalarPairRule_of_shape (fOp_formR_scalar (by decide) g.bit_lt) (fun _ _ _ => rfl) fun _ _ _ _ => rfl

/-- Settles O26: both commands are of the shape `scalarUnary`, over the two parts of Decompose. -/
theorem highLow : Obligations.HighLow := by
  unfold Obligations.HighLow
  refine fun g => ⟨?high, ?low⟩
  case high =>
    exact scalarUnaryRule_of_shape (fun d a => fOp_formR_scalar (by decide) g.bit_lt d a 0) (fun _ _ => rfl)
      (fun _ _ _ => rfl) legal_F_iff fun _ _ => rfl
  case low =>
    exact scalarUnaryRule_of_shape (fun d a => fOp_formR_scalar (by decide) g.bit_lt d a 0) (fun _ _ => rfl)
      (fun _ _ _ => rfl) legal_F_iff fun _ _ => rfl

/-- Settles O27: both commands are of the shape `scalarBinary`, USEHINT with a hint bit as its first source. -/
theorem mkhintUsehint : Obligations.MkhintUsehint := by
  unfold Obligations.MkhintUsehint
  refine fun g => ⟨?mkhint, ?usehint⟩
  case mkhint =>
    exact scalarBinaryRule_of_shape (fOp_formR_scalar (by decide) g.bit_lt) (fun _ _ _ => rfl) (fun _ _ _ _ => rfl)
      legal_F_iff legal_F_iff fun _ _ _ _ => rfl
  case usehint =>
    exact scalarBinaryRule_of_shape (fOp_formR_scalar (by decide) g.bit_lt) (fun _ _ _ => rfl) (fun _ _ _ _ => rfl)
      legal_H_iff legal_F_iff fun _ _ _ _ => rfl

end Sys2Proof.Machine
end

section
/-! The vector commands as loops over their elements (spec/00_scope.md R20, 42_ring.md R180): what a loop does when its
elements read legal words, and how a command ends whose loop has ended. -/

namespace Sys2Proof.Machine

/-! ## Registers that read the same in two memories -/

/-- Every word of p[j] reads the same in both memories. -/
def SameWords (m m' : Mem) (j : Nat) : Prop := ∀ c, c < 256 → Mem.get m' (wordNo j c) = Mem.get m (wordNo j c)

/-- Every word of p[r] holds a legal value of the type. -/
def PolyLegal (t : OpType) (m : Mem) (r : Nat) : Prop :=
  ∀ c, c < 256 → ∃ w, Mem.get m (wordNo r c) = .val w ∧ t.legal w = true

theorem PolyHolds.of_sameWords {t : OpType} {m m' : Mem} {r : Nat} {x : Nat → Int} (h : PolyHolds t m r x)
    (hsame : SameWords m m' r) : PolyHolds t m' r x := fun c hc => by rw [hsame c hc]; exact h c hc

theorem PolyLegal.of_sameWords {t : OpType} {m m' : Mem} {r : Nat} (h : PolyLegal t m r) (hsame : SameWords m m' r) :
    PolyLegal t m' r := fun c hc => by rw [hsame c hc]; exact h c hc

theorem FirstIllegalWord.of_sameWords {t : OpType} {m m' : Mem} {r c : Nat} (h : FirstIllegalWord t m r c)
    (hc : c < 256) (hsame : SameWords m m' r) : FirstIllegalWord t m' r c := by
  obtain ⟨hbefore, hat⟩ := h
  refine ⟨fun c' hc' => ?_, ?_⟩
  · rw [hsame c' (hc'.trans hc)]; exact hbefore c' hc'
  · rw [hsame c hc]; exact hat

/-- Writing p[i] leaves every other register as it is, whatever is written. -/
theorem sameWords_setPoly {m : Mem} {i j : Nat} (h : j ≠ i) (vs : List Slot) : SameWords m (Mem.setPoly m i vs) j := by
  intro c hc
  rw [Mem.setPoly, Mem.get_write, if_neg]
  rw [List.length_take]
  simp only [wordNo]
  omega

/-! ## Reading a polynomial -/

/-- A list of 256 integers, each of which is the value of a legal word. -/
def LegalList (t : OpType) (xs : List Int) : Prop :=
  xs.length = 256 ∧ ∀ c, c < 256 → ∃ w, t.legal w = true ∧ t.value w = xs.getD c 0

theorem elementList_length (x : Nat → Nat → Int) (e : Nat) : (elementList x e).length = 256 := by simp [elementList]

theorem elementList_getD (x : Nat → Nat → Int) (e : Nat) {c : Nat} (hc : c < 256) :
    (elementList x e).getD c 0 = x e c := by simp [elementList, hc]

theorem PolyHolds.readPoly {t : OpType} {m : Mem} {r e : Nat} {x : Nat → Nat → Int} (h : PolyHolds t m r (x e))
    (n : Nat) : readPoly m r t n = .ok (elementList x e) n := readPoly_legal n h

theorem PolyHolds.legalList {t : OpType} {m : Mem} {r e : Nat} {x : Nat → Nat → Int} (h : PolyHolds t m r (x e)) :
    LegalList t (elementList x e) := by
  refine ⟨elementList_length x e, fun c hc => ?_⟩
  obtain ⟨w, -, hlegal, hvalue⟩ := h c hc
  exact ⟨w, hlegal, by rw [hvalue, elementList_getD x e hc]⟩

/-- Legal words hold the integers they stand for. -/
theorem PolyLegal.holds {t : OpType} {m : Mem} {r : Nat} (h : PolyLegal t m r) :
    PolyHolds t m r fun c => slotValue t (Mem.get m (wordNo r c)) := by
  intro c hc
  obtain ⟨w, hw, hlegal⟩ := h c hc
  exact ⟨w, hw, hlegal, by simp only [hw, slotValue]⟩

theorem PolyLegal.exists_readPoly {t : OpType} {m : Mem} {r : Nat} (h : PolyLegal t m r) (n : Nat) :
    ∃ xs, readPoly m r t n = .ok xs n := ⟨_, readPoly_legal n h.holds⟩

theorem errlocWord_pmem (r c : Nat) : errlocWord (some ⟨.pmem, r, c⟩) = polyLoc r c := by
  simp [errlocWord, polyLoc, RegFile.bit, Nat.mul_comm]

/-! ## The element loop -/

/-- When every element takes a value with P e to one with P (e+1), drawing no free value, the loop takes P i to
P (i+k). -/
theorem overElements_follow {α : Type} {body : Nat → α → Nat → Fetched α} {P : Nat → α → Prop} {n k i : Nat} {x : α}
    (h : ∀ e x, i ≤ e → e < i + k → P e x → ∃ y, body e x n = .ok y n ∧ P (e + 1) y) (hx : P i x) :
    ∃ y, overElements body k i x n = .ok y n ∧ P (i + k) y := by
  induction k generalizing i x with
  | zero => exact ⟨x, rfl, hx⟩
  | succ k ih =>
    obtain ⟨y, hy, hPy⟩ := h i x le_rfl (by omega) hx
    obtain ⟨z, hz, hPz⟩ := ih (fun e x h1 h2 => h e x (by omega) (by omega)) hPy
    refine ⟨z, ?_, ?_⟩
    · rw [overElements, hy, Fetched.bind_ok, hz]
    · rwa [Nat.add_right_comm] at hPz

/-- The loop ends at the first element that reads an illegal word, j elements being done. -/
theorem overElements_ends {α : Type} {body : Nat → α → Nat → Fetched α} {j k i n n₁ n₂ : Nat} {x y : α} {l : Loc}
    (hjk : j < k) (hdone : overElements body j i x n = .ok y n₁) (hbad : body (i + j) y n₁ = .bad l n₂) :
    overElements body k i x n = .bad l n₂ := by
  obtain ⟨k, rfl⟩ : ∃ k', k = k' + 1 := ⟨k - 1, by omega⟩
  induction j generalizing k i x n with
  | zero =>
    cases hdone
    rw [overElements]
    rw [Nat.add_zero] at hbad
    rw [hbad, Fetched.bind_bad]
  | succ j ih =>
    rw [overElements] at hdone
    obtain ⟨z, n', hz, hrest⟩ := Fetched.bind_eq_ok.1 hdone
    obtain ⟨k, rfl⟩ : ∃ k', k = k' + 1 := ⟨k - 1, by omega⟩
    rw [overElements, hz, Fetched.bind_ok]
    exact ih hrest (by rwa [Nat.add_right_comm, Nat.add_assoc]) k (by omega)

/-- What a vector command of k elements computes: the loop over PMEM. -/
def vectorLoop (body : Nat → Mem → Nat → Fetched Mem) (k : Nat) (st : State) : Fetched State :=
  (overElements body k 0 st.pmem st.draws).bind fun m n => .ok (st.setMem m) n

/-- One element of the shape `polyUnary`. -/
def unaryBody (t : OpType) (f : List Int → List Int) (d a e : Nat) (m : Mem) (n : Nat) : Fetched Mem :=
  (readPoly m (a + e) t n).bind fun xs n => .ok (Mem.setPoly m (d + e) (polyOf (f xs))) n

/-- One element of the shape `polyBinary`. -/
def binaryBody (t u : OpType) (f : Int → Int → Int) (d a b : Nat) (c : Bcast) (e : Nat) (m : Mem) (n : Nat) :
    Fetched Mem :=
  (readPoly m (a + e) t n).bind fun xs n => (readPoly m (operandB c b e) u n).bind fun ys n =>
    .ok (Mem.setPoly m (d + e) (polyOf (List.zipWith f xs ys))) n

/-- One element of the shape `polyPair`. -/
def pairBody (t : OpType) (f : Int → Int × Int) (d a b e : Nat) (m : Mem) (n : Nat) : Fetched Mem :=
  (readPoly m (a + e) t n).bind fun xs n =>
    .ok (Mem.setPoly (Mem.setPoly m (d + e) (polyOf (xs.map fun x => (f x).1))) (b + e)
      (polyOf (xs.map fun x => (f x).2))) n

theorem polyUnary_eq_loop (i : Instr) (t : OpType) (f : List Int → List Int) (d a : PReg) (v : VLen) (st : State) :
    polyUnary i t f d a v st = conclude i st (vectorLoop (unaryBody t f d a) v.vl st) := rfl

theorem polyBinary_eq_loop (i : Instr) (t u : OpType) (f : Int → Int → Int) (d a b : PReg) (v : VLen) (c : Bcast)
    (st : State) :
    polyBinary i t u f d a b v c st = conclude i st (vectorLoop (binaryBody t u f d a b c) v.vl st) := rfl

theorem polyPair_eq_loop (i : Instr) (t : OpType) (f : Int → Int × Int) (d a b : PReg) (v : VLen) (st : State) :
    polyPair i t f d a b v st = conclude i st (vectorLoop (pairBody t f d a b) v.vl st) := rfl

/-! ## How a vector command ends -/

theorem conclude_vectorLoop {i : Instr} {s : State} {body : Nat → Mem → Nat → Fetched Mem} {k : Nat} {m : Mem} {n : Nat}
    (h : overElements body k 0 s.pmem s.draws = .ok m n) :
    conclude i s (vectorLoop body k s) = .next (retiredWith s s.sreg m n) := by
  rw [vectorLoop, h, Fetched.bind_ok]
  rfl

theorem vectorLoop_bad {s : State} {body : Nat → Mem → Nat → Fetched Mem} {k : Nat} {l : Loc} {n : Nat}
    (h : overElements body k 0 s.pmem s.draws = .bad l n) : vectorLoop body k s = .bad l n := by
  rw [vectorLoop, h, Fetched.bind_bad]

/-- Making polynomial registers ⊥ leaves SREG as it is. -/
theorem clobber_vectorDests_sreg (d : PReg) (v : VLen) (s : State) : (clobber (vectorDests d v) s).sreg = s.sreg := by
  refine Vector.ext fun j hj => ?_
  have h := clobber_sreg (vectorDests d v) s ⟨j, hj⟩
  rw [if_neg (by simp [vectorDests])] at h
  exact h

/-- The end of a command with one destination vector that reads an illegal word. -/
theorem vectorFaults_of_bad {i : Instr} {s : State} {d : PReg} {v : VLen} {l : Loc} (hd : destsOf i = vectorDests d v)
    (h : exec i s = conclude i s (.bad l s.draws)) : VectorFaults i s d v.vl (errlocWord (some l)) := by
  refine ⟨(clobber (destsOf i) s).pmem, fun j c hc => ?_, clobber_wf _ s, ?_⟩
  · rw [clobber_pmem _ s j c hc, hd]
    simp only [mem_vectorDests]
  · rw [h, conclude, finish_bad, hd, clobber_vectorDests_sreg]

/-! ## A loop that follows given memories -/

/-- The 256 slots hold the words y. -/
def WordsAre (vs : List Slot) (y : Nat → Word) : Prop := vs.length = 256 ∧ ∀ c, c < 256 → vs.getD c .bot = .val (y c)

theorem wordsAre_polyOf {xs : List Int} {y : Nat → Word} (hlen : xs.length = 256)
    (h : ∀ c, c < 256 → wordOf (xs.getD c 0) = y c) : WordsAre (polyOf xs) y := by
  refine ⟨by rw [polyOf_length, hlen], fun c hc => ?_⟩
  rw [polyOf_getD xs c (by omega), h c hc]

/-- Memory m' reads as m does, and is in canonical form when m₀ is. -/
def Tracks (m₀ m m' : Mem) : Prop := (∀ j, SameWords m m' j) ∧ (Mem.wf m₀ = true → Mem.wf m' = true)

/-- An element that writes the words of the next given memory leads to a memory that reads as that one. -/
theorem Tracks.setPoly {m₀ m₁ m₂ m : Mem} {i : Nat} {y : Nat → Word} {vs : List Slot} (h : Tracks m₀ m₁ m)
    (hwrites : WritesVector m₁ m₂ i 1 fun _ => y) (hvs : WordsAre vs y) : Tracks m₀ m₂ (Mem.setPoly m i vs) := by
  obtain ⟨hsame, hwf⟩ := h
  obtain ⟨hlen, hget⟩ := hvs
  refine ⟨fun j c hc => ?_, fun h₀ => Mem.wf_setPoly (hwf h₀) i vs⟩
  rw [Mem.get_setPoly m i vs hlen j c hc, hwrites j c hc]
  by_cases hj : j = i
  · rw [if_pos hj, if_pos (by omega), hget c hc]
  · rw [if_neg hj, if_neg (by omega), hsame j c hc]

/-- R180 for a command with one destination vector: with n elements done, each from the memory `ms` gives it, the command
completes when those are all, and faults when the next element reads an illegal word. -/
theorem vectorLoop_rule {i : Instr} {s : State} {d : PReg} {v : VLen} {body : Nat → Mem → Nat → Fetched Mem}
    {ms : Nat → Mem} {n : Nat} {y : Nat → Nat → Word} (hexec : exec i s = conclude i s (vectorLoop body v.vl s))
    (hd : destsOf i = vectorDests d v) (hsteps : ElementSteps s.pmem ms d n y)
    (hbody : ∀ e m, e < n → (∀ j, SameWords (ms e) m j) →
      ∃ vs, WordsAre vs (y e) ∧ body e m s.draws = .ok (Mem.setPoly m (d + e) vs) s.draws) :
    (n = v.vl → VectorCompletes i s (ms n)) ∧
    ∀ l, n < v.vl → (∀ m, (∀ j, SameWords (ms n) m j) → body n m s.draws = .bad l s.draws) →
      VectorFaults i s d v.vl (errlocWord (some l)) := by
  obtain ⟨hstart, hwrites⟩ := hsteps
  obtain ⟨m, hloop, hsame, hwf⟩ :
      ∃ m, overElements body n 0 s.pmem s.draws = .ok m s.draws ∧ Tracks s.pmem (ms (0 + n)) m := by
    refine overElements_follow (P := fun e => Tracks s.pmem (ms e)) (fun e m _ he htracks => ?_)
      ⟨fun j c _ => by rw [hstart], id⟩
    obtain ⟨vs, hvs, hok⟩ := hbody e m (by omega) htracks.1
    exact ⟨_, hok, htracks.setPoly (hwrites e (by omega)) hvs⟩
  rw [Nat.zero_add] at hsame
  refine ⟨fun hn => ⟨m, hsame, hwf, ?_⟩, fun l hn hbad => vectorFaults_of_bad hd ?_⟩
  · rw [hexec, conclude_vectorLoop (hn ▸ hloop)]
  · rw [hexec, vectorLoop_bad (overElements_ends hn hloop (by rw [Nat.zero_add]; exact hbad m hsame))]

/-! ## The opcode of a vector command -/

theorem fOp_formR_P3CG {op : Nat} (ho : op < 64) (d a b : PReg) (v : VLen) (c : Bcast) (g : Gamma) :
    fOp (formR op d a b v c.bit g.bit) = op := fOp_formR ho d.isLt a.isLt b.isLt v.isLt c.bit_lt g.bit_lt

theorem fOp_formR_P3C {op : Nat} (ho : op < 64) (d a b : PReg) (v : VLen) (c : Bcast) :
    fOp (formR op d a b v c.bit 0) = op := fOp_formR_P3CG ho d a b v c .g88

theorem fOp_formR_P2 {op : Nat} (ho : op < 64) (d a : PReg) (v : VLen) : fOp (formR op d a 0 v 0 0) = op :=
  fOp_formR_P3C ho d a 0 v .each

theorem fOp_formR_P2S {op : Nat} (ho : op < 64) (d a : PReg) (b : SReg) (v : VLen) :
    fOp (formR op d a b v 0 0) = op :=
  fOp_formR ho d.isLt a.isLt b.lt_64 v.isLt (by decide) (by decide)

theorem fOp_formR_SP {op : Nat} (ho : op < 64) (d : SReg) (a : PReg) (v : VLen) : fOp (formR op d a 0 v 0 0) = op :=
  fOp_formR ho d.lt_64 a.isLt (by decide) v.isLt (by decide) (by decide)

end Sys2Proof.Machine
end

section
/-! The polynomial commands with one destination vector (spec/42_ring.md R181 to R188, 43_ntt.md R216): the shapes
`polyUnary` and `polyBinary` meet the rules of Safety.lean, and each command is one of the shapes. -/

namespace Sys2Proof.Machine

/-! ## The shapes meet the rules -/

/-- An element of the shape `polyUnary` that reads legal words. -/
theorem unaryBody_legal {t : OpType} {f : List Int → List Int} {d a e : Nat} {m : Mem} {x : Nat → Nat → Int}
    (h : PolyHolds t m (a + e) (x e)) (n : Nat) :
    unaryBody t f d a e m n = .ok (Mem.setPoly m (d + e) (polyOf (f (elementList x e)))) n := by
  rw [unaryBody, h.readPoly n, Fetched.bind_ok]

theorem unaryBody_illegal {t : OpType} {f : List Int → List Int} {d a e c : Nat} {m : Mem} (hc : c < 256)
    (h : FirstIllegalWord t m (a + e) c) (n : Nat) : unaryBody t f d a e m n = .bad ⟨.pmem, a + e, c⟩ n := by
  rw [unaryBody, readPoly_illegal hc h, Fetched.bind_bad]

/-- A loop of elements of the shape `polyUnary`, of whatever command. -/
theorem unaryLoop_rule {i : Instr} {s : State} {d a : PReg} {v : VLen} {t : OpType} {g : List Int → List Int}
    {ms : Nat → Mem} {x : Nat → Nat → Int} {y : Nat → Nat → Word} {n : Nat}
    (hexec : exec i s = conclude i s (vectorLoop (unaryBody t g d a) v.vl s)) (hd : destsOf i = vectorDests d v)
    (hlen : ∀ xs, xs.length = 256 → (g xs).length = 256)
    (hg : ∀ e c, c < 256 → LegalList t (elementList x e) → wordOf ((g (elementList x e)).getD c 0) = y e c)
    (hsteps : ElementSteps s.pmem ms d n y) (hx : ∀ e, e < n → PolyHolds t (ms e) (a + e) (x e)) :
    (n = v.vl → VectorCompletes i s (ms n)) ∧
    ∀ c, n < v.vl → c < 256 → FirstIllegalWord t (ms n) (a + n) c → VectorFaults i s d v.vl (polyLoc (a + n) c) := by
  obtain ⟨hcompletes, hfaults⟩ := vectorLoop_rule hexec hd hsteps fun e m he hsame => by
    have hholds : PolyHolds t (ms e) (a + e) (x e) := hx e he
    exact ⟨_, wordsAre_polyOf (hlen _ (elementList_length x e)) fun c hc => hg e c hc hholds.legalList,
      unaryBody_legal (hholds.of_sameWords (hsame _)) _⟩
  refine ⟨hcompletes, fun c hn hc hill => ?_⟩
  rw [← errlocWord_pmem]
  exact hfaults _ hn fun m hsame => unaryBody_illegal hc (hill.of_sameWords hc (hsame _)) _

/-- A command of the shape `polyUnary` meets the rule of `OP.vN pD, pA`. -/
theorem polyUnaryRule_of_shape {mk : PReg → PReg → VLen → Instr} {op : Nat} {t : OpType} {g : List Int → List Int}
    {f : List Int → Nat → Int} (hop : ∀ d a v, fOp (encode (mk d a v)) = op)
    (hd : ∀ d a v, destsOf (mk d a v) = vectorDests d v)
    (hexec : ∀ s d a v, exec (mk d a v) s = polyUnary (mk d a v) t g d a v s)
    (hlen : ∀ xs, xs.length = 256 → (g xs).length = 256)
    (hf : ∀ xs, LegalList t xs → ∀ c, c < 256 → (g xs).getD c 0 = f xs c) : PolyUnaryRule mk op t f :=
  ⟨hop, fun s d a v _ _ _ _ hsteps hx => unaryLoop_rule (hexec s d a v) (hd d a v) hlen
    (fun _ c hc hlegal => by rw [hf _ hlegal c hc]) hsteps hx⟩

theorem getD_map_of_lt {h : Int → Int} {xs : List Int} {c : Nat} (hc : c < xs.length) :
    (xs.map h).getD c 0 = h (xs.getD c 0) := by simp [hc]

/-- A command of the shape `polyUnary` that applies h to each coefficient. -/
theorem polyUnaryRule_of_map {mk : PReg → PReg → VLen → Instr} {op : Nat} {t : OpType} {h : Int → Int}
    {f : List Int → Nat → Int} (hop : ∀ d a v, fOp (encode (mk d a v)) = op)
    (hd : ∀ d a v, destsOf (mk d a v) = vectorDests d v)
    (hexec : ∀ s d a v, exec (mk d a v) s = polyUnary (mk d a v) t (List.map h) d a v s)
    (hf : ∀ xs c w, t.legal w = true → t.value w = xs.getD c 0 → h (xs.getD c 0) = f xs c) :
    PolyUnaryRule mk op t f := by
  refine polyUnaryRule_of_shape hop hd hexec (fun xs hxs => by rw [List.length_map, hxs]) fun xs hxs c hc => ?_
  obtain ⟨hlen, hlegal⟩ := hxs
  obtain ⟨w, hw, hvalue⟩ := hlegal c hc
  rw [getD_map_of_lt (by omega), hf xs c w hw hvalue]

section BinaryElement

variable {t u : OpType} {f : Int → Int → Int} {d a b e : Nat} {k : Bcast} {m : Mem} {x y : Nat → Nat → Int}

theorem binaryBody_legal (hx : PolyHolds t m (a + e) (x e)) (hy : PolyHolds u m (operandB k b e) (y e)) (n : Nat) :
    binaryBody t u f d a b k e m n =
      .ok (Mem.setPoly m (d + e) (polyOf (List.zipWith f (elementList x e) (elementList y e)))) n := by
  rw [binaryBody, hx.readPoly, Fetched.bind_ok, hy.readPoly, Fetched.bind_ok]

theorem binaryBody_illegal_first {c : Nat} (hc : c < 256) (h : FirstIllegalWord t m (a + e) c) (n : Nat) :
    binaryBody t u f d a b k e m n = .bad ⟨.pmem, a + e, c⟩ n := by
  rw [binaryBody, readPoly_illegal hc h, Fetched.bind_bad]

theorem binaryBody_illegal_second {c : Nat} (hc : c < 256) (hx : PolyHolds t m (a + e) (x e))
    (h : FirstIllegalWord u m (operandB k b e) c) (n : Nat) :
    binaryBody t u f d a b k e m n = .bad ⟨.pmem, operandB k b e, c⟩ n := by
  rw [binaryBody, hx.readPoly, Fetched.bind_ok, readPoly_illegal hc h, Fetched.bind_bad]

end BinaryElement

theorem wordsAre_zipWith (f : Int → Int → Int) (x y : Nat → Nat → Int) (e : Nat) :
    WordsAre (polyOf (List.zipWith f (elementList x e) (elementList y e))) fun c => wordOf (f (x e c) (y e c)) :=
  wordsAre_polyOf (by simp [elementList]) fun c hc => by simp [elementList, hc]

/-- A command of the shape `polyBinary` meets the rule of `OP.vN pD, pA, pB`. -/
theorem polyBinaryRule_of_shape {mk : PReg → PReg → PReg → VLen → Bcast → Instr} {op : Nat} {t u : OpType}
    {f : Int → Int → Int} (hop : ∀ d a b v k, fOp (encode (mk d a b v k)) = op)
    (hd : ∀ d a b v k, destsOf (mk d a b v k) = vectorDests d v)
    (hexec : ∀ s d a b v k, exec (mk d a b v k) s = polyBinary (mk d a b v k) t u f d a b v k s) :
    PolyBinaryRule mk op t u f := by
  refine ⟨hop, fun s d a b v k ms x y n _ hsteps hxy => ?_⟩
  have hloop := (hexec s d a b v k).trans (polyBinary_eq_loop _ t u f d a b v k s)
  obtain ⟨hcompletes, hfaults⟩ := vectorLoop_rule hloop (hd d a b v k) hsteps fun e m he hsame => by
    obtain ⟨hx, hy⟩ := hxy e he
    exact ⟨_, wordsAre_zipWith f x y e, binaryBody_legal (hx.of_sameWords (hsame _)) (hy.of_sameWords (hsame _)) _⟩
  refine ⟨hcompletes, fun c hn hc hill => ?_, fun c hn hc hx hill => ?_⟩
  · rw [← errlocWord_pmem]
    exact hfaults _ hn fun m hsame => binaryBody_illegal_first hc (hill.of_sameWords hc (hsame _)) _
  · rw [← errlocWord_pmem]
    exact hfaults _ hn fun m hsame =>
      binaryBody_illegal_second hc (hx.of_sameWords (hsame _)) (hill.of_sameWords hc (hsame _)) _

/-! ## The commands -/

/-- Settles O29: the four commands are of the shape `polyUnary`, with the types F, S and W. -/
theorem pnegPtosymPfromsymPred : Obligations.PnegPtosymPfromsymPred := by
  unfold Obligations.PnegPtosymPfromsymPred
  refine ⟨?pneg, ?ptosym, ?pfromsym, ?pred⟩
  case pneg =>
    refine polyUnaryRule_of_map (fOp_formR_P2 (by decide)) (fun _ _ _ => rfl) (fun _ _ _ _ => rfl) fun xs c w _ hw => ?_
    exact fneg_eq_ite (hw ▸ Int.natCast_nonneg w.toNat)
  case ptosym =>
    exact polyUnaryRule_of_map (fOp_formR_P2 (by decide)) (fun _ _ _ => rfl) (fun _ _ _ _ => rfl) fun _ _ _ _ _ => rfl
  case pfromsym =>
    exact polyUnaryRule_of_map (fOp_formR_P2 (by decide)) (fun _ _ _ => rfl) (fun _ _ _ _ => rfl) fun _ _ _ _ _ => rfl
  case pred =>
    exact polyUnaryRule_of_map (fOp_formR_P2 (by decide)) (fun _ _ _ => rfl) (fun _ _ _ _ => rfl) fun _ _ _ _ _ => rfl

/-- Settles O30: PMOV is of the shape `polyUnary` with the identity. -/
theorem pmovCopies : Obligations.PmovCopies :=
  polyUnaryRule_of_shape (fOp_formR_P2 (by decide)) (fun _ _ _ => rfl) (fun _ _ _ _ => rfl) (fun _ h => h)
    fun _ _ _ _ => rfl

/-- Settles O31: the three commands are of the shape `polyBinary` over field elements. -/
theorem paddPsubPmul : Obligations.PaddPsubPmul := by
  unfold Obligations.PaddPsubPmul
  refine ⟨?padd, ?psub, ?pmul⟩
  case padd => exact polyBinaryRule_of_shape (fOp_formR_P3C (by decide)) (fun _ _ _ _ _ => rfl) fun _ _ _ _ _ _ => rfl
  case psub => exact polyBinaryRule_of_shape (fOp_formR_P3C (by decide)) (fun _ _ _ _ _ => rfl) fun _ _ _ _ _ _ => rfl
  case pmul => exact polyBinaryRule_of_shape (fOp_formR_P3C (by decide)) (fun _ _ _ _ _ => rfl) fun _ _ _ _ _ _ => rfl

/-! ## PSMUL -/

/-- R184: the element loop of PSMUL with the scalar k. -/
def psmulBody (d a : Nat) (k : Word) : Nat → Mem → Nat → Fetched Mem :=
  unaryBody .F (List.map fun x => fmul x k.toNat) d a

theorem look_of_val {v : Slot} {w : Word} (h : v = .val w) (n : Nat) : look v n = (w, n) := by rw [h, look_val]

theorem exec_psmul_legal {s : State} {b : SReg} {k : Word} (hk : s.s b = .val k) (hlegal : IsF k) (d a : PReg)
    (v : VLen) : exec (.psmul d a b v) s = conclude (.psmul d a b v) s (vectorLoop (psmulBody d a k) v.vl s) := by
  show execPsmul d a b v s = _
  rw [execPsmul, readS_legal (look_of_val hk s.draws) ((legal_F_iff k).2 hlegal), Fetched.bind_ok]
  rfl

theorem exec_psmul_illegal {s : State} {b : SReg} {k : Word} (hk : s.s b = .val k) (hlegal : ¬ IsF k) (d a : PReg)
    (v : VLen) : exec (.psmul d a b v) s = conclude (.psmul d a b v) s (.bad ⟨.sreg, b.val, 0⟩ s.draws) := by
  show execPsmul d a b v s = _
  rw [execPsmul, readS_illegal (look_of_val hk s.draws) (illegal_of_not legal_F_iff hlegal), Fetched.bind_bad]

/-- Settles O32: past its scalar PSMUL is a loop of the shape `polyUnary`. -/
theorem psmul : Obligations.Psmul := by
  unfold Obligations.Psmul
  refine ⟨fOp_formR_P2S (by decide), fun s d a b v k hk => ⟨fun hlegal => ?_, fun hlegal ms x n _ hsteps hx => ?_⟩⟩
  · rw [← errlocWord_sreg]
    exact vectorFaults_of_bad rfl (exec_psmul_illegal hk hlegal d a v)
  · refine unaryLoop_rule (exec_psmul_legal hk hlegal d a v) rfl (fun xs hxs => by rw [List.length_map, hxs])
      (fun e c hc hxs => ?_) hsteps hx
    rw [getD_map_of_lt (by rw [hxs.1]; exact hc), elementList_getD x e hc]
    rfl

end Sys2Proof.Machine
end

section
/-! The reductions over a vector (spec/42_ring.md R189, R190; 44_poly_rounding_hint.md R246): the loop folds the vector's
integers, and the folds of the three commands are a maximum and a count. -/

namespace Sys2Proof.Machine

/-! ## The integers of a vector -/

/-- The integers of n elements in the order they are read. -/
def vectorList (x : Nat → Nat → Int) (n : Nat) : List Int := (List.range n).flatMap (elementList x)

theorem mem_vectorList {x : Nat → Nat → Int} {n : Nat} {r : Int} :
    r ∈ vectorList x n ↔ ∃ e c, e < n ∧ c < 256 ∧ x e c = r := by
  simp only [vectorList, elementList, List.mem_flatMap, List.mem_map, List.mem_range]
  exact ⟨fun ⟨e, he, c, hc, h⟩ => ⟨e, c, he, hc, h⟩, fun ⟨e, c, he, hc, h⟩ => ⟨e, he, c, hc, h⟩⟩

theorem foldl_vectorList_succ (g : Int → Int → Int) (x : Nat → Nat → Int) (n : Nat) :
    (vectorList x (n + 1)).foldl g 0 = (elementList x n).foldl g ((vectorList x n).foldl g 0) := by
  simp [vectorList, List.range_succ]

/-! ## The loop of a reduction -/

/-- One element of the shape `polyReduce`. -/
def reduceBody (t : OpType) (g : Int → Int → Int) (m : Mem) (a e : Nat) (acc : Int) (n : Nat) : Fetched Int :=
  (readPoly m (a + e) t n).bind fun xs n => .ok (xs.foldl g acc) n

theorem reduceBody_legal {t : OpType} {m : Mem} {a e : Nat} {x : Nat → Nat → Int} (h : PolyHolds t m (a + e) (x e))
    (g : Int → Int → Int) (acc : Int) (n : Nat) :
    reduceBody t g m a e acc n = .ok ((elementList x e).foldl g acc) n := by
  rw [reduceBody, h.readPoly, Fetched.bind_ok]

theorem reduceBody_illegal {t : OpType} {m : Mem} {a e c : Nat} (hc : c < 256) (h : FirstIllegalWord t m (a + e) c)
    (g : Int → Int → Int) (acc : Int) (n : Nat) : reduceBody t g m a e acc n = .bad ⟨.pmem, a + e, c⟩ n := by
  rw [reduceBody, readPoly_illegal hc h, Fetched.bind_bad]

/-- Elements that read legal words are folded. -/
theorem overElements_reduce {t : OpType} {m : Mem} {a k : Nat} {x : Nat → Nat → Int}
    (h : ∀ e, e < k → PolyHolds t m (a + e) (x e)) (g : Int → Int → Int) (n : Nat) :
    overElements (reduceBody t g m a) k 0 0 n = .ok ((vectorList x k).foldl g 0) n :=
  overElements_run (fun e => (vectorList x e).foldl g 0) n k 0 fun e he => by
    rw [Nat.zero_add, reduceBody_legal (h e he), foldl_vectorList_succ]

/-- The words before the first illegal one are legal: all of the elements before it, and its own element's up to it. -/
theorem FirstIllegal.split {t : OpType} {m : Mem} {src : Nat → Nat} {e c : Nat} (hc : c < 256)
    (h : FirstIllegal t m src e c) : (∀ e', e' < e → PolyLegal t m (src e')) ∧ FirstIllegalWord t m (src e) c := by
  obtain ⟨hbefore, hat⟩ := h
  exact ⟨fun e' he' c' hc' => hbefore e' c' hc' (.inl he'),
    fun c' hc' => hbefore e c' (hc'.trans hc) (.inr ⟨rfl, hc'⟩), hat⟩

section Reduce

variable {i : Instr} {t : OpType} {g : Int → Int → Int} {d : SReg} {a : PReg} {v : VLen} {s : State}

theorem polyReduce_eq_loop : polyReduce i t g d a v s = conclude i s
    ((overElements (reduceBody t g s.pmem a) v.vl 0 0 s.draws).bind fun acc n => .ok (s.writeS d acc) n) := rfl

theorem polyReduce_completes {x : Nat → Nat → Int} (h : Operand t s.pmem a v.vl x) :
    polyReduce i t g d a v s =
      .next (retiredWith s (s.sreg.set d (.val (wordOf ((vectorList x v.vl).foldl g 0)))) s.pmem s.draws) := by
  rw [polyReduce_eq_loop, overElements_reduce (x := x) (fun e he c hc => h e c he hc), Fetched.bind_ok, conclude_writeS]

theorem polyReduce_faults (hd : destsOf i = [.s d]) {e c : Nat} (he : e < v.vl) (hc : c < 256)
    (h : FirstIllegal t s.pmem (fun e => a + e) e c) :
    polyReduce i t g d a v s =
      .next (faultedWith s (encode i) .operandRange (polyLoc (a + e) c) (s.sreg.set d .bot) s.pmem s.draws) := by
  obtain ⟨hlegal, hill⟩ := h.split hc
  have hdone := overElements_reduce (fun e' he' => (hlegal e' he').holds) g s.draws
  have hloop := overElements_ends he hdone (by rw [Nat.zero_add]; exact reduceBody_illegal hc hill g _ _)
  rw [polyReduce_eq_loop, hloop, Fetched.bind_bad, conclude_bad, takeFault_eq, errlocWord_pmem, hd]
  rfl

end Reduce

/-- A command of the shape `polyReduce` completes with what its fold of the vector's integers is. -/
theorem polyReduceCompletes_of_shape {mk : SReg → PReg → VLen → Instr} {op : Nat} {t : OpType} {g : Int → Int → Int}
    {R : (Nat → Nat → Int) → Nat → Int → Prop} (hop : ∀ d a v, fOp (encode (mk d a v)) = op)
    (hexec : ∀ s d a v, exec (mk d a v) s = polyReduce (mk d a v) t g d a v s)
    (hR : ∀ x n, R x n ((vectorList x n).foldl g 0)) : PolyReduceCompletes mk op t R :=
  ⟨hop, fun s d a v x hx => ⟨_, hR x v.vl, (hexec s d a v).trans (polyReduce_completes hx)⟩⟩

/-! ## The folds -/

/-- Folding with `max` gives the maximum: nothing exceeds it, and it is the start or reached. -/
theorem foldl_max_spec (h : Int → Int) (xs : List Int) (a : Int) :
    (∀ x ∈ xs, h x ≤ xs.foldl (fun acc x => max acc (h x)) a) ∧ a ≤ xs.foldl (fun acc x => max acc (h x)) a ∧
      (xs.foldl (fun acc x => max acc (h x)) a = a ∨ ∃ x ∈ xs, xs.foldl (fun acc x => max acc (h x)) a = h x) := by
  induction xs generalizing a with
  | nil => simp
  | cons x xs ih =>
    obtain ⟨hle, hstart, hreached⟩ := ih (max a (h x))
    simp only [List.foldl_cons, List.forall_mem_cons, List.exists_mem_cons_iff]
    refine ⟨⟨(le_max_right _ _).trans hstart, hle⟩, (le_max_left _ _).trans hstart, ?_⟩
    rcases hreached with heq | hmem
    · rw [heq]
      exact (max_choice a (h x)).imp id .inl
    · exact .inr (.inr hmem)

theorem isMaximum_foldl (h : Int → Int) (x : Nat → Nat → Int) (n : Nat) :
    IsMaximum h x n ((vectorList x n).foldl (fun acc x => max acc (h x)) 0) := by
  obtain ⟨hle, -, hreached⟩ := foldl_max_spec h (vectorList x n) 0
  refine ⟨fun e c he hc => hle _ (mem_vectorList.2 ⟨e, c, he, hc, rfl⟩), hreached.imp id fun ⟨r, hr, heq⟩ => ?_⟩
  obtain ⟨e, c, he, hc, rfl⟩ := mem_vectorList.1 hr
  exact ⟨e, c, he, hc, heq⟩

theorem foldl_count_nonzero (xs : List Int) (a : Int) :
    xs.foldl (fun n x => if x ≠ 0 then n + 1 else n) a = a + (xs.countP fun x => decide (x ≠ 0) : Nat) := by
  induction xs generalizing a with
  | nil => simp
  | cons x xs ih =>
    rw [List.foldl_cons, ih, List.countP_cons]
    by_cases hx : x = 0
    · simp [hx]
    · simp [hx]; omega

theorem isWeight_foldl (x : Nat → Nat → Int) (n : Nat) :
    IsWeight x n ((vectorList x n).foldl (fun n x => if x ≠ 0 then n + 1 else n) 0) := by
  rw [IsWeight, foldl_count_nonzero, Int.zero_add, vectorList, List.countP_flatMap]
  congr 3
  funext e
  rw [Function.comp_apply, elementList, List.countP_map, List.countP_eq_length_filter]
  rfl

/-- Settles O38: the three commands are of the shape `polyReduce`; two folds are a maximum and one is a count. -/
theorem pnormPnormzPwgt : Obligations.PnormPnormzPwgt := by
  unfold Obligations.PnormPnormzPwgt
  refine ⟨⟨?pnorm, ?pnormFaults⟩, ?pnormz, ?pwgt⟩
  case pnorm =>
    exact polyReduceCompletes_of_shape (fOp_formR_SP (by decide)) (fun _ _ _ _ => rfl) (isMaximum_foldl _)
  case pnormFaults => exact fun s d a v e c he hc h => polyReduce_faults rfl he hc h
  case pnormz =>
    exact polyReduceCompletes_of_shape (fOp_formR_SP (by decide)) (fun _ _ _ _ => rfl) (isMaximum_foldl _)
  case pwgt => exact polyReduceCompletes_of_shape (fOp_formR_SP (by decide)) (fun _ _ _ _ => rfl) isWeight_foldl

end Sys2Proof.Machine
end

section
/-! The vector commands complete on legal operands (spec/42_ring.md R180; 60_exceptions.md R262, R263): where no element
writes a register that a later one reads, every element reads the words that stood there at the start. -/

namespace Sys2Proof.Machine

/-! ## Registers still to be read -/

/-- The registers that the elements from e on read from the source are in m' as they were in m. -/
def Untouched (src : Nat → Nat) (n e : Nat) (m m' : Mem) : Prop :=
  ∀ e', e ≤ e' → e' < n → SameWords m m' (src e')

section Untouched

variable {src : Nat → Nat} {d n e : Nat} {m m' : Mem}

theorem Untouched.refl (src : Nat → Nat) (n e : Nat) (m : Mem) : Untouched src n e m m := fun _ _ _ _ _ => rfl

theorem Untouched.next (h : Untouched src n e m m') : Untouched src n (e + 1) m m' := fun e' he => h e' (by omega)

/-- What element e writes, no later element reads. -/
theorem Untouched.setPoly (h : Untouched src n (e + 1) m m') (hreads : ReadsBeforeWrites d n src) (vs : List Slot) :
    Untouched src n (e + 1) m (Mem.setPoly m' (d + e) vs) := by
  intro e' he hn c hc
  have hne : src e' ≠ d + e := fun heq => hreads e e' he hn heq.symm
  rw [sameWords_setPoly hne vs c hc, h e' he hn c hc]

/-- Element e reads the words that were there at the start. -/
theorem Untouched.exists_readPoly {t : OpType} (h : Untouched src n e m m') (hlegal : LegalElements t m src n)
    (he : e < n) (k : Nat) : ∃ xs, readPoly m' (src e) t k = .ok xs k :=
  PolyLegal.exists_readPoly (PolyLegal.of_sameWords (hlegal e · he) (h e le_rfl he)) k

end Untouched

/-! ## The shapes complete -/

/-- A command of k elements completes when each element, from a memory with P e, gives one with P (e+1). -/
theorem completes_of_loop {i : Instr} {s : State} {body : Nat → Mem → Nat → Fetched Mem} {k : Nat}
    (hexec : exec i s = conclude i s (vectorLoop body k s)) {P : Nat → Mem → Prop} (hstart : P 0 s.pmem)
    (h : ∀ e m, e < k → P e m → ∃ m', body e m s.draws = .ok m' s.draws ∧ P (e + 1) m') : Completes i s := by
  obtain ⟨m, hloop, -⟩ := overElements_follow (P := P) (i := 0) (k := k) (fun e m _ he => h e m (by omega)) hstart
  exact ⟨m, by rw [hexec, conclude_vectorLoop hloop]⟩

section Complete

variable {i : Instr} {s : State} {t u : OpType} {d a b : PReg} {v : VLen} {k : Bcast}
  (hA : LegalElements t s.pmem (fun e => a + e) v.vl) (hreadsA : ReadsBeforeWrites d v.vl (fun e => a + e))
include hA hreadsA

theorem completes_of_unary {f : List Int → List Int}
    (hexec : exec i s = conclude i s (vectorLoop (unaryBody t f d a) v.vl s)) : Completes i s := by
  refine completes_of_loop hexec (P := fun e => Untouched (fun e => a + e) v.vl e s.pmem) (Untouched.refl _ _ _ _)
    fun e m he hm => ?_
  obtain ⟨xs, hxs⟩ := hm.exists_readPoly hA he s.draws
  exact ⟨_, by rw [unaryBody, hxs, Fetched.bind_ok], hm.next.setPoly hreadsA _⟩

theorem completes_of_binary {f : Int → Int → Int} (hB : LegalElements u s.pmem (operandB k b) v.vl)
    (hreadsB : ReadsBeforeWrites d v.vl (operandB k b))
    (hexec : exec i s = conclude i s (vectorLoop (binaryBody t u f d a b k) v.vl s)) : Completes i s := by
  refine completes_of_loop hexec
    (P := fun e m => Untouched (fun e => a + e) v.vl e s.pmem m ∧ Untouched (operandB k b) v.vl e s.pmem m)
    ⟨Untouched.refl _ _ _ _, Untouched.refl _ _ _ _⟩ fun e m he ⟨hmA, hmB⟩ => ?_
  obtain ⟨xs, hxs⟩ := hmA.exists_readPoly hA he s.draws
  obtain ⟨ys, hys⟩ := hmB.exists_readPoly hB he s.draws
  exact ⟨_, by rw [binaryBody, hxs, Fetched.bind_ok, hys, Fetched.bind_ok], hmA.next.setPoly hreadsA _,
    hmB.next.setPoly hreadsB _⟩

theorem completes_of_pair {f : Int → Int × Int} (hreadsB : ReadsBeforeWrites b v.vl (fun e => a + e))
    (hexec : exec i s = conclude i s (vectorLoop (pairBody t f d a b) v.vl s)) : Completes i s := by
  refine completes_of_loop hexec (P := fun e => Untouched (fun e => a + e) v.vl e s.pmem) (Untouched.refl _ _ _ _)
    fun e m he hm => ?_
  obtain ⟨xs, hxs⟩ := hm.exists_readPoly hA he s.draws
  exact ⟨_, by rw [pairBody, hxs, Fetched.bind_ok], (hm.next.setPoly hreadsA _).setPoly hreadsB _⟩

end Complete

/-- Settles O39: each command is a loop of one of the three shapes over sources that are read before they are written. -/
theorem vectorCommandsCompleteOnLegalOperands : Obligations.VectorCommandsCompleteOnLegalOperands := by
  unfold Obligations.VectorCommandsCompleteOnLegalOperands
  intro s d a b v k g hreadsA
  refine ⟨fun hA => ⟨?unary, fun r w hw hF => ?psmul, fun _ hreadsD => ?pair, fun hB hreadsB => ?binary⟩,
    fun hA => ?pfromsym, fun hA => ?pred, fun hA hB hreadsB => ?pusehint⟩
  case unary =>
    simp only [List.forall_mem_cons, List.not_mem_nil, false_imp_iff, implies_true, and_true]
    exact ⟨completes_of_unary hA hreadsA rfl, completes_of_unary hA hreadsA rfl, completes_of_unary hA hreadsA rfl,
      completes_of_unary hA hreadsA rfl, completes_of_unary hA hreadsA rfl, completes_of_unary hA hreadsA rfl⟩
  case psmul => exact completes_of_unary hA hreadsA (exec_psmul_legal hw hF d a v)
  case pair =>
    simp only [List.forall_mem_cons, List.not_mem_nil, false_imp_iff, implies_true, and_true]
    exact ⟨completes_of_pair hA hreadsA hreadsD rfl, completes_of_pair hA hreadsA hreadsD rfl⟩
  case binary =>
    simp only [List.forall_mem_cons, List.not_mem_nil, false_imp_iff, implies_true, and_true]
    exact ⟨completes_of_binary hA hreadsA hB hreadsB rfl, completes_of_binary hA hreadsA hB hreadsB rfl,
      completes_of_binary hA hreadsA hB hreadsB rfl, completes_of_binary hA hreadsA hB hreadsB rfl⟩
  case pfromsym => exact completes_of_unary hA hreadsA rfl
  case pred => exact completes_of_unary hA hreadsA rfl
  case pusehint => exact completes_of_binary hA hreadsA hB hreadsB rfl

end Sys2Proof.Machine
end

section
/-! A vector command is its single-element commands one after another (spec/42_ring.md R180, 00_scope.md R20): the loop of
its elements and the run of the commands go through the same memories. -/

namespace Sys2Proof.Machine

/-! ## Running the elements -/

/-- In state st the command computes with PMEM what the body says. -/
def RunsElement (i : Instr) (body : Mem → Nat → Fetched Mem) (st : State) : Prop :=
  exec i st = conclude i st ((body st.pmem st.draws).bind fun m n => .ok (st.setMem m) n)

section RunUntilFault

variable {i : Instr} {is : List Instr} {body : Mem → Nat → Fetched Mem} {st : State}

theorem runUntilFault_completes (h : RunsElement i body st) {m : Mem} {n : Nat}
    (hok : body st.pmem st.draws = .ok m n) :
    runUntilFault (i :: is) st = runUntilFault is (retiredWith st st.sreg m n) := by
  rw [RunsElement, hok, Fetched.bind_ok] at h
  rw [runUntilFault, h]
  exact if_neg (add_one_ne_self _)

theorem runUntilFault_faults (h : RunsElement i body st) {l : Loc} {n : Nat}
    (hbad : body st.pmem st.draws = .bad l n) :
    runUntilFault (i :: is) st = takeFault (encode i) .operandRange (some l) (destsOf i) { st with draws := n } := by
  rw [RunsElement, hbad, Fetched.bind_bad, conclude_bad] at h
  rw [runUntilFault, h]
  exact if_pos (takeFault_retired _ _ _ _ _)

end RunUntilFault

/-- How the run of the elements agrees with the loop's result. -/
def RunAgrees (s t : State) : Fetched Mem → Prop
  | .ok m n => t.sreg = s.sreg ∧ t.pmem = m ∧ t.draws = n ∧ t.err = s.err
  | .bad l n => t.err = true ∧ t.errloc = errlocWord (some l) ∧ t.draws = n

/-- Commands that each run one element, from any state with these registers, run the loop. -/
theorem runUntilFault_elements {elem : Nat → Instr} {body : Nat → Mem → Nat → Fetched Mem} {sreg : Vector Slot 16}
    {i k : Nat} (h : ∀ e st, e < i + k → st.sreg = sreg → RunsElement (elem e) (body e) st) {st : State}
    (hst : st.sreg = sreg) :
    RunAgrees st (runUntilFault ((List.range' i k).map elem) st) (overElements body k i st.pmem st.draws) := by
  induction k generalizing i st with
  | zero => exact ⟨rfl, rfl, rfl, rfl⟩
  | succ k ih =>
    have hrun := h i st (by omega) hst
    rw [List.range'_succ, List.map_cons, overElements]
    cases hbody : body i st.pmem st.draws with
    | ok m n =>
      rw [runUntilFault_completes hrun hbody, Fetched.bind_ok]
      exact ih (fun e st' he => h e st' (by omega)) (st := retiredWith st st.sreg m n) hst
    | bad l n =>
      rw [runUntilFault_faults hrun hbody, Fetched.bind_bad]
      exact ⟨takeFault_err _ _ _ _ _, takeFault_errloc _ _ _ _ _, takeFault_draws _ _ _ _ _⟩

/-! ## What the statement asks of one command -/

/-- In state s the command is a loop over elements, and its single-element commands run them one by one. -/
structure IsItsElements (i : Instr) (s : State) (k : Nat) (elem : Nat → Instr)
    (body : Nat → Mem → Nat → Fetched Mem) : Prop where
  loop : exec i s = conclude i s (vectorLoop body k s)
  elements : elementsOf i = (List.range k).map elem
  runs : ∀ e st, e < k → st.sreg = s.sreg → RunsElement (elem e) (body e) st

/-- The command's complete step ends as the run of its elements does: the same registers, PMEM and count of drawn free
values when it completes, the same failing word when it faults. -/
def EndsAsItsElements (i : Instr) (s : State) : Prop :=
  ∃ t, exec i s = .next t ∧
    (t.retired ≠ s.retired →
      t.sreg = (runUntilFault (elementsOf i) s).sreg ∧ t.pmem = (runUntilFault (elementsOf i) s).pmem ∧
        t.draws = (runUntilFault (elementsOf i) s).draws ∧ (runUntilFault (elementsOf i) s).err = s.err) ∧
    (t.retired = s.retired →
      (runUntilFault (elementsOf i) s).err = true ∧ t.errloc = (runUntilFault (elementsOf i) s).errloc ∧
        t.draws = (runUntilFault (elementsOf i) s).draws)

theorem IsItsElements.ends {i : Instr} {s : State} {k : Nat} {elem : Nat → Instr}
    {body : Nat → Mem → Nat → Fetched Mem} (h : IsItsElements i s k elem body) : EndsAsItsElements i s := by
  obtain ⟨hloop, helements, hruns⟩ := h
  have hagrees := runUntilFault_elements (i := 0) (k := k) (fun e st he => hruns e st (by omega)) (st := s) rfl
  rw [← List.range_eq_range', ← helements] at hagrees
  cases hend : overElements body k 0 s.pmem s.draws with
  | ok m n =>
    rw [hend] at hagrees
    obtain ⟨hsreg, hpmem, hdraws, herr⟩ := hagrees
    exact ⟨_, hloop.trans (conclude_vectorLoop hend), fun _ => ⟨hsreg.symm, hpmem.symm, hdraws.symm, herr⟩,
      fun hr => absurd hr (add_one_ne_self _)⟩
  | bad l n =>
    rw [hend] at hagrees
    obtain ⟨herr, herrloc, hdraws⟩ := hagrees
    rw [vectorLoop_bad hend, conclude_bad] at hloop
    refine ⟨_, hloop, fun hr => absurd (takeFault_retired _ _ _ _ _) hr, fun _ => ⟨herr, ?_, ?_⟩⟩
    · rw [takeFault_errloc, herrloc]
    · rw [takeFault_draws, hdraws]

/-! ## The single-element commands of the three shapes -/

/-- A loop of one element is that element. -/
theorem vectorLoop_one (body : Nat → Mem → Nat → Fetched Mem) (st : State) :
    vectorLoop body 1 st = (body 0 st.pmem st.draws).bind fun m n => .ok (st.setMem m) n := by
  rw [vectorLoop]
  cases h : body 0 st.pmem st.draws with
  | ok m n => rw [overElements, h]; rfl
  | bad l n => rw [overElements, h]; rfl

/-- Field e of a vector whose registers all exist is the register itself. -/
theorem val_ofNat_field {r n e : Nat} (hfit : r + n ≤ 64) (he : e < n) : (Fin.ofNat 64 (r + e)).val = r + e :=
  Nat.mod_eq_of_lt (by omega)

theorem val_ofNat_operandB {c : Bcast} {b : PReg} {v : VLen} {e : Nat} (hfit : b.val + c.span v ≤ 64) (he : e < v.vl) :
    (Fin.ofNat 64 (operandB c b e)).val = operandB c b e := by
  cases c with
  | each => exact val_ofNat_field hfit he
  | one => exact val_ofNat_field (e := 0) hfit Nat.one_pos

theorem operandB_zero (c : Bcast) (r : Nat) : operandB c r 0 = r := by cases c <;> rfl

/-- A legal command's vectors lie inside the 64 registers that a field can name. -/
theorem vectors_fit_field {np : NPoly} {i : Instr} (h : i.wf np = true) : ∀ x ∈ i.vectors, x.1.val + x.2 ≤ 64 :=
  fun x hx => (Laws.InRange.vectors_fit h x hx).trans (NPoly.count_le np)

section Shapes

variable {s : State} {t u : OpType} {d a b : PReg} {v : VLen} {c : Bcast}

/-- A command of the shape `polyUnary` in every state with these registers. -/
theorem endsAsItsElements_unary {mk : PReg → PReg → VLen → Instr} {f : List Int → List Int}
    (hwf : (mk d a v).wf s.cfg.npoly = true) (hvectors : (mk d a v).vectors = [(d, v.vl), (a, v.vl)])
    (helements : elementsOf (mk d a v) = (List.range v.vl).map fun e =>
      mk (Fin.ofNat 64 (d + e)) (Fin.ofNat 64 (a + e)) 0)
    (hexec : ∀ d a v st, st.sreg = s.sreg →
      exec (mk d a v) st = conclude (mk d a v) st (vectorLoop (unaryBody t f d a) v.vl st)) :
    EndsAsItsElements (mk d a v) s := by
  have hfit := vectors_fit_field hwf
  rw [hvectors] at hfit
  simp only [List.forall_mem_cons] at hfit
  obtain ⟨hd, ha, -⟩ := hfit
  refine IsItsElements.ends ⟨hexec d a v s rfl, helements, fun e st he hst => ?_⟩
  rw [RunsElement, hexec _ _ _ st hst]
  refine congrArg _ ((vectorLoop_one _ st).trans ?_)
  rw [unaryBody, Nat.add_zero, Nat.add_zero, val_ofNat_field hd he, val_ofNat_field ha he, unaryBody]

/-- A command of the shape `polyBinary`. -/
theorem endsAsItsElements_binary {mk : PReg → PReg → PReg → VLen → Bcast → Instr} {f : Int → Int → Int}
    (hwf : (mk d a b v c).wf s.cfg.npoly = true)
    (hvectors : (mk d a b v c).vectors = [(d, v.vl), (a, v.vl), (b, c.span v)])
    (helements : elementsOf (mk d a b v c) = (List.range v.vl).map fun e =>
      mk (Fin.ofNat 64 (d + e)) (Fin.ofNat 64 (a + e)) (Fin.ofNat 64 (operandB c b e)) 0 c)
    (hexec : ∀ d a b v st,
      exec (mk d a b v c) st = conclude (mk d a b v c) st (vectorLoop (binaryBody t u f d a b c) v.vl st)) :
    EndsAsItsElements (mk d a b v c) s := by
  have hfit := vectors_fit_field hwf
  rw [hvectors] at hfit
  simp only [List.forall_mem_cons] at hfit
  obtain ⟨hd, ha, hb, -⟩ := hfit
  refine IsItsElements.ends ⟨hexec d a b v s, helements, fun e st he _ => ?_⟩
  rw [RunsElement, hexec]
  refine congrArg _ ((vectorLoop_one _ st).trans ?_)
  rw [binaryBody, Nat.add_zero, Nat.add_zero, operandB_zero, val_ofNat_field hd he, val_ofNat_field ha he,
    val_ofNat_operandB hb he, binaryBody]

/-- A command of the shape `polyPair`. -/
theorem endsAsItsElements_pair {mk : PReg → PReg → PReg → VLen → Instr} {f : Int → Int × Int}
    (hwf : (mk d a b v).wf s.cfg.npoly = true) (hvectors : (mk d a b v).vectors = [(d, v.vl), (a, v.vl), (b, v.vl)])
    (helements : elementsOf (mk d a b v) = (List.range v.vl).map fun e =>
      mk (Fin.ofNat 64 (d + e)) (Fin.ofNat 64 (a + e)) (Fin.ofNat 64 (b + e)) 0)
    (hexec : ∀ d a b v st,
      exec (mk d a b v) st = conclude (mk d a b v) st (vectorLoop (pairBody t f d a b) v.vl st)) :
    EndsAsItsElements (mk d a b v) s := by
  have hfit := vectors_fit_field hwf
  rw [hvectors] at hfit
  simp only [List.forall_mem_cons] at hfit
  obtain ⟨hd, ha, hb, -⟩ := hfit
  refine IsItsElements.ends ⟨hexec d a b v s, helements, fun e st he _ => ?_⟩
  rw [RunsElement, hexec]
  refine congrArg _ ((vectorLoop_one _ st).trans ?_)
  rw [pairBody, Nat.add_zero, Nat.add_zero, Nat.add_zero, val_ofNat_field hd he, val_ofNat_field ha he,
    val_ofNat_field hb he, pairBody]

/-- PSMUL with a scalar that holds a value: the elements read the same scalar again, and an illegal one ends the first of
them as it ends the vector command. -/
theorem endsAsItsElements_psmul {r : SReg} {k : Word} (hwf : (Instr.psmul d a r v).wf s.cfg.npoly = true)
    (hk : s.s r = .val k) : EndsAsItsElements (.psmul d a r v) s := by
  have hread (st : State) (hst : st.sreg = s.sreg) : st.s r = .val k := by rw [State.s, hst]; exact hk
  by_cases hlegal : IsF k
  · exact endsAsItsElements_unary (mk := fun d a v => .psmul d a r v) hwf rfl rfl fun d a v st hst =>
      exec_psmul_legal (hread st hst) hlegal d a v
  · refine IsItsElements.ends (body := fun _ _ n => .bad ⟨.sreg, r.val, 0⟩ n) ⟨?_, rfl, fun e st _ hst => ?_⟩
    · rw [vectorLoop_bad rfl]
      exact exec_psmul_illegal hk hlegal d a v
    · exact exec_psmul_illegal (hread st hst) hlegal _ _ 0

end Shapes

/-- Settles O40: each vector command is a loop of one of the three shapes, PSMUL after its scalar, and its single-element
commands are of the same shape. -/
theorem vectorCommandIsItsElements : Obligations.VectorCommandIsItsElements := by
  unfold Obligations.VectorCommandIsItsElements
  intro i s hwf _ hne hscalar
  cases i with
  | pneg => exact endsAsItsElements_unary (mk := .pneg) hwf rfl rfl fun _ _ _ _ _ => rfl
  | ptosym => exact endsAsItsElements_unary (mk := .ptosym) hwf rfl rfl fun _ _ _ _ _ => rfl
  | pfromsym => exact endsAsItsElements_unary (mk := .pfromsym) hwf rfl rfl fun _ _ _ _ _ => rfl
  | pred => exact endsAsItsElements_unary (mk := .pred) hwf rfl rfl fun _ _ _ _ _ => rfl
  | pmov => exact endsAsItsElements_unary (mk := .pmov) hwf rfl rfl fun _ _ _ _ _ => rfl
  | ntt => exact endsAsItsElements_unary (mk := .ntt) hwf rfl rfl fun _ _ _ _ _ => rfl
  | intt => exact endsAsItsElements_unary (mk := .intt) hwf rfl rfl fun _ _ _ _ _ => rfl
  | phigh d a v g => exact endsAsItsElements_unary (mk := (.phigh · · · g)) hwf rfl rfl fun _ _ _ _ _ => rfl
  | plow d a v g => exact endsAsItsElements_unary (mk := (.plow · · · g)) hwf rfl rfl fun _ _ _ _ _ => rfl
  | padd => exact endsAsItsElements_binary (mk := .padd) hwf rfl rfl fun _ _ _ _ _ => rfl
  | psub => exact endsAsItsElements_binary (mk := .psub) hwf rfl rfl fun _ _ _ _ _ => rfl
  | pmul => exact endsAsItsElements_binary (mk := .pmul) hwf rfl rfl fun _ _ _ _ _ => rfl
  | pmkhint d a b v c g =>
    exact endsAsItsElements_binary (mk := (.pmkhint · · · · · g)) hwf rfl rfl fun _ _ _ _ _ => rfl
  | pusehint d a b v c g =>
    exact endsAsItsElements_binary (mk := (.pusehint · · · · · g)) hwf rfl rfl fun _ _ _ _ _ => rfl
  | pp2r => exact endsAsItsElements_pair (mk := .pp2r) hwf rfl rfl fun _ _ _ _ _ => rfl
  | pdecomp d a b v g => exact endsAsItsElements_pair (mk := (.pdecomp · · · · g)) hwf rfl rfl fun _ _ _ _ _ => rfl
  | psmul d a b v =>
    cases hk : s.s b with
    | bot => exact absurd hk (hscalar d a b v rfl)
    | val k => exact endsAsItsElements_psmul hwf hk
  | _ => exact absurd rfl hne

end Sys2Proof.Machine
end

section
/-! The field helpers as operations on residues modulo q, and polynomials of field elements (spec/00_scope.md R16). -/

namespace Sys2Proof.Machine

/-! ## The field helpers modulo q -/

/-- The residues modulo q, in which the field helpers are the ring operations. -/
abbrev Zq : Type := ZMod 8380417

theorem cast_emod_q (a : Int) : ((a % q : Int) : Zq) = a := ZMod.intCast_mod a 8380417

theorem cast_q : (q : Zq) = 0 := by rw [← cast_emod_q, Int.emod_self, Int.cast_zero]

theorem cast_eq_of_emod_eq {a b : Int} (h : a % q = b % q) : (a : Zq) = b :=
  (ZMod.intCast_eq_intCast_iff' a b 8380417).2 h

theorem cast_reduceOnce (a : Int) : (reduceOnce a : Zq) = a := by
  rw [reduceOnce]
  split
  · rw [Int.cast_sub, cast_q, sub_zero]
  · rfl

theorem cast_fadd (x y : Int) : (fadd x y : Zq) = x + y := by rw [fadd, cast_reduceOnce, Int.cast_add]

theorem cast_fsub (x y : Int) : (fsub x y : Zq) = x - y := by
  rw [fsub, cast_reduceOnce, Int.cast_add, cast_q, add_zero, Int.cast_sub]

theorem cast_fneg (x : Int) : (fneg x : Zq) = -x := by rw [fneg, cast_fsub, Int.cast_zero, zero_sub]

theorem cast_fmul (x y : Int) : (fmul x y : Zq) = x * y := by rw [fmul, cast_emod_q, Int.cast_mul]

/-! ## Field elements -/

/-- The integer is a field element. -/
def IsField (a : Int) : Prop := 0 ≤ a ∧ a < q

theorem isField_emod (a : Int) : IsField (a % q) :=
  ⟨Int.emod_nonneg a (by decide), Int.emod_lt_of_pos a (by decide)⟩

theorem isField_fmul (x y : Int) : IsField (fmul x y) := isField_emod _

theorem isField_fadd {x y : Int} (hx : IsField x) (hy : IsField y) : IsField (fadd x y) := by
  rw [fadd_eq_emod hx.1 hx.2 hy.1 hy.2]
  exact isField_emod _

theorem isField_fsub {x y : Int} (hx : IsField x) (hy : IsField y) : IsField (fsub x y) := by
  rw [fsub_eq_emod hx.1 hx.2 hy.1 hy.2]
  exact isField_emod _

/-- A field element is the residue of every integer it is congruent to. -/
theorem IsField.eq_emod {a b : Int} (ha : IsField a) (h : (a : Zq) = b) : a = b % q := by
  rw [← Int.emod_eq_of_lt ha.1 ha.2]
  exact (ZMod.intCast_eq_intCast_iff' a b 8380417).1 h

theorem IsField.eq_of_cast {a b : Int} (ha : IsField a) (hb : IsField b) (h : (a : Zq) = b) : a = b :=
  (ha.eq_emod h).trans (Int.emod_eq_of_lt hb.1 hb.2)

theorem isRq_map_range {f : Nat → Int} (hf : ∀ c, IsField (f c)) : IsRq ((List.range 256).map f) := by
  refine ⟨by simp, fun a ha => ?_⟩
  obtain ⟨c, -, rfl⟩ := List.mem_map.1 ha
  exact hf c

theorem IsRq.isField_getD {x : List Int} (hx : IsRq x) {j : Nat} (hj : j < 256) : IsField (x.getD j 0) := by
  obtain ⟨hlen, hfield⟩ := hx
  rw [List.getD_eq_getElem x 0 (hlen ▸ hj)]
  exact hfield _ (List.getElem_mem _)

/-- Polynomials of field elements are equal when their coefficients are congruent. -/
theorem IsRq.ext {x y : List Int} (hx : IsRq x) (hy : IsRq y)
    (h : ∀ j, j < 256 → (x.getD j 0 : Zq) = (y.getD j 0 : Int)) : x = y := by
  refine List.ext_getElem (hx.1.trans hy.1.symm) fun j hjx hjy => ?_
  have hj : j < 256 := hx.1 ▸ hjx
  have heq := (hx.isField_getD hj).eq_of_cast (hy.isField_getD hj) (h j hj)
  rwa [List.getD_eq_getElem x 0 hjx, List.getD_eq_getElem y 0 hjy] at heq

theorem forall_mem_zipWith {h : Int → Int → Int} {P Q : Int → Prop} (hh : ∀ a b, P a → P b → Q (h a b)) {u v : List Int}
    (hu : ∀ a ∈ u, P a) (hv : ∀ b ∈ v, P b) : ∀ c ∈ List.zipWith h u v, Q c := by
  rw [← List.map_uncurry_zip_eq_zipWith, List.forall_mem_map]
  rintro ⟨a, b⟩ hab
  obtain ⟨ha, hb⟩ := List.of_mem_zip hab
  exact hh a b (hu a ha) (hv b hb)

theorem IsRq.zipWith {h : Int → Int → Int} (hh : ∀ a b, IsField a → IsField b → IsField (h a b)) {x y : List Int}
    (hx : IsRq x) (hy : IsRq y) : IsRq (List.zipWith h x y) := by
  obtain ⟨hxlen, hxfield⟩ := hx
  obtain ⟨hylen, hyfield⟩ := hy
  exact ⟨by rw [List.length_zipWith, hxlen, hylen, Nat.min_self], forall_mem_zipWith hh hxfield hyfield⟩

theorem isRq_map_fmul {x : List Int} (hx : x.length = 256) (k : Int) : IsRq (x.map (fmul k)) :=
  ⟨by rw [List.length_map, hx], List.forall_mem_map.2 fun a _ => isField_fmul k a⟩

theorem getD_zipWith {x y : List Int} {j : Nat} (hx : j < x.length) (hy : j < y.length) (h : Int → Int → Int) :
    (List.zipWith h x y).getD j 0 = h (x.getD j 0) (y.getD j 0) := by
  simp [hx, hy]

end Sys2Proof.Machine
end

section
/-! ZROM and the roots of unity of the transforms (spec/43_ntt.md R210 to R213). The groups of all layers of a transform
are numbered as the nodes of a binary tree: layer l has the groups 2^l to 2^(l+1) - 1, and the halves of group i are the
groups 2i and 2i+1 of the next layer. The forward transform uses ZROM[i] at group i. -/

namespace Sys2Proof.Machine

/-- Settles O45: the formula is `zrom_eq_formula`; the rest are facts of the one table R211 gives, evaluated. -/
theorem zromIsTheFormula : Obligations.ZromIsTheFormula :=
  ⟨zrom_eq_formula, by decide +kernel, by decide +kernel, by decide +kernel, by decide +kernel⟩

/-- ζ = 1753 is a root of X^256 + 1. -/
theorem zeta_pow_256 : (1753 : Zq) ^ 256 = -1 := by
  have h : ((1753 ^ 256 : Int) : Zq) = (-1 : Int) := cast_eq_of_emod_eq (by decide +kernel)
  rwa [Int.cast_pow, Int.cast_neg, Int.cast_one] at h

theorem cast_zrom {i : Nat} (hi : i < 256) : (zrom i : Zq) = 1753 ^ brv8 i := by
  rw [zrom_eq_formula ⟨i, hi⟩, cast_emod_q]
  push_cast
  rfl

/-- Bits from bit 8 on are not looked at. -/
theorem brv8_256_add (j : Nat) : brv8 (256 + j) = brv8 j := by
  rw [brv8, brv8]
  congr 1
  refine List.map_congr_left fun b hb => ?_
  have hb : b < 8 := List.mem_range.1 hb
  interval_cases b <;> simp <;> omega

/-- Reversing the bits: the lowest bit becomes the highest, the others move down by one. -/
theorem two_mul_brv8 (i : Nat) : 2 * brv8 i + i / 256 % 2 = brv8 (i / 2) + 256 * (i % 2) := by
  simp only [brv8, List.sum_range_succ, List.range_zero, List.map_nil, List.sum_nil, Nat.div_div_eq_div_mul]
  norm_num
  omega

/-- Complementing the bits below the highest one: the two reversals add up to 256. -/
theorem brv8_add_mirror {l a b : Nat} (hl : l < 8) (ha : 2 ^ l ≤ a) (hb : 2 ^ l ≤ b) (hab : a + b + 1 = 3 * 2 ^ l) :
    brv8 a + brv8 b = 256 := by
  induction l generalizing a b with
  | zero =>
    obtain ⟨rfl, rfl⟩ : a = 1 ∧ b = 1 := by omega
    decide
  | succ l ih =>
    have hpow : 2 ^ l ≤ 2 ^ 6 := Nat.pow_le_pow_right (by decide) (by omega)
    rw [Nat.pow_succ] at ha hb hab
    have hhalves := ih (a := a / 2) (b := b / 2) (by omega) (by omega) (by omega) (by omega)
    have hA := two_mul_brv8 a
    have hB := two_mul_brv8 b
    have hparity : a % 2 + b % 2 = 1 := by omega
    rw [show a / 256 = 0 by omega] at hA
    rw [show b / 256 = 0 by omega] at hB
    omega

/-- The root at group i: the L entries of the group are a polynomial modulo X^L - root i. -/
def root (i : Nat) : Zq := 1753 ^ (brv8 (i / 2) + 256 * (i % 2))

theorem root_even {i : Nat} (hi : i < 256) : root (2 * i) = zrom i := by
  rw [root, cast_zrom hi, Nat.mul_div_cancel_left i two_pos, Nat.mul_mod_right, Nat.mul_zero, Nat.add_zero]

theorem root_odd {i : Nat} (hi : i < 256) : root (2 * i + 1) = -zrom i := by
  rw [root, cast_zrom hi, show (2 * i + 1) / 2 = i by omega, show (2 * i + 1) % 2 = 1 by omega, Nat.mul_one, pow_add,
    zeta_pow_256, mul_neg_one]

theorem zrom_sq {i : Nat} (hi : i < 256) : (zrom i : Zq) ^ 2 = root i := by
  rw [cast_zrom hi, root, ← two_mul_brv8, Nat.div_eq_of_lt hi, ← pow_mul, Nat.mul_comm]
  rfl

/-- Below the last layer stand the 256 roots of X^256 + 1, one for each coefficient of the transform. -/
theorem root_leaf {j : Nat} (hj : j < 256) : root (256 + j) = 1753 ^ (2 * brv8 j + 1) := by
  rw [root, ← two_mul_brv8, brv8_256_add, show (256 + j) / 256 % 2 = 1 by omega]

theorem root_leaf_pow_256 {j : Nat} (hj : j < 256) : root (256 + j) ^ 256 = -1 := by
  rw [root_leaf hj, ← pow_mul, Nat.mul_comm, pow_mul, zeta_pow_256]
  exact (odd_two_mul_add_one (brv8 j)).neg_one_pow

/-- The twiddle of the forward transform at group i of layer l and the one that the inverse transform negates there. -/
theorem zrom_mul_mirror {l i : Nat} (hl : l < 8) (hlo : 2 ^ l ≤ i) (hhi : i < 2 ^ l + 2 ^ l) :
    (zrom i : Zq) * zrom (3 * 2 ^ l - 1 - i) = -1 := by
  have hpow : 2 ^ l ≤ 2 ^ 7 := Nat.pow_le_pow_right (by decide) (by omega)
  rw [cast_zrom (by omega), cast_zrom (by omega), ← pow_add, brv8_add_mirror hl hlo (by omega) (by omega), zeta_pow_256]

end Sys2Proof.Machine
end

section
/-! PDOT, the dot product of two vectors (spec/43_ntt.md R217): the loop adds up the products of the coefficients. -/

namespace Sys2Proof.Machine

/-! ## The sum of the products -/

/-- Coefficient by coefficient the sum of the first n products, modulo q. -/
def dotList (x y : Nat → Nat → Int) (n : Nat) : List Int :=
  (List.range 256).map fun c => ((List.range n).map fun e => x e c * y e c).sum % q

theorem dotList_length (x y : Nat → Nat → Int) (n : Nat) : (dotList x y n).length = 256 := by simp [dotList]

theorem dotList_getD (x y : Nat → Nat → Int) (n : Nat) {c : Nat} (hc : c < 256) :
    (dotList x y n).getD c 0 = ((List.range n).map fun e => x e c * y e c).sum % q := by simp [dotList, hc]

theorem dotList_zero (x y : Nat → Nat → Int) : dotList x y 0 = List.replicate 256 0 := by simp [dotList]

theorem fadd_emod_emod (a b : Int) : fadd (a % q) (b % q) = (a + b) % q := by
  obtain ⟨ha0, haq⟩ := isField_emod a
  obtain ⟨hb0, hbq⟩ := isField_emod b
  rw [fadd_eq_emod ha0 haq hb0 hbq, ← Int.add_emod]

/-- R217: the next term, `fmul` and then `fadd`. -/
theorem dotList_succ (x y : Nat → Nat → Int) (n : Nat) :
    dotList x y (n + 1) =
      List.zipWith fadd (dotList x y n) (List.zipWith fmul (elementList x n) (elementList y n)) := by
  refine List.ext_getElem (by simp [dotList, elementList]) fun c _ _ => ?_
  simp [dotList, elementList, fmul, fadd_emod_emod, List.sum_range_succ]

/-! ## The loop of PDOT -/

/-- One term of PDOT. -/
def pdotBody (m : Mem) (a b : Nat) (k : Bcast) (e : Nat) (acc : List Int) (n : Nat) : Fetched (List Int) :=
  (readPoly m (a + e) .F n).bind fun xs n => (readPoly m (operandB k b e) .F n).bind fun ys n =>
    .ok (List.zipWith fadd acc (List.zipWith fmul xs ys)) n

section Pdot

variable {m : Mem} {a b e : Nat} {k : Bcast} {x y : Nat → Nat → Int}

theorem pdotBody_legal (hx : PolyHolds .F m (a + e) (x e)) (hy : PolyHolds .F m (operandB k b e) (y e)) (n : Nat) :
    pdotBody m a b k e (dotList x y e) n = .ok (dotList x y (e + 1)) n := by
  rw [pdotBody, hx.readPoly, Fetched.bind_ok, hy.readPoly, Fetched.bind_ok, dotList_succ]

theorem pdotBody_illegal_first {c : Nat} (hc : c < 256) (h : FirstIllegalWord .F m (a + e) c) (acc : List Int)
    (n : Nat) : pdotBody m a b k e acc n = .bad ⟨.pmem, a + e, c⟩ n := by
  rw [pdotBody, readPoly_illegal hc h, Fetched.bind_bad]

theorem pdotBody_illegal_second {c : Nat} (hc : c < 256) (hx : PolyLegal .F m (a + e))
    (h : FirstIllegalWord .F m (operandB k b e) c) (acc : List Int) (n : Nat) :
    pdotBody m a b k e acc n = .bad ⟨.pmem, operandB k b e, c⟩ n := by
  obtain ⟨xs, hxs⟩ := hx.exists_readPoly n
  rw [pdotBody, hxs, Fetched.bind_ok, readPoly_illegal hc h, Fetched.bind_bad]

/-- Terms that read legal words are summed, and no free value is drawn. -/
theorem overElements_pdot {j : Nat} (hx : ∀ e, e < j → PolyHolds .F m (a + e) (x e))
    (hy : ∀ e, e < j → PolyHolds .F m (operandB k b e) (y e)) (n : Nat) :
    overElements (pdotBody m a b k) j 0 (List.replicate 256 0) n = .ok (dotList x y j) n := by
  rw [← dotList_zero x y]
  refine overElements_run (dotList x y) n j 0 fun e he => ?_
  rw [Nat.zero_add]
  exact pdotBody_legal (hx e he) (hy e he) n

end Pdot

section Command

variable {s : State} {d a b : PReg} {v : VLen} {k : Bcast}

theorem exec_pdot : exec (.pdot d a b v k) s = conclude (.pdot d a b v k) s
    ((overElements (pdotBody s.pmem a b k) v.vl 0 (List.replicate 256 0) s.draws).bind fun acc n =>
      .ok (s.setMem (Mem.setPoly s.pmem d.val (polyOf acc))) n) := rfl

/-- Writing one polynomial register. -/
theorem writesVector_setPoly {vs : List Slot} {y : Nat → Word} (h : WordsAre vs y) (m : Mem) (i : Nat) :
    WritesVector m (Mem.setPoly m i vs) i 1 fun _ => y := by
  obtain ⟨hlen, hget⟩ := h
  intro j c hc
  rw [Mem.get_setPoly m i vs hlen j c hc]
  by_cases hj : j = i
  · rw [if_pos hj, if_pos (by omega), hget c hc]
  · rw [if_neg hj, if_neg (by omega)]

theorem pdot_completes {x y : Nat → Nat → Int} (hx : Operand .F s.pmem a v.vl x)
    (hy : OperandB .F s.pmem k b v.vl y) :
    exec (.pdot d a b v k) s =
      .next (retiredWith s s.sreg (Mem.setPoly s.pmem d.val (polyOf (dotList x y v.vl))) s.draws) := by
  rw [exec_pdot, overElements_pdot (fun e he c hc => hx e c he hc) (fun e he c hc => hy e c he hc), Fetched.bind_ok]
  rfl

/-- PDOT faults at term e when the terms before it read legal words and term e reads an illegal one. -/
theorem pdot_faults {e : Nat} {l : Loc} (he : e < v.vl) (hA : ∀ e', e' < e → PolyLegal .F s.pmem (a + e'))
    (hB : ∀ e', e' < e → PolyLegal .F s.pmem (operandB k b e'))
    (hbad : ∀ acc, pdotBody s.pmem a b k e acc s.draws = .bad l s.draws) :
    VectorFaults (.pdot d a b v k) s d 1 (errlocWord (some l)) := by
  have hdone := overElements_pdot (fun e' he' => (hA e' he').holds) (fun e' he' => (hB e' he').holds) s.draws
  have hloop := overElements_ends he hdone (by rw [Nat.zero_add]; exact hbad _)
  refine vectorFaults_of_bad (v := 0) rfl ?_
  rw [exec_pdot, hloop, Fetched.bind_bad]

end Command

/-- Settles O37: the loop sums the products over the memory the command starts from, and p[D] is written after it. -/
theorem pdotSumsTheProducts : Obligations.PdotSumsTheProducts := by
  unfold Obligations.PdotSumsTheProducts
  refine ⟨fOp_formR_P3C (by decide), fun s d a b v k => ⟨fun x y hx hy => ?_, fun e c he hc hB => ⟨fun hill => ?_,
    fun hA hill => ?_⟩⟩⟩
  · have hwords : WordsAre (polyOf (dotList x y v.vl)) fun c =>
        wordOf (((List.range v.vl).map fun e => x e c * y e c).sum % q) :=
      wordsAre_polyOf (dotList_length x y v.vl) fun c hc => by rw [dotList_getD x y v.vl hc]
    exact ⟨_, writesVector_setPoly hwords _ _, fun h => Mem.wf_setPoly h _ _, pdot_completes hx hy⟩
  · obtain ⟨hbefore, hfirst⟩ := hill.split hc
    rw [← errlocWord_pmem]
    exact pdot_faults he hbefore (fun e' he' c hc => hB e' c he' hc) fun acc => pdotBody_illegal_first hc hfirst acc _
  · obtain ⟨-, hfirst⟩ := hill.split hc
    rw [← errlocWord_pmem]
    exact pdot_faults he (fun e' he' c hc => hA e' c (by omega) hc) (fun e' he' c hc => hB e' c he' hc) fun acc =>
      pdotBody_illegal_second hc (fun c hc => hA e c (by omega) hc) hfirst acc _

end Sys2Proof.Machine
end

section
/-! The transforms as layers of butterflies (spec/43_ntt.md R212, R213). -/

namespace Sys2Proof.Machine

/-! ## A layer -/

/-- The groups of a layer, k of them from group i on: `f i` of the pairs of a group, then `g i` of them. -/
def layer (f g : Nat → Int → Int → Int) (len : Nat) : Nat → Nat → List Int → List Int
  | 0, _, w => w
  | k + 1, i, w =>
    (List.zipWith (f i) (w.take len) ((w.drop len).take len) ++
      List.zipWith (g i) (w.take len) ((w.drop len).take len)) ++ layer f g len k (i + 1) (w.drop (2 * len))

/-- A list of k groups, each a block of len entries and its partner block. -/
inductive Grouped (len : Nat) : Nat → List Int → Prop
  | nil : Grouped len 0 []
  | cons {k : Nat} {lo hi w : List Int} : lo.length = len → hi.length = len → Grouped len k w →
      Grouped len (k + 1) (lo ++ (hi ++ w))

theorem grouped_of_length {len k : Nat} {w : List Int} (h : w.length = 2 * len * k) : Grouped len k w := by
  induction k generalizing w with
  | zero =>
    rw [List.eq_nil_of_length_eq_zero h]
    exact .nil
  | succ k ih =>
    rw [Nat.mul_succ] at h
    rw [← List.take_append_drop len w, ← List.take_append_drop len (w.drop len)]
    exact .cons (by simp; omega) (by simp; omega) (ih (by simp; omega))

section Layer

variable {f g : Nat → Int → Int → Int} {len k i : Nat} {w : List Int}

theorem layer_succ {lo hi : List Int} (hlo : lo.length = len) (hhi : hi.length = len) (w : List Int) :
    layer f g len (k + 1) i (lo ++ (hi ++ w)) =
      List.zipWith (f i) lo hi ++ (List.zipWith (g i) lo hi ++ layer f g len k (i + 1) w) := by
  have hrest : (lo ++ (hi ++ w)).drop (2 * len) = w := by
    rw [← List.append_assoc, List.drop_left' (by rw [List.length_append]; omega)]
  rw [layer, hrest, List.drop_left' hlo, List.take_left' hlo, List.take_left' hhi, List.append_assoc]

theorem layer_length (hw : Grouped len k w) : (layer f g len k i w).length = w.length := by
  induction hw generalizing i with
  | nil => rfl
  | cons hlo hhi _ ih =>
    rw [layer_succ hlo hhi]
    simp only [List.length_append, List.length_zipWith, ih]
    omega

theorem layer_isField (hf : ∀ i x y, IsField x → IsField y → IsField (f i x y))
    (hg : ∀ i x y, IsField x → IsField y → IsField (g i x y)) (hw : Grouped len k w) (h : ∀ a ∈ w, IsField a) :
    ∀ a ∈ layer f g len k i w, IsField a := by
  induction hw generalizing i with
  | nil => exact h
  | cons hlo hhi _ ih =>
    simp only [List.forall_mem_append] at h
    obtain ⟨hfieldLo, hfieldHi, hfieldRest⟩ := h
    rw [layer_succ hlo hhi]
    simp only [List.forall_mem_append]
    exact ⟨forall_mem_zipWith (hf i) hfieldLo hfieldHi, forall_mem_zipWith (hg i) hfieldLo hfieldHi, ih hfieldRest⟩

end Layer

/-! ## The transforms are layers -/

/-- R212: the first result of a butterfly of group i. -/
def ctLow (i : Nat) (x y : Int) : Int := fadd x (fmul (zrom i) y)

/-- R212: the second result of a butterfly of group i. -/
def ctHigh (i : Nat) (x y : Int) : Int := fsub x (fmul (zrom i) y)

/-- R213: the second result of a butterfly of group i, which uses the negation of ZROM[p - i] when the indices of its layer
are counted down from p. -/
def gsHigh (p i : Nat) (x y : Int) : Int := fmul (fneg (zrom (p - i))) (fsub x y)

theorem nttGroups_eq_layer (len k m : Nat) (w : List Int) :
    nttGroups len k m w = layer ctLow ctHigh len k (m + 1) w := by
  induction k generalizing m w with
  | zero => rfl
  | succ k ih => rw [nttGroups, ih]; rfl

theorem inttGroups_eq_layer (len k i p : Nat) (w : List Int) :
    inttGroups len k (p + 1 - i) w = layer (fun _ => fadd) (gsHigh p) len k i w := by
  induction k generalizing i w with
  | zero => rfl
  | succ k ih =>
    rw [inttGroups, show p + 1 - i - 1 = p + 1 - (i + 1) by omega, ih, show p + 1 - (i + 1) = p - i by omega]
    rfl

/-- Layer l of the forward transform: 2^l groups of two blocks of 2^(7-l) entries. -/
def forwardLayer (l : Nat) (w : List Int) : List Int := layer ctLow ctHigh (2 ^ (7 - l)) (2 ^ l) (2 ^ l) w

/-- The layer of the inverse transform that has the groups of the forward transform's layer l. -/
def inverseLayer (l : Nat) (w : List Int) : List Int :=
  layer (fun _ => fadd) (gsHigh (3 * 2 ^ l - 1)) (2 ^ (7 - l)) (2 ^ l) (2 ^ l) w

/-- The layers 0 to l-1 of the forward transform, in this order. -/
def forwardLayers : Nat → List Int → List Int
  | 0, w => w
  | l + 1, w => forwardLayer l (forwardLayers l w)

/-- The layers l-1 to 0 of the inverse transform, in this order. -/
def inverseLayers : Nat → List Int → List Int
  | 0, w => w
  | l + 1, w => inverseLayers l (inverseLayer l w)

theorem nttForward_eq_layers (w : List Int) : nttForward w = forwardLayers 8 w := by
  simp only [nttForward, List.foldl_cons, List.foldl_nil, nttLayer, nttGroups_eq_layer]
  rfl

theorem inttGroups_eq_inverseLayer (l : Nat) (w : List Int) :
    inttGroups (2 ^ (7 - l)) (2 ^ l) (2 ^ (l + 1)) w = inverseLayer l w := by
  rw [inverseLayer, ← inttGroups_eq_layer]
  congr 1
  rw [Nat.pow_succ]
  have := Nat.two_pow_pos l
  omega

theorem nttInverse_eq_layers (w : List Int) : nttInverse w = (inverseLayers 8 w).map (fmul inttScale) := by
  simp only [nttInverse, List.foldl_cons, List.foldl_nil, inttLayer, inverseLayers, ← inttGroups_eq_inverseLayer]
  rfl

theorem grouped_layer {l : Nat} (hl : l < 8) {w : List Int} (hw : w.length = 256) : Grouped (2 ^ (7 - l)) (2 ^ l) w := by
  refine grouped_of_length ?_
  rw [hw, ← Nat.pow_succ', ← Nat.pow_add, show (7 - l).succ + l = 8 by omega]

theorem forwardLayers_length {w : List Int} (hw : w.length = 256) {l : Nat} (hl : l ≤ 8) :
    (forwardLayers l w).length = 256 := by
  induction l with
  | zero => exact hw
  | succ l ih =>
    have hlen := ih (by omega)
    exact (layer_length (grouped_layer (by omega) hlen)).trans hlen

theorem inverseLayers_length {w : List Int} (hw : w.length = 256) {l : Nat} (hl : l ≤ 8) :
    (inverseLayers l w).length = 256 := by
  induction l generalizing w with
  | zero => exact hw
  | succ l ih => exact ih ((layer_length (grouped_layer (by omega) hw)).trans hw) (by omega)

theorem forwardLayers_isField {w : List Int} (hw : IsRq w) {l : Nat} (hl : l ≤ 8) :
    ∀ a ∈ forwardLayers l w, IsField a := by
  obtain ⟨hlen, hfield⟩ := hw
  induction l with
  | zero => exact hfield
  | succ l ih =>
    exact layer_isField (fun _ _ _ hx _ => isField_fadd hx (isField_fmul _ _))
      (fun _ _ _ hx _ => isField_fsub hx (isField_fmul _ _))
      (grouped_layer (by omega) (forwardLayers_length hlen (by omega))) (ih (by omega))

theorem nttForward_length {w : List Int} (hw : w.length = 256) : (nttForward w).length = 256 := by
  rw [nttForward_eq_layers]
  exact forwardLayers_length hw le_rfl

theorem isRq_nttForward {w : List Int} (hw : IsRq w) : IsRq (nttForward w) := by
  refine ⟨nttForward_length hw.1, ?_⟩
  rw [nttForward_eq_layers]
  exact forwardLayers_isField hw le_rfl

theorem isRq_nttInverse {w : List Int} (hw : w.length = 256) : IsRq (nttInverse w) := by
  rw [nttInverse_eq_layers]
  exact isRq_map_fmul (inverseLayers_length hw le_rfl) inttScale

/-- Settles O36: both commands are of the shape `polyUnary`, and the transforms give 256 integers. -/
theorem nttIntt : Obligations.NttIntt :=
  ⟨polyUnaryRule_of_shape (fOp_formR_P2 (by decide)) (fun _ _ _ => rfl) (fun _ _ _ _ => rfl)
      (fun _ => nttForward_length) fun _ _ _ _ => rfl,
    polyUnaryRule_of_shape (fOp_formR_P2 (by decide)) (fun _ _ _ => rfl) (fun _ _ _ _ => rfl)
      (fun _ hxs => (isRq_nttInverse hxs).1) fun _ _ _ _ => rfl⟩

end Sys2Proof.Machine
end

section
/-! The inverse transform undoes the forward transform, layer by layer (spec/43_ntt.md R218.1). -/

namespace Sys2Proof.Machine

/-- Entry by entry, u is s times v modulo q. -/
def ScaledBy (s : Zq) (u v : List Int) : Prop := List.Forall₂ (fun a b : Int => (a : Zq) = s * (b : Zq)) u v

theorem scaledBy_one (w : List Int) : ScaledBy 1 w w := List.forall₂_same.2 fun a _ => (one_mul (a : Zq)).symm

theorem scaledBy_map_fmul (k : Int) (w : List Int) : ScaledBy k (w.map (fmul k)) w :=
  List.forall₂_map_left_iff.2 (List.forall₂_same.2 fun a _ => cast_fmul k a)

theorem ScaledBy.map_fmul {s : Zq} {u v : List Int} (h : ScaledBy s u v) (k : Int) :
    ScaledBy (k * s) (u.map (fmul k)) v :=
  List.forall₂_map_left_iff.2 (h.imp fun a b hab => by rw [cast_fmul, hab, mul_assoc])

theorem ScaledBy.append {s : Zq} {u u' v v' : List Int} (h : ScaledBy s u v) (h' : ScaledBy s u' v') :
    ScaledBy s (u ++ u') (v ++ v') := List.rel_append h h'

theorem ScaledBy.split {s : Zq} {u v v' : List Int} (h : ScaledBy s u (v ++ v')) :
    ∃ w w', u = w ++ w' ∧ ScaledBy s w v ∧ ScaledBy s w' v' :=
  ⟨_, _, (List.take_append_drop _ u).symm, List.forall₂_take_append u v v' h, List.forall₂_drop_append u v v' h⟩

/-- Polynomials of field elements that are the same modulo q are equal. -/
theorem ScaledBy.eq {u v : List Int} (h : ScaledBy 1 u v) (hu : ∀ a ∈ u, IsField a) (hv : ∀ a ∈ v, IsField a) :
    u = v := by
  induction h with
  | nil => rfl
  | cons hab _ ih =>
    rw [List.forall_mem_cons] at hu hv
    rw [one_mul] at hab
    rw [hu.1.eq_of_cast hv.1 hab, ih hu.2 hv.2]

/-- The butterfly (f', g') undoes (f, g), up to a factor 2: modulo q and for scaled arguments. -/
def Undoes (f g f' g' : Int → Int → Int) : Prop :=
  ∀ (s : Zq) (x y a b : Int), (a : Zq) = s * (f x y : Int) → (b : Zq) = s * (g x y : Int) →
    (f' a b : Zq) = 2 * s * x ∧ (g' a b : Zq) = 2 * s * y

theorem Undoes.zipWith {f g f' g' : Int → Int → Int} (h : Undoes f g f' g') {s : Zq} {lo hi u v : List Int}
    (hlen : lo.length = hi.length) (hu : ScaledBy s u (List.zipWith f lo hi))
    (hv : ScaledBy s v (List.zipWith g lo hi)) :
    ScaledBy (2 * s) (List.zipWith f' u v) lo ∧ ScaledBy (2 * s) (List.zipWith g' u v) hi := by
  induction lo generalizing hi u v with
  | nil =>
    cases hi with
    | nil => cases hu; exact ⟨.nil, .nil⟩
    | cons => cases hlen
  | cons x lo ih =>
    cases hi with
    | nil => cases hlen
    | cons y hi =>
      cases hu with
      | cons ha hu =>
        cases hv with
        | cons hb hv =>
          obtain ⟨hx, hy⟩ := h s x y _ _ ha hb
          obtain ⟨hlo, hhi⟩ := ih (Nat.succ.inj hlen) hu hv
          exact ⟨.cons hx hlo, .cons hy hhi⟩

/-- A layer undoes another when its butterflies undo the other's, group by group. -/
theorem layer_undo {f g f' g' : Nat → Int → Int → Int} {len k i : Nat} {w u : List Int} {s : Zq}
    (hw : Grouped len k w) (h : ∀ j, i ≤ j → j < i + k → Undoes (f j) (g j) (f' j) (g' j))
    (hu : ScaledBy s u (layer f g len k i w)) : ScaledBy (2 * s) (layer f' g' len k i u) w := by
  induction hw generalizing i u with
  | nil => cases hu; exact .nil
  | cons hlo hhi _ ih =>
    rw [layer_succ hlo hhi] at hu
    obtain ⟨uLow, u, rfl, hLow, hu⟩ := hu.split
    obtain ⟨uHigh, uRest, rfl, hHigh, hRest⟩ := hu.split
    obtain ⟨hLo, hHi⟩ := (h i le_rfl (by omega)).zipWith (hlo.trans hhi.symm) hLow hHigh
    have hrest := ih (fun j h1 h2 => h j (by omega) (by omega)) hRest
    rw [layer_succ (by simp [hLow.length_eq, hlo, hhi]) (by simp [hHigh.length_eq, hlo, hhi])]
    exact hLo.append (hHi.append hrest)

section Butterflies

variable {i p : Nat} (h : (zrom i : Zq) * zrom (p - i) = -1)
include h

theorem undoes_forward : Undoes (ctLow i) (ctHigh i) fadd (gsHigh p i) := by
  intro s x y a b ha hb
  simp only [ctLow, ctHigh, gsHigh, cast_fadd, cast_fsub, cast_fmul, cast_fneg] at *
  rw [ha, hb]
  constructor
  · ring
  · linear_combination (-2 * s * y) * h

theorem undoes_inverse : Undoes fadd (gsHigh p i) (ctLow i) (ctHigh i) := by
  intro s x y a b ha hb
  simp only [ctLow, ctHigh, gsHigh, cast_fadd, cast_fsub, cast_fmul, cast_fneg] at *
  rw [ha, hb]
  constructor
  · linear_combination (-s * (x - y)) * h
  · linear_combination (s * (x - y)) * h

end Butterflies

theorem inverseLayers_forwardLayers {l : Nat} (hl : l ≤ 8) {s : Zq} {u w : List Int} (hw : w.length = 256)
    (hu : ScaledBy s u (forwardLayers l w)) : ScaledBy (2 ^ l * s) (inverseLayers l u) w := by
  induction l generalizing s u with
  | zero => rwa [pow_zero, one_mul]
  | succ l ih =>
    have hgrouped := grouped_layer (l := l) (by omega) (forwardLayers_length hw (l := l) (by omega))
    have hlayer := layer_undo hgrouped
      (fun i h1 h2 => undoes_forward (zrom_mul_mirror (by omega) h1 h2)) hu
    rw [pow_succ, mul_assoc]
    exact ih (by omega) hlayer

theorem forwardLayers_inverseLayers {l : Nat} (hl : l ≤ 8) {s : Zq} {u w : List Int} (hw : w.length = 256)
    (hu : ScaledBy s u (inverseLayers l w)) : ScaledBy (2 ^ l * s) (forwardLayers l u) w := by
  induction l generalizing w with
  | zero => rwa [pow_zero, one_mul]
  | succ l ih =>
    have hgrouped := grouped_layer (l := l) (by omega) hw
    have hprev := ih (by omega) ((layer_length hgrouped).trans hw) hu
    rw [pow_succ', mul_assoc]
    exact layer_undo hgrouped (fun i h1 h2 => undoes_inverse (zrom_mul_mirror (by omega) h1 h2)) hprev

/-- R6: the scale of the inverse transform undoes the eight factors 2. -/
theorem inttScale_mul : (inttScale : Zq) * 2 ^ 8 = 1 := by
  have h : ((inttScale * 2 ^ 8 : Int) : Zq) = (1 : Int) := cast_eq_of_emod_eq (by decide)
  rwa [Int.cast_mul, Int.cast_pow, Int.cast_one] at h

theorem nttInverse_nttForward {x : List Int} (hx : IsRq x) : nttInverse (nttForward x) = x := by
  have hlayers : ScaledBy 1 (nttForward x) (forwardLayers 8 x) := by
    rw [nttForward_eq_layers]
    exact scaledBy_one _
  have hscaled := (inverseLayers_forwardLayers le_rfl hx.1 hlayers).map_fmul inttScale
  rw [mul_one, inttScale_mul, ← nttInverse_eq_layers] at hscaled
  exact hscaled.eq (isRq_nttInverse (nttForward_length hx.1)).2 hx.2

theorem nttForward_nttInverse {x : List Int} (hx : IsRq x) : nttForward (nttInverse x) = x := by
  have hlayers : ScaledBy inttScale (nttInverse x) (inverseLayers 8 x) := by
    rw [nttInverse_eq_layers]
    exact scaledBy_map_fmul _ _
  have hscaled := forwardLayers_inverseLayers le_rfl hx.1 hlayers
  rw [mul_comm, inttScale_mul, ← nttForward_eq_layers] at hscaled
  exact hscaled.eq (isRq_nttForward (isRq_nttInverse hx.1)).2 hx.2

/-- Settles O47: every layer of one transform undoes the layer of the other that has the same groups, up to a factor 2,
and the scale undoes these factors. -/
theorem nttRoundTrip : Obligations.NttRoundTrip := fun _ hx => ⟨nttInverse_nttForward hx, nttForward_nttInverse hx⟩

end Sys2Proof.Machine
end

section
/-! The forward transform evaluates the polynomial at the roots of X^256 + 1 (spec/43_ntt.md R212), and what follows for
sums and products (R218.2, R218.3). -/

namespace Sys2Proof.Machine

/-! ## The value of a polynomial -/

/-- The value at ω of the polynomial with these coefficients, modulo q. -/
def evalAt (ω : Zq) : List Int → Zq
  | [] => 0
  | a :: w => a + ω * evalAt ω w

theorem evalAt_append (ω : Zq) (u v : List Int) : evalAt ω (u ++ v) = evalAt ω u + ω ^ u.length * evalAt ω v := by
  induction u with
  | nil => simp [evalAt]
  | cons a u ih =>
    simp only [List.cons_append, evalAt, ih, List.length_cons]
    ring

/-- Combining coefficients linearly combines the values so. -/
theorem evalAt_zipWith {h : Int → Int → Int} {s t : Zq} (hh : ∀ a b : Int, (h a b : Zq) = s * a + t * b) (ω : Zq)
    {u v : List Int} (hlen : u.length = v.length) :
    evalAt ω (List.zipWith h u v) = s * evalAt ω u + t * evalAt ω v := by
  induction u generalizing v with
  | nil =>
    cases v with
    | nil => simp [evalAt]
    | cons => cases hlen
  | cons a u ih =>
    cases v with
    | nil => cases hlen
    | cons b v =>
      simp only [List.zipWith_cons_cons, evalAt, hh, ih (Nat.succ.inj hlen)]
      ring

theorem evalAt_map_fmul (k : Int) (ω : Zq) (w : List Int) : evalAt ω (w.map (fmul k)) = k * evalAt ω w := by
  induction w with
  | nil => simp [evalAt]
  | cons a w ih =>
    simp only [List.map_cons, evalAt, cast_fmul, ih]
    ring

theorem evalAt_eq_sum (ω : Zq) (w : List Int) :
    evalAt ω w = ∑ c ∈ Finset.range w.length, (w.getD c 0 : Zq) * ω ^ c := by
  induction w with
  | nil => rfl
  | cons a w ih =>
    rw [List.length_cons, Finset.sum_range_succ', evalAt, ih, Finset.mul_sum]
    simp only [List.getD_cons_succ, List.getD_cons_zero, pow_zero, mul_one]
    rw [add_comm]
    congr 1
    exact Finset.sum_congr rfl fun c _ => by ring

/-! ## What the layers keep -/

/-- The blocks of L entries, k of them from node i on, evaluate to f at the roots of their nodes: a block at node i stands
for a polynomial modulo X^L - root i, the remainder of one with the values f. -/
inductive EvaluatesTo (f : Zq → Zq) (L : Nat) : Nat → Nat → List Int → Prop
  | nil {i : Nat} : EvaluatesTo f L 0 i []
  | cons {k i : Nat} {u v : List Int} : u.length = L → (∀ ω, ω ^ L = root i → evalAt ω u = f ω) →
      EvaluatesTo f L k (i + 1) v → EvaluatesTo f L (k + 1) i (u ++ v)

section Butterfly

variable {i len : Nat} (hi : i < 256) {lo up : List Int} (hlo : lo.length = len) (hup : up.length = len) {ω : Zq}
include hi hlo hup

/-- Where ω^len is the twiddle, the first results of a group evaluate as the whole group did. -/
theorem evalAt_ctLow (hω : ω ^ len = root (2 * i)) :
    evalAt ω (List.zipWith (ctLow i) lo up) = evalAt ω (lo ++ up) := by
  rw [evalAt_append, hlo, hω, root_even hi, evalAt_zipWith (s := 1) (t := zrom i) _ ω (hlo.trans hup.symm), one_mul]
  intro a b
  rw [ctLow, cast_fadd, cast_fmul, one_mul]

/-- Where ω^len is the twiddle's negation, the second results of a group evaluate as the whole group did. -/
theorem evalAt_ctHigh (hω : ω ^ len = root (2 * i + 1)) :
    evalAt ω (List.zipWith (ctHigh i) lo up) = evalAt ω (lo ++ up) := by
  rw [evalAt_append, hlo, hω, root_odd hi, evalAt_zipWith (s := 1) (t := -zrom i) _ ω (hlo.trans hup.symm), one_mul]
  intro a b
  rw [ctHigh, cast_fsub, cast_fmul, one_mul, neg_mul, sub_eq_add_neg]

end Butterfly

/-- A layer splits every block in two, at the children of its node. -/
theorem EvaluatesTo.split {f : Zq → Zq} {len k i : Nat} {w : List Int} (h : EvaluatesTo f (2 * len) k i w)
    (hik : i + k ≤ 256) : EvaluatesTo f len (2 * k) (2 * i) (layer ctLow ctHigh len k i w) := by
  generalize hL : 2 * len = L at h
  induction h with
  | nil => exact .nil
  | @cons k i u v hlen heval _ ih =>
    subst hL
    have hi : i < 256 := by omega
    have hlo : (u.take len).length = len := by simp; omega
    have hup : (u.drop len).length = len := by simp; omega
    rw [← List.take_append_drop len u] at heval ⊢
    rw [List.append_assoc, layer_succ hlo hup]
    have hsq (ω z : Zq) (hz : ω ^ len = z) (hz2 : z ^ 2 = root i) : ω ^ (2 * len) = root i := by
      rw [Nat.mul_comm, pow_mul, hz, hz2]
    refine .cons (by simp [hlo, hup]) (fun ω hω => ?_) (.cons (by simp [hlo, hup]) (fun ω hω => ?_) (ih (by omega)))
    · rw [evalAt_ctLow hi hlo hup hω]
      exact heval ω (hsq ω _ (hω.trans (root_even hi)) (zrom_sq hi))
    · rw [evalAt_ctHigh hi hlo hup hω]
      exact heval ω (hsq ω _ (hω.trans (root_odd hi)) (by rw [neg_sq, zrom_sq hi]))

theorem evaluatesTo_forwardLayers {x : List Int} (hx : x.length = 256) {l : Nat} (hl : l ≤ 8) :
    EvaluatesTo (evalAt · x) (2 ^ (8 - l)) (2 ^ l) (2 ^ l) (forwardLayers l x) := by
  induction l with
  | zero =>
    have h : EvaluatesTo (evalAt · x) 256 1 1 (x ++ []) := .cons hx (fun _ _ => rfl) .nil
    rwa [List.append_nil] at h
  | succ l ih =>
    have hpow : 2 ^ l ≤ 2 ^ 7 := Nat.pow_le_pow_right (by decide) (by omega)
    have h := ih (by omega)
    rw [show 8 - l = 7 - l + 1 by omega, Nat.pow_succ'] at h
    rw [show 8 - (l + 1) = 7 - l by omega, Nat.pow_succ']
    exact h.split (by omega)

/-- A block of one entry is the value. -/
theorem EvaluatesTo.getD {f : Zq → Zq} {k i : Nat} {w : List Int} (h : EvaluatesTo f 1 k i w) {j : Nat} (hj : j < k) :
    (w.getD j 0 : Zq) = f (root (i + j)) := by
  generalize hL : 1 = L at h
  induction h generalizing j with
  | nil => cases hj
  | @cons k i u v hlen heval _ ih =>
    subst hL
    obtain ⟨a, rfl⟩ := List.length_eq_one_iff.1 hlen
    cases j with
    | zero =>
      rw [Nat.add_zero, ← heval (root i) (pow_one _)]
      simp [evalAt]
    | succ j =>
      rw [show i + (j + 1) = i + 1 + j by omega]
      exact ih (Nat.lt_of_succ_lt_succ hj)

/-- Coefficient j of the transform is the value of the polynomial at leaf j. -/
theorem nttForward_getD {x : List Int} (hx : x.length = 256) {j : Nat} (hj : j < 256) :
    ((nttForward x).getD j 0 : Zq) = evalAt (root (256 + j)) x := by
  rw [nttForward_eq_layers]
  exact (evaluatesTo_forwardLayers hx le_rfl).getD hj

/-- A polynomial of field elements is the transform of x when its coefficients are the values of x. -/
theorem nttForward_eq_of_eval {x y : List Int} (hx : IsRq x) (hy : IsRq y)
    (h : ∀ j, j < 256 → evalAt (root (256 + j)) x = (y.getD j 0 : Int)) : nttForward x = y :=
  (isRq_nttForward hx).ext hy fun j hj => (nttForward_getD hx.1 hj).trans (h j hj)

theorem cast_sum_range (n : Nat) (f : Nat → Int) :
    ((((List.range n).map f).sum : Int) : Zq) = ∑ c ∈ Finset.range n, (f c : Zq) :=
  Int.cast_sum (Finset.range n) f

/-- Settles O46: a layer splits each polynomial modulo X^(2·len) - z² into its remainders modulo X^len - z and
X^len + z, and after the last layer a remainder is the value at a root of X^256 + 1. -/
theorem nttClosedForm : Obligations.NttClosedForm := by
  unfold Obligations.NttClosedForm
  intro x hx
  refine ⟨isRq_nttForward hx, fun j hj => ((isRq_nttForward hx).isField_getD hj).eq_emod ?_⟩
  rw [nttForward_getD hx.1 hj, evalAt_eq_sum, hx.1, root_leaf hj, cast_sum_range]
  refine Finset.sum_congr rfl fun c _ => ?_
  push_cast
  rw [pow_mul]

/-- Settles O49: the value of a polynomial at a root is linear in its coefficients. -/
theorem nttIsLinear : Obligations.NttIsLinear := by
  unfold Obligations.NttIsLinear
  intro x y k hx hy _ _
  have hX := isRq_nttForward hx
  have hY := isRq_nttForward hy
  constructor
  · refine nttForward_eq_of_eval (hx.zipWith (fun _ _ => isField_fadd) hy) (hX.zipWith (fun _ _ => isField_fadd) hY)
      fun j hj => ?_
    rw [getD_zipWith (hX.1 ▸ hj) (hY.1 ▸ hj), cast_fadd, nttForward_getD hx.1 hj, nttForward_getD hy.1 hj,
      evalAt_zipWith (s := 1) (t := 1) (fun a b => by rw [cast_fadd, one_mul, one_mul]) _ (hx.1.trans hy.1.symm),
      one_mul, one_mul]
  · refine nttForward_eq_of_eval (isRq_map_fmul hx.1 k) (isRq_map_fmul hX.1 k) fun j hj => ?_
    rw [getD_map_of_lt (hX.1 ▸ hj), cast_fmul, nttForward_getD hx.1 hj, evalAt_map_fmul]

/-! ## The negacyclic product -/

/-- One coefficient of x times the polynomial y: multiplying by ω^i rotates y, and what passes the end is negated. -/
theorem sum_rotated (y : Nat → Zq) {ω : Zq} (hω : ω ^ 256 = -1) {i : Nat} (hi : i < 256) :
    ∑ c ∈ Finset.range 256, (if i ≤ c then y (c - i) else -y (256 + c - i)) * ω ^ c =
      ω ^ i * ∑ c ∈ Finset.range 256, y c * ω ^ c := by
  obtain ⟨m, hm⟩ : ∃ m, 256 = i + m := ⟨256 - i, by omega⟩
  have hlow : ∑ c ∈ Finset.range i, (if i ≤ c then y (c - i) else -y (256 + c - i)) * ω ^ c =
      ω ^ i * ∑ c ∈ Finset.range i, y (m + c) * ω ^ (m + c) := by
    rw [Finset.mul_sum]
    refine Finset.sum_congr rfl fun c hc => ?_
    have hci : c < i := Finset.mem_range.1 hc
    rw [if_neg (by omega), show 256 + c - i = m + c by omega, mul_left_comm, ← pow_add,
      show i + (m + c) = 256 + c by omega, pow_add, hω]
    ring
  have hupgh : ∑ c ∈ Finset.range m, (if i ≤ i + c then y (i + c - i) else -y (256 + (i + c) - i)) * ω ^ (i + c) =
      ω ^ i * ∑ c ∈ Finset.range m, y c * ω ^ c := by
    rw [Finset.mul_sum]
    refine Finset.sum_congr rfl fun c _ => ?_
    rw [if_pos (by omega), Nat.add_sub_cancel_left, pow_add]
    ring
  calc _ = ∑ c ∈ Finset.range (i + m), (if i ≤ c then y (c - i) else -y (256 + c - i)) * ω ^ c := by rw [← hm]
    _ = ω ^ i * ∑ c ∈ Finset.range (m + i), y c * ω ^ c := by
      rw [Finset.sum_range_add, hlow, hupgh, Finset.sum_range_add, mul_add, add_comm]
    _ = _ := by rw [Nat.add_comm m i, ← hm]

/-- The negacyclic product as a polynomial of field elements. -/
def negacyclicRq (x y : List Int) : List Int := (List.range 256).map fun c => negacyclic x y c % q

theorem isRq_negacyclicRq (x y : List Int) : IsRq (negacyclicRq x y) := isRq_map_range fun _ => isField_emod _

theorem negacyclicRq_getD (x y : List Int) {c : Nat} (hc : c < 256) :
    (negacyclicRq x y).getD c 0 = negacyclic x y c % q := by simp [negacyclicRq, hc]

theorem cast_negacyclic (x y : List Int) (c : Nat) :
    (negacyclic x y c : Zq) = ∑ i ∈ Finset.range 256,
      (x.getD i 0 : Zq) * (if i ≤ c then (y.getD (c - i) 0 : Zq) else -(y.getD (256 + c - i) 0 : Zq)) := by
  rw [negacyclic, cast_sum_range]
  refine Finset.sum_congr rfl fun i _ => ?_
  split <;> push_cast <;> ring

/-- At a root of X^256 + 1 the negacyclic product has the product of the values. -/
theorem evalAt_negacyclicRq {x y : List Int} (hx : IsRq x) (hy : IsRq y) {ω : Zq} (hω : ω ^ 256 = -1) :
    evalAt ω (negacyclicRq x y) = evalAt ω x * evalAt ω y := by
  rw [evalAt_eq_sum, (isRq_negacyclicRq x y).1, evalAt_eq_sum ω x, hx.1, evalAt_eq_sum ω y, hy.1, Finset.sum_mul]
  calc
    _ = ∑ c ∈ Finset.range 256, ∑ i ∈ Finset.range 256, (x.getD i 0 : Zq) *
        ((if i ≤ c then (y.getD (c - i) 0 : Zq) else -(y.getD (256 + c - i) 0 : Zq)) * ω ^ c) := by
      refine Finset.sum_congr rfl fun c hc => ?_
      rw [negacyclicRq_getD x y (Finset.mem_range.1 hc), cast_emod_q, cast_negacyclic, Finset.sum_mul]
      exact Finset.sum_congr rfl fun i _ => mul_assoc _ _ _
    _ = _ := by
      rw [Finset.sum_comm]
      refine Finset.sum_congr rfl fun i hi => ?_
      rw [← Finset.mul_sum, sum_rotated (fun c => (y.getD c 0 : Zq)) hω (Finset.mem_range.1 hi), mul_assoc]

theorem nttForward_negacyclicRq {x y : List Int} (hx : IsRq x) (hy : IsRq y) :
    nttForward (negacyclicRq x y) = List.zipWith fmul (nttForward x) (nttForward y) := by
  have hX := isRq_nttForward hx
  have hY := isRq_nttForward hy
  refine nttForward_eq_of_eval (isRq_negacyclicRq x y) (hX.zipWith (fun a b _ _ => isField_fmul a b) hY) fun j hj => ?_
  rw [evalAt_negacyclicRq hx hy (root_leaf_pow_256 hj), getD_zipWith (hX.1 ▸ hj) (hY.1 ▸ hj), cast_fmul,
    nttForward_getD hx.1 hj, nttForward_getD hy.1 hj]

/-- Settles O48: the pointwise product is the transform of the negacyclic product, which the inverse transform gives back. -/
theorem nttTurnsProductsIntoPointwiseProducts : Obligations.NttTurnsProductsIntoPointwiseProducts := by
  unfold Obligations.NttTurnsProductsIntoPointwiseProducts
  intro x y hx hy c hc
  rw [← nttForward_negacyclicRq hx hy, nttInverse_nttForward (isRq_negacyclicRq x y), negacyclicRq_getD x y hc]

end Sys2Proof.Machine
end

section
/-! The vector rounding and hint commands (spec/44_poly_rounding_hint.md R240 to R245): the shape with two destination
vectors meets its rule, and each command is one of the shapes. -/

namespace Sys2Proof.Machine

/-! ## One element with two destinations -/

section PairElement

variable {t : OpType} {f : Int → Int × Int} {d a b e : Nat} {m : Mem}

/-- An element of the shape `polyPair` that reads legal words. -/
theorem pairBody_legal {x : Nat → Nat → Int} (h : PolyHolds t m (a + e) (x e)) (n : Nat) :
    pairBody t f d a b e m n =
      .ok (Mem.setPoly (Mem.setPoly m (d + e) (polyOf ((elementList x e).map fun x => (f x).1))) (b + e)
        (polyOf ((elementList x e).map fun x => (f x).2))) n := by
  rw [pairBody, h.readPoly, Fetched.bind_ok]

theorem pairBody_illegal {c : Nat} (hc : c < 256) (h : FirstIllegalWord t m (a + e) c) (n : Nat) :
    pairBody t f d a b e m n = .bad ⟨.pmem, a + e, c⟩ n := by
  rw [pairBody, readPoly_illegal hc h, Fetched.bind_bad]

end PairElement

theorem wordsAre_map (h : Int → Int) (x : Nat → Nat → Int) (e : Nat) :
    WordsAre (polyOf ((elementList x e).map h)) fun c => wordOf (h (x e c)) := by
  refine wordsAre_polyOf (by rw [List.length_map, elementList_length]) fun c hc => ?_
  rw [getD_map_of_lt (by rw [elementList_length]; exact hc), elementList_getD x e hc]

/-- Writing two different registers at once is writing the first and then the second. -/
theorem WritesVectors.after_first {m m' : Mem} {i j : Nat} {y₁ y₂ : Nat → Word} {vs : List Slot}
    (h : WritesVectors m m' i j 1 (fun _ => y₁) fun _ => y₂) (hij : i ≠ j) (hvs : WordsAre vs y₁) :
    WritesVector (Mem.setPoly m i vs) m' j 1 fun _ => y₂ := by
  intro r c hc
  rw [h r c hc, writesVector_setPoly hvs m i r c hc]
  by_cases hi : r = i
  · rw [if_pos (by omega), if_neg (by omega), if_pos (by omega)]
  · have hother : ¬ (i ≤ r ∧ r < i + 1) := by omega
    rw [if_neg hother, if_neg hother]

/-- An element that writes two registers leads to a memory that reads as the next given one. -/
theorem Tracks.setPoly_setPoly {m₀ m₁ m₂ m : Mem} {i j : Nat} {y₁ y₂ : Nat → Word} {vs us : List Slot}
    (h : Tracks m₀ m₁ m) (hwrites : WritesVectors m₁ m₂ i j 1 (fun _ => y₁) fun _ => y₂) (hij : i ≠ j)
    (hvs : WordsAre vs y₁) (hus : WordsAre us y₂) : Tracks m₀ m₂ (Mem.setPoly (Mem.setPoly m i vs) j us) :=
  (h.setPoly (writesVector_setPoly hvs m₁ i) hvs).setPoly (hwrites.after_first hij hvs) hus

/-- Element e of one vector is not element e of another one that it does not intersect. -/
theorem add_ne_add_of_vectorsDisjoint {d b : PReg} {v : VLen} (h : vectorsDisjoint d b v = true) (e : Nat) :
    d.val + e ≠ b.val + e := by
  have := vectorsDisjoint_iff.1 h
  omega

/-! ## The end of a command with two destination vectors -/

theorem clobber_append (xs ys : List Dest) (s : State) : clobber (xs ++ ys) s = clobber ys (clobber xs s) :=
  List.foldl_append

/-- Both destination vectors are ⊥ when the command reads an illegal word. -/
theorem exec_of_bad_pair {i : Instr} {s : State} {d b : PReg} {v : VLen} {l : Loc}
    (hd : destsOf i = vectorDests d v ++ vectorDests b v) (h : exec i s = conclude i s (.bad l s.draws)) :
    ∃ m : Mem, ClearsVectors s.pmem m d b v.vl ∧ (s.pmem.wf = true → m.wf = true) ∧
      exec i s = .next (faultedWith s (encode i) .operandRange (errlocWord (some l)) s.sreg m s.draws) := by
  refine ⟨(clobber (destsOf i) s).pmem, fun j c hc => ?_, clobber_wf _ s, ?_⟩
  · rw [clobber_pmem _ s j c hc, hd]
    simp only [List.mem_append, mem_vectorDests]
  · rw [h, conclude, finish_bad, hd, clobber_append, clobber_vectorDests_sreg, clobber_vectorDests_sreg]

/-! ## The shape meets the rule -/

/-- A command of the shape `polyPair` over field elements meets the rule of `OP.vN pD, pB, pA`. -/
theorem polyPairRule_of_shape {mk : PReg → PReg → PReg → VLen → Instr} {op : Nat} {f : Int → Int × Int}
    (hop : ∀ d a b v, fOp (encode (mk d a b v)) = op)
    (hd : ∀ d a b v, destsOf (mk d a b v) = vectorDests d v ++ vectorDests b v)
    (hexec : ∀ s d a b v, exec (mk d a b v) s = polyPair (mk d a b v) .F f d a b v s) : PolyPairRule mk op f := by
  refine ⟨hop, fun s d a b v ms x n hdisjoint _ hstart hsteps => ?_⟩
  have hcommand := (hexec s d a b v).trans (polyPair_eq_loop _ .F f d a b v s)
  obtain ⟨m, hloop, hsame, hwf⟩ : ∃ m, overElements (pairBody .F f d a b) n 0 s.pmem s.draws = .ok m s.draws ∧
      Tracks s.pmem (ms (0 + n)) m := by
    refine overElements_follow (P := fun e => Tracks s.pmem (ms e)) (fun e m _ he htracks => ?_)
      ⟨fun j c _ => by rw [hstart], id⟩
    obtain ⟨hx, hwrites⟩ := hsteps e (by omega)
    exact ⟨_, pairBody_legal (hx.of_sameWords (htracks.1 _)) _,
      htracks.setPoly_setPoly hwrites (add_ne_add_of_vectorsDisjoint hdisjoint e) (wordsAre_map _ x e)
        (wordsAre_map _ x e)⟩
  rw [Nat.zero_add] at hsame
  refine ⟨fun hn => ⟨m, hsame, hwf, ?_⟩, fun c hn hc hill => ?_⟩
  · rw [hcommand, conclude_vectorLoop (hn ▸ hloop)]
  · have hbad : pairBody .F f d a b (0 + n) m s.draws = .bad ⟨.pmem, a + n, c⟩ s.draws := by
      rw [Nat.zero_add]
      exact pairBody_illegal hc (hill.of_sameWords hc (hsame _)) _
    rw [← errlocWord_pmem]
    exact exec_of_bad_pair (hd d a b v) (by rw [hcommand, vectorLoop_bad (overElements_ends hn hloop hbad)])

/-! ## The commands -/

/-- Settles O33: both commands are of the shape `polyUnary`, over the two parts of Decompose. -/
theorem phighPlow : Obligations.PhighPlow := by
  unfold Obligations.PhighPlow
  refine fun g => ⟨?phigh, ?plow⟩
  case phigh =>
    exact polyUnaryRule_of_map (fun d a v => fOp_formR_P3CG (by decide) d a 0 v .each g) (fun _ _ _ => rfl)
      (fun _ _ _ _ => rfl) fun _ _ _ _ _ => rfl
  case plow =>
    exact polyUnaryRule_of_map (fun d a v => fOp_formR_P3CG (by decide) d a 0 v .each g) (fun _ _ _ => rfl)
      (fun _ _ _ _ => rfl) fun _ _ _ _ _ => rfl

/-- Settles O34: both commands are of the shape `polyPair`. -/
theorem pp2rPdecomp : Obligations.Pp2rPdecomp := by
  unfold Obligations.Pp2rPdecomp
  refine ⟨?pp2r, fun g => ?pdecomp⟩
  case pp2r =>
    exact polyPairRule_of_shape (fun d a b v => fOp_formR_P3C (by decide) d a b v .each) (fun _ _ _ _ => rfl)
      fun _ _ _ _ _ => rfl
  case pdecomp =>
    exact polyPairRule_of_shape (fun d a b v => fOp_formR_P3CG (by decide) d a b v .each g) (fun _ _ _ _ => rfl)
      fun _ _ _ _ _ => rfl

/-- Settles O35: both commands are of the shape `polyBinary`, PUSEHINT with hint bits as its first source. -/
theorem pmkhintPusehint : Obligations.PmkhintPusehint := by
  unfold Obligations.PmkhintPusehint
  refine fun g => ⟨?pmkhint, ?pusehint⟩
  case pmkhint =>
    exact polyBinaryRule_of_shape (fun d a b v k => fOp_formR_P3CG (by decide) d a b v k g) (fun _ _ _ _ _ => rfl)
      fun _ _ _ _ _ _ => rfl
  case pusehint =>
    exact polyBinaryRule_of_shape (fun d a b v k => fOp_formR_P3CG (by decide) d a b v k g) (fun _ _ _ _ _ => rfl)
      fun _ _ _ _ _ _ => rfl

end Sys2Proof.Machine
end

section
/-! How the complete step of every command ends (spec/60_exceptions.md R261 to R265): the frame of a command, with the
count of drawn free values, which never falls (log 1). -/

namespace Sys2Proof.Machine

/-! ## The count of drawn free values -/

/-- The count of free values drawn when a read has ended, with a value or at an illegal word. -/
def Fetched.draws {α : Type} : Fetched α → Nat
  | .ok _ n => n
  | .bad _ n => n

/-- A read that may draw free values and takes none back, whatever the count it starts from. -/
def Draws {α : Type} (f : Nat → Fetched α) : Prop := ∀ n, n ≤ (f n).draws

theorem draws_ok {α : Type} (x : α) : Draws fun n => .ok x n := fun _ => Nat.le_refl _

theorem Draws.bind {α β : Type} {f : Nat → Fetched α} {g : α → Nat → Fetched β} (hf : Draws f)
    (hg : ∀ x, Draws (g x)) : Draws fun n => (f n).bind g := by
  intro n
  have hn := hf n
  dsimp only
  cases hr : f n with
  | ok x k => rw [hr] at hn; exact hn.trans (hg x k)
  | bad l k => rw [hr] at hn; exact hn

theorem le_look (v : Slot) (n : Nat) : n ≤ (look v n).2 := by
  cases v with
  | bot => exact Nat.le_succ n
  | val w => exact Nat.le_refl n

theorem draws_readTyped (t : OpType) (l : Loc) (v : Slot) : Draws (readTyped t l v) := by
  intro n
  cases h : t.legal (look v n).1 with
  | true => rw [readTyped_legal l h]; exact le_look v n
  | false => rw [readTyped_illegal l h]; exact le_look v n

theorem draws_readWords (t : OpType) (i : Nat) (vs : List Slot) (c : Nat) : Draws (readWords t i vs c) := by
  induction vs generalizing c with
  | nil => exact draws_ok []
  | cons v vs ih => exact (draws_readTyped t _ v).bind fun x => (ih (c + 1)).bind fun xs => draws_ok (x :: xs)

theorem draws_readS (s : State) (a : SReg) (t : OpType) : Draws (readS s a t) := draws_readTyped t _ _

theorem draws_readPoly (m : Mem) (i : Nat) (t : OpType) : Draws (readPoly m i t) := draws_readWords t i _ 0

theorem draws_overElements {α : Type} {body : Nat → α → Nat → Fetched α} (h : ∀ e x, Draws (body e x)) (k i : Nat)
    (x : α) : Draws (overElements body k i x) := by
  induction k generalizing i x with
  | zero => exact draws_ok x
  | succ k ih => exact (h i x).bind fun y => ih (i + 1) y

/-! ## The shapes of the commands -/

/-- The outcome is the end of command i's complete step, of a read that starts at the state's count. -/
def EndsAfterDraws (i : Instr) (s : State) (o : Host.Outcome State Fault Refusal) : Prop :=
  ∃ f, Draws f ∧ o = conclude i s (f s.draws)

section Shapes

variable {i : Instr} {s : State} {d a b : SReg} {D A B : PReg} {v : VLen} {t u : OpType}

theorem endsAfterDraws_unary {f : Int → Int} : EndsAfterDraws i s (scalarUnary i t f d a s) :=
  ⟨_, (draws_readS s a t).bind fun _ => draws_ok _, rfl⟩

theorem endsAfterDraws_binary {f : Int → Int → Int} : EndsAfterDraws i s (scalarBinary i t u f d a b s) :=
  ⟨_, (draws_readS s a t).bind fun _ => (draws_readS s b u).bind fun _ => draws_ok _, rfl⟩

theorem endsAfterDraws_pair {f : Int → Int × Int} : EndsAfterDraws i s (scalarPair i t f d a b s) :=
  ⟨_, (draws_readS s a t).bind fun _ => draws_ok _, rfl⟩

theorem endsAfterDraws_const {x : Int} : EndsAfterDraws i s (scalarConst i x d s) := ⟨_, draws_ok _, rfl⟩

theorem endsAfterDraws_loop {body : Nat → Mem → Nat → Fetched Mem} {k : Nat} (h : ∀ e m, Draws (body e m)) :
    EndsAfterDraws i s (conclude i s (vectorLoop body k s)) :=
  ⟨_, (draws_overElements h k 0 s.pmem).bind fun _ => draws_ok _, rfl⟩

theorem endsAfterDraws_polyUnary {f : List Int → List Int} : EndsAfterDraws i s (polyUnary i t f D A v s) :=
  endsAfterDraws_loop fun _ _ => (draws_readPoly _ _ _).bind fun _ => draws_ok _

theorem endsAfterDraws_polyBinary {f : Int → Int → Int} {c : Bcast} :
    EndsAfterDraws i s (polyBinary i t u f D A B v c s) :=
  endsAfterDraws_loop fun _ _ => (draws_readPoly _ _ _).bind fun _ => (draws_readPoly _ _ _).bind fun _ => draws_ok _

theorem endsAfterDraws_polyPair {f : Int → Int × Int} : EndsAfterDraws i s (polyPair i t f D A B v s) :=
  endsAfterDraws_loop fun _ _ => (draws_readPoly _ _ _).bind fun _ => draws_ok _

theorem endsAfterDraws_polyReduce {g : Int → Int → Int} : EndsAfterDraws i s (polyReduce i t g d A v s) :=
  ⟨_, (draws_overElements (fun _ _ => (draws_readPoly _ _ _).bind fun _ => draws_ok _) v.vl 0 0).bind
    fun _ => draws_ok _, rfl⟩

theorem endsAfterDraws_psmul : EndsAfterDraws (.psmul D A b v) s (execPsmul D A b v s) :=
  ⟨_, (draws_readS s b .F).bind fun _ =>
    (draws_overElements (fun _ _ => (draws_readPoly _ _ _).bind fun _ => draws_ok _) v.vl 0 s.pmem).bind
      fun _ => draws_ok _, rfl⟩

theorem endsAfterDraws_pdot {c : Bcast} : EndsAfterDraws (.pdot D A B v c) s (execPdot D A B v c s) :=
  ⟨_, (draws_overElements (fun _ _ => (draws_readPoly _ _ _).bind fun _ => (draws_readPoly _ _ _).bind
    fun _ => draws_ok _) v.vl 0 _).bind fun _ => draws_ok _, rfl⟩

end Shapes

theorem endsAfterDraws_exec (i : Instr) (s : State) : EndsAfterDraws i s (exec i s) := by
  cases i
  case nop => exact ⟨_, draws_ok s, rfl⟩
  case psmul => exact endsAfterDraws_psmul
  case pdot => exact endsAfterDraws_pdot
  case li | zeta => exact endsAfterDraws_const
  case neg | red | tosym | fromsym | norm | mov | high | low => exact endsAfterDraws_unary
  case add | sub | mul | mkhint | usehint => exact endsAfterDraws_binary
  case p2r | decomp => exact endsAfterDraws_pair
  case pneg | pmov | ptosym | pfromsym | pred | ntt | intt | phigh | plow => exact endsAfterDraws_polyUnary
  case padd | psub | pmul | pmkhint | pusehint => exact endsAfterDraws_polyBinary
  case pp2r | pdecomp => exact endsAfterDraws_polyPair
  case pnorm | pnormz | pwgt => exact endsAfterDraws_polyReduce

theorem finish_draws (i : Instr) (s : State) (r : Fetched State) : (finish i s r).draws = r.draws := by
  cases r with
  | ok t n => rfl
  | bad l n => rw [finish_bad]; rfl

/-- No command takes back a free value that has been drawn. -/
theorem draws_le_of_exec {i : Instr} {s : State} {r : Fetched State} (h : exec i s = .next (finish i s r)) :
    s.draws ≤ r.draws := by
  obtain ⟨f, hf, hexec⟩ := endsAfterDraws_exec i s
  have hfinish : finish i s r = finish i s (f s.draws) := Host.Outcome.next.inj (h.symm.trans hexec)
  rw [← finish_draws i s r, hfinish, finish_draws]
  exact hf s.draws

/-! ## The frame -/

/-- The fields of ERRLOC that a failing word of the command gives (R265). -/
theorem BadLoc.fields {i : Instr} {l : Loc} (h : BadLoc i l) :
    l.file.bit = 0 ∧ l.coef = 0 ∧ (∃ x ∈ scalarSources i, l.reg = x.1.val) ∨
      l.file.bit = 1 ∧ l.coef < 256 ∧ ∃ x ∈ vectorSources i, x.1.val ≤ l.reg ∧ l.reg < x.1.val + x.2 :=
  h.imp (fun ⟨hfile, hrest⟩ => ⟨congrArg RegFile.bit hfile, hrest⟩)
    fun ⟨hfile, hrest⟩ => ⟨congrArg RegFile.bit hfile, hrest⟩

theorem completeStep_illegal {w : Word} {e : Reject} {s : State} (h : decodeWord s.cfg.npoly w = .error e) :
    completeStep w s = .next (takeIllegal w s) := by
  rw [completeStep, h]

/-- Settles O20: a command ends in `finish`, with what it read (`exec_shape`) or at a failing word of a source; a word
that is no command ends in `takeIllegal`. -/
theorem commandFrame : Obligations.CommandFrame := by
  unfold Obligations.CommandFrame
  refine ⟨fun i s => ?_, fun w e s h => by rw [completeStep_illegal h, takeIllegal_eq]⟩
  obtain ⟨r, hexec, hshape⟩ := exec_shape i s
  have hdraws := draws_le_of_exec hexec
  cases r with
  | ok t n =>
    obtain ⟨-, hsreg, hmem⟩ := hshape.ok t n rfl
    rw [finish_ok hshape rfl] at hexec
    exact .inl ⟨_, _, n, hsreg, hmem.kept, hdraws, hexec⟩
  | bad l n =>
    rw [finish_bad] at hexec
    exact .inr ⟨_, _, _, _, _, n, (hshape.bad l n rfl).fields, clobber_sreg _ s, clobber_pmem _ s, hdraws, hexec⟩

end Sys2Proof.Machine
end

section
/-! The commands without a typed source complete in every state, whatever their sources hold (spec/60_exceptions.md R262):
a read of type Z gives an integer from every word, ⊥ included (log 1). -/

namespace Sys2Proof.Machine

theorem readTyped_Z (l : Loc) (v : Slot) (n : Nat) : ∃ x n', readTyped .Z l v n = .ok x n' :=
  ⟨_, _, readTyped_legal l rfl⟩

theorem readWords_Z (i : Nat) (vs : List Slot) (c n : Nat) : ∃ xs n', readWords .Z i vs c n = .ok xs n' := by
  induction vs generalizing c n with
  | nil => exact ⟨[], n, rfl⟩
  | cons v vs ih =>
    obtain ⟨x, n₁, hx⟩ := readTyped_Z ⟨.pmem, i, c⟩ v n
    obtain ⟨xs, n₂, hxs⟩ := ih (c + 1) n₁
    exact ⟨x :: xs, n₂, by rw [readWords, hx, Fetched.bind_ok, hxs, Fetched.bind_ok]⟩

theorem readPoly_Z (m : Mem) (i n : Nat) : ∃ xs n', readPoly m i .Z n = .ok xs n' := readWords_Z i _ 0 n

/-- A loop whose elements always give a value gives one. -/
theorem overElements_total {α : Type} {body : Nat → α → Nat → Fetched α}
    (h : ∀ e x n, ∃ y n', body e x n = .ok y n') (k i : Nat) (x : α) (n : Nat) :
    ∃ y n', overElements body k i x n = .ok y n' := by
  induction k generalizing i x n with
  | zero => exact ⟨x, n, rfl⟩
  | succ k ih =>
    obtain ⟨y, n₁, hy⟩ := h i x n
    obtain ⟨z, n₂, hz⟩ := ih (i + 1) y n₁
    exact ⟨z, n₂, by rw [overElements, hy, Fetched.bind_ok, hz]⟩

theorem unaryBody_Z (f : List Int → List Int) (d a e : Nat) (m : Mem) (n : Nat) :
    ∃ m' n', unaryBody .Z f d a e m n = .ok m' n' := by
  obtain ⟨xs, n', h⟩ := readPoly_Z m (a + e) n
  exact ⟨_, n', by rw [unaryBody, h, Fetched.bind_ok]⟩

theorem reduceBody_Z (g : Int → Int → Int) (m : Mem) (a e : Nat) (acc : Int) (n : Nat) :
    ∃ acc' n', reduceBody .Z g m a e acc n = .ok acc' n' := by
  obtain ⟨xs, n', h⟩ := readPoly_Z m (a + e) n
  exact ⟨_, n', by rw [reduceBody, h, Fetched.bind_ok]⟩

/-- The outcome is the completion of a command, with some registers and PMEM left. -/
def Retires (s : State) (o : Host.Outcome State Fault Refusal) : Prop :=
  ∃ sreg m n, o = .next (retiredWith s sreg m n)

theorem retires_polyUnary_Z (i : Instr) (f : List Int → List Int) (d a : PReg) (v : VLen) (s : State) :
    Retires s (polyUnary i .Z f d a v s) := by
  obtain ⟨m, n, hloop⟩ := overElements_total (unaryBody_Z f d a) v.vl 0 s.pmem s.draws
  exact ⟨s.sreg, m, n, conclude_vectorLoop hloop⟩

theorem retires_polyReduce_Z (i : Instr) (g : Int → Int → Int) (d : SReg) (a : PReg) (v : VLen) (s : State) :
    Retires s (polyReduce i .Z g d a v s) := by
  obtain ⟨acc, n, hloop⟩ := overElements_total (reduceBody_Z g s.pmem a) v.vl 0 0 s.draws
  refine ⟨s.sreg.set d (.val (wordOf acc)), s.pmem, n, ?_⟩
  rw [polyReduce_eq_loop, hloop, Fetched.bind_ok, conclude_writeS]

/-- Settles O21, command by command. -/
theorem typeZCommandsAlwaysComplete : Obligations.TypeZCommandsAlwaysComplete := by
  unfold Obligations.TypeZCommandsAlwaysComplete
  intro s d a D A v imm k
  simp only [List.forall_mem_cons]
  refine ⟨?nop, ?mov, ?li, ?zeta, ?pmov, ?pnormz, ?pwgt, List.forall_mem_nil _⟩
  case nop => exact ⟨s.sreg, s.pmem, s.draws, rfl⟩
  case mov => exact ⟨_, _, _, exec_mov rfl d⟩
  case li => exact ⟨_, _, _, exec_li d imm s⟩
  case zeta => exact ⟨_, _, _, exec_zeta d k s⟩
  case pmov => exact retires_polyUnary_Z _ _ D A v s
  case pnormz => exact retires_polyReduce_Z _ _ d A v s
  case pwgt => exact retires_polyReduce_Z _ _ d A v s

end Sys2Proof.Machine
end

section
/-! The scalar commands in every state (spec/60_exceptions.md R268): their sources are read in order, a ⊥ one as the next
free value (log 1), up to the first illegal one. -/

namespace Sys2Proof.Machine

/-! ## Reading the sources -/

section Sources

variable {s : State} {a : SReg} {t : OpType} {n : Nat}

theorem firstIllegalScalar_legal (h : t.legal (look (s.s a) n).1 = true) (rest : List (SReg × OpType)) :
    firstIllegalScalar s ((a, t) :: rest) n = firstIllegalScalar s rest (look (s.s a) n).2 := by
  rw [firstIllegalScalar, if_pos h]

theorem firstIllegalScalar_illegal (h : t.legal (look (s.s a) n).1 = false) (rest : List (SReg × OpType)) :
    firstIllegalScalar s ((a, t) :: rest) n = (some a, (look (s.s a) n).2) := by
  rw [firstIllegalScalar, if_neg (Bool.eq_false_iff.1 h)]

end Sources

/-- The read ends as the check of the sources does: with a state that P describes, or at the first illegal source. -/
def EndsAsChecked (P : State → Prop) : Option SReg × Nat → Fetched State → Prop
  | (none, n), r => ∃ u, P u ∧ r = .ok u n
  | (some a, n), r => r = .bad ⟨.sreg, a.val, 0⟩ n

theorem endsAsChecked_done {P : State → Prop} {u : State} (h : P u) (s : State) (n : Nat) :
    EndsAsChecked P (firstIllegalScalar s [] n) (.ok u n) := ⟨u, h, rfl⟩

theorem endsAsChecked_readS {P : State → Prop} {s : State} {a : SReg} {t : OpType} {rest : List (SReg × OpType)} {n : Nat}
    {f : Int → Nat → Fetched State} (h : ∀ x n, EndsAsChecked P (firstIllegalScalar s rest n) (f x n)) :
    EndsAsChecked P (firstIllegalScalar s ((a, t) :: rest) n) ((readS s a t n).bind f) := by
  cases hlegal : t.legal (look (s.s a) n).1 with
  | true =>
    rw [firstIllegalScalar_legal hlegal, readS_legal rfl hlegal, Fetched.bind_ok]
    exact h _ _
  | false =>
    rw [firstIllegalScalar_illegal hlegal, readS_illegal rfl hlegal, Fetched.bind_bad]
    rfl

/-! ## Writing the destinations -/

/-- The state u is s but for scalar destinations of the command. -/
def WritesScalars (i : Instr) (s u : State) : Prop :=
  ∃ sreg, SregKept (destsOf i) s.sreg sreg ∧ u = { s with sreg := sreg }

theorem WritesScalars.refl (i : Instr) (s : State) : WritesScalars i s s := ⟨s.sreg, fun _ _ => rfl, rfl⟩

theorem WritesScalars.writeS {i : Instr} {s u : State} {d : SReg} (h : WritesScalars i s u) (hd : .s d ∈ destsOf i)
    (x : Int) : WritesScalars i s (u.writeS d x) := by
  obtain ⟨sreg, hkept, rfl⟩ := h
  exact ⟨_, fun r hr => (sregKept_writeS _ _ d x hd r hr).trans (hkept r hr), rfl⟩

/-- Making scalar registers ⊥ leaves PMEM as it is. -/
theorem clobber_scalars_pmem {ds : List Dest} (h : ∀ r, Dest.p r ∉ ds) (s : State) : (clobber ds s).pmem = s.pmem := by
  induction ds generalizing s with
  | nil => rfl
  | cons d ds ih =>
    have hds : ∀ r, Dest.p r ∉ ds := fun r hr => h r (List.mem_cons_of_mem _ hr)
    cases d with
    | s r => exact ih hds (s.setS r .bot)
    | p r => exact absurd List.mem_cons_self (h r)

/-- A command without a polynomial field has no polynomial destination. -/
theorem scalar_dests {i : Instr} (h : i.vectors = []) (r : Nat) : Dest.p r ∉ destsOf i := by
  cases i <;> simp [Instr.vectors, destsOf] at h ⊢

/-! ## The shapes of the scalar commands -/

/-- The outcome is the end of a command that reads its sources in order and then writes its destinations. -/
def ReadsInOrder (i : Instr) (s : State) (o : Host.Outcome State Fault Refusal) : Prop :=
  ∃ r, EndsAsChecked (WritesScalars i s) (firstIllegalScalar s (scalarSources i) s.draws) r ∧ o = conclude i s r

section Shapes

variable {i : Instr} {s : State} {d a b : SReg} {t u : OpType} (hd : .s d ∈ destsOf i)
include hd

theorem readsInOrder_unary {f : Int → Int} (hsrc : scalarSources i = [(a, t)]) :
    ReadsInOrder i s (scalarUnary i t f d a s) := by
  refine ⟨_, ?_, rfl⟩
  rw [hsrc]
  exact endsAsChecked_readS fun _ _ => endsAsChecked_done ((WritesScalars.refl i s).writeS hd _) _ _

theorem readsInOrder_binary {f : Int → Int → Int} (hsrc : scalarSources i = [(a, t), (b, u)]) :
    ReadsInOrder i s (scalarBinary i t u f d a b s) := by
  refine ⟨_, ?_, rfl⟩
  rw [hsrc]
  exact endsAsChecked_readS fun _ _ => endsAsChecked_readS fun _ _ =>
    endsAsChecked_done ((WritesScalars.refl i s).writeS hd _) _ _

theorem readsInOrder_pair {f : Int → Int × Int} (hb : .s b ∈ destsOf i) (hsrc : scalarSources i = [(a, t)]) :
    ReadsInOrder i s (scalarPair i t f d a b s) := by
  refine ⟨_, ?_, rfl⟩
  rw [hsrc]
  exact endsAsChecked_readS fun _ _ => endsAsChecked_done (((WritesScalars.refl i s).writeS hd _).writeS hb _) _ _

theorem readsInOrder_const {x : Int} (hsrc : scalarSources i = []) : ReadsInOrder i s (scalarConst i x d s) := by
  refine ⟨_, ?_, rfl⟩
  rw [hsrc]
  exact endsAsChecked_done ((WritesScalars.refl i s).writeS hd _) _ _

end Shapes

theorem readsInOrder_exec {i : Instr} (h : i.vectors = []) (s : State) : ReadsInOrder i s (exec i s) := by
  cases i
  case nop => exact ⟨_, endsAsChecked_done (.refl _ s) s _, rfl⟩
  case li | zeta => exact readsInOrder_const List.mem_cons_self rfl
  case neg | red | tosym | fromsym | norm | mov | high | low => exact readsInOrder_unary List.mem_cons_self rfl
  case add | sub | mul | mkhint | usehint => exact readsInOrder_binary List.mem_cons_self rfl
  case p2r | decomp => exact readsInOrder_pair List.mem_cons_self (List.mem_cons_of_mem _ List.mem_cons_self) rfl
  all_goals exact absurd h (List.cons_ne_nil _ _)

/-- Settles O28: the command completes or faults as the check of its sources ends. -/
theorem scalarSourcesCheckedInOrder : Obligations.ScalarSourcesCheckedInOrder := by
  unfold Obligations.ScalarSourcesCheckedInOrder
  intro i s h
  obtain ⟨r, hends, hexec⟩ := readsInOrder_exec h s
  rw [hexec]
  rcases hchecked : firstIllegalScalar s (scalarSources i) s.draws with ⟨a | a, n⟩ <;> rw [hchecked] at hends
  case none =>
    obtain ⟨_, ⟨sreg, hkept, rfl⟩, rfl⟩ := hends
    exact ⟨sreg, hkept, rfl⟩
  case some =>
    cases hends
    refine ⟨_, clobber_sreg _ s, ?_⟩
    rw [conclude, finish_bad, clobber_scalars_pmem (scalar_dests h), errlocWord_sreg]

end Sys2Proof.Machine
end

section
/-! CTRL writes (spec/10_state.md R43): the soft reset (70_reset_and_hazards.md R292, R293), the error clear
(60_exceptions.md R270), or nothing. -/

namespace Sys2Proof.Machine

/-! ## What CTRL does -/

theorem ctrlWrite_softReset {w : Word} (h1 : w.getLsbD 1 = true) (s : State) : ctrlWrite w s = softReset s := by
  rw [ctrlWrite, if_pos ((bits_bit_eq_one w 1).2 h1)]

theorem ctrlWrite_of_no_softReset {w : Word} (h1 : w.getLsbD 1 = false) (s : State) :
    ctrlWrite w s = if w.getLsbD 0 = true then clearError s else s := by
  simp only [ctrlWrite, bits_bit_eq_one, h1, Bool.false_eq_true, if_false]

theorem clearError_pending {s : State} (h : s.err = true) : clearError s = { s with err := false, errcode := .none } :=
  if_pos h

theorem clearError_none {s : State} (h : s.err = false) : clearError s = s := if_neg (Bool.eq_false_iff.1 h)

/-- A soft reset, field by field (R292). -/
theorem softReset_eq (s : State) : softReset s =
    { s with
      sreg := (clobber (inFlightDests s) s).sreg, pmem := (clobber (inFlightDests s) s).pmem, queue := []
      engine := .idle, done := false, err := false, drop := false, errcode := .none, doneIe := false, errIe := false
      retired := 0#32, errcmd := 0#32, erridx := 0#32, errloc := 0#32 } := by
  simp only [softReset, clobber_cfg, clobber_rstN, clobber_txns, clobber_responses, clobber_sched, clobber_draws]

theorem inFlightDests_command {s : State} {x : Word} {i : Instr} (hx : s.engine = .exec x)
    (hi : decodeWord s.cfg.npoly x = .ok i) : inFlightDests s = destsOf i := by
  simp only [inFlightDests, hx, hi]

theorem inFlightDests_illegal {s : State} {x : Word} {e : Reject} (hx : s.engine = .exec x)
    (he : decodeWord s.cfg.npoly x = .error e) : inFlightDests s = [] := by
  simp only [inFlightDests, hx, he]

/-! ## The host's step -/

/-- A CTRL write is answered at once. -/
theorem step_write_ctrl {s : State} {w : Word} {rest : List BusReq} (h : HostWrites s 0x00C w rest) :
    step s = .next (hostAnswer s rest (respond 0#32 (ctrlWrite w (passed s)))) := by
  rw [step_write_target (x := .ctrl) rfl h, busWrite]

/-- Settles O56, by the three effects of a CTRL write. -/
theorem controlWrites : Obligations.ControlWrites := by
  unfold Obligations.ControlWrites
  intro s w rest h
  rw [step_write_ctrl h]
  refine ⟨fun h1 => ?softReset, fun h1 h0 herr => ⟨0#32, ?clear⟩, fun h1 hnone => ⟨0#32, ?nothing⟩⟩
  case softReset =>
    refine ⟨0#32, inFlightDests (passed s), _, _, inFlightDests_idle, fun x i => inFlightDests_command,
      fun x e => inFlightDests_illegal, clobber_sreg _ (passed s), clobber_pmem _ (passed s),
      clobber_wf _ (passed s), ?_⟩
    rw [ctrlWrite_softReset h1, softReset_eq]
    rfl
  case clear =>
    rw [ctrlWrite_of_no_softReset h1, if_pos h0, clearError_pending (s := passed s) herr]
    rfl
  case nothing =>
    have hsame : ctrlWrite w (passed s) = passed s := by
      rw [ctrlWrite_of_no_softReset h1]
      rcases hnone with h0 | herr
      · exact if_neg (Bool.eq_false_iff.1 h0)
      · rw [clearError_none (s := passed s) herr, ite_self]
    rw [hsame]
    rfl

end Sys2Proof.Machine
end

section
/-! The hardware reset (spec/70_reset_and_hazards.md R290), and what the machine does while rst_n = 0 (log 8). -/

namespace Sys2Proof.Machine

/-- R290: while rst_n = 0 the engine's turn passes. -/
theorem step_engine_inReset {s : State} (hr : s.rstN = false) (hturn : nextTurn s = .engine) :
    step s = .next (passed s) := by
  rw [step_engine hturn, engineTurn, passed_rstN, hr, if_neg Bool.false_ne_true]

/-- R290: while rst_n = 0 a bus transaction is refused. -/
theorem step_host_inReset {s : State} {t : BusReq} {rest : List BusReq} (hr : s.rstN = false)
    (hturn : nextTurn s = .host) (htx : s.txns = t :: rest) : step s = .refused .busWhileReset := by
  simp only [step_host hturn, hostTurn, passed_txns, htx, passed_rstN, hr, Bool.false_eq_true, if_false]

/-- Settles O59: `hardReset` has the reset state's registers, and the two kinds of turn while rst_n = 0. -/
theorem hardwareReset : Obligations.HardwareReset := by
  unfold Obligations.HardwareReset
  intro s
  refine ⟨fun level hturn => ⟨_, step_pin hturn, ?_⟩, fun hr => ⟨step_engine_inReset hr, ?_⟩⟩
  · exact ⟨rfl, rfl, s_resetWith s.cfg, fun _ _ => rfl, rfl, rfl, statusWord_resetWith s.cfg, rfl, rfl, rfl, rfl, rfl,
      rfl, rfl, rfl⟩
  · exact fun t rest => step_host_inReset hr

end Sys2Proof.Machine
end

section
/-! Every interleaving ends as the command list (spec/70_reset_and_hazards.md R303). The words still to run are the one in
flight, the queue and the words still to push; whatever move comes next, running them all from the state it leaves ends
as running them all from the state before it (`Pushing.endsAs_step`). -/

namespace Sys2Proof.Machine

/-! ## What running a list reads and leaves -/

/-- The values that `SameData` and `SameEnd` compare. -/
abbrev RunView := (Config × Vector Slot 16 × Mem × Nat) × (Word × Bool × ErrCode × Word × Word × Word)

/-- The part of a state that running a command list reads or that R303 compares. -/
def runView (s : State) : RunView :=
  ((s.cfg, s.sreg, s.pmem, s.draws), (s.retired, s.err, s.errcode, s.errcmd, s.erridx, s.errloc))

theorem runView_eq_iff {s t : State} : runView s = runView t ↔ SameData s t ∧ SameEnd s t := by
  simp only [runView, SameData, SameEnd, Prod.mk.injEq]
  tauto

/-- The end of a command's complete step is the same in states with the same view. -/
theorem runView_finish {i : Instr} {s t : State} {r r' : Fetched State} (h : runView s = runView t)
    (hr : SameResult s t r r') : runView (finish i s r) = runView (finish i t r') := by
  obtain ⟨hdata, -, -, hretired, herr, hcode, hcmd, hidx, hloc⟩ := runView_eq_iff.1 h
  cases hr with
  | ok sreg m n => simp [runView, finish, hdata.1, hretired, herr, hcode, hcmd, hidx, hloc]
  | bad l n =>
    obtain ⟨-, hsreg, hpmem, -⟩ := hdata.clobber (destsOf i)
    simp [runView, finish_bad, hdata.1, hsreg, hpmem, hretired]

/-- So is the end of any word's complete step. -/
theorem completeStep_congr {s t : State} (h : runView s = runView t) (w : Word) :
    ∃ s' t', completeStep w s = .next s' ∧ completeStep w t = .next t' ∧ runView s' = runView t' := by
  obtain ⟨hdata, hend⟩ := runView_eq_iff.1 h
  cases hdec : decodeWord s.cfg.npoly w with
  | ok i =>
    obtain ⟨r, r', hs, ht, hsame⟩ := hdata.sameEffect_exec i
    rw [completeStep_of_ok hdec, completeStep_of_ok (hdata.1 ▸ hdec)]
    exact ⟨_, _, hs, ht, runView_finish h hsame⟩
  | error e =>
    rw [completeStep_of_error hdec, completeStep_of_error (hdata.1 ▸ hdec)]
    refine ⟨_, _, rfl, rfl, ?_⟩
    obtain ⟨hcfg, hsreg, hpmem, hdraws⟩ := hdata
    simp [takeIllegal_eq, runView, hcfg, hsreg, hpmem, hdraws, hend.2.2.1]

/-! ## Running a list -/

/-- R303: with ERR = 1 the words have no effect. -/
theorem runList_of_err {s : State} (h : s.err = true) (ws : List Word) : runList ws s = s := by
  induction ws with
  | nil => rfl
  | cons w ws ih => rw [runList, if_pos h, ih]

theorem runList_cons {s t : State} {w : Word} (herr : s.err = false) (h : completeStep w s = .next t) (ws : List Word) :
    runList (w :: ws) s = runList ws t := by
  rw [runList, herr, if_neg Bool.false_ne_true, h]

theorem runList_congr {s t : State} (h : runView s = runView t) (ws : List Word) :
    runView (runList ws s) = runView (runList ws t) := by
  induction ws generalizing s t with
  | nil => exact h
  | cons w ws ih =>
    have herr : s.err = t.err := (runView_eq_iff.1 h).2.2.2.2.1
    cases he : t.err with
    | true => rw [runList_of_err (herr.trans he), runList_of_err he, h]
    | false =>
      obtain ⟨s', t', hs, ht, hview⟩ := completeStep_congr h w
      rw [runList_cons (herr.trans he) hs, runList_cons he ht]
      exact ih hview

/-! ## The words still to run -/

/-- The word in flight, if there is one. -/
def inFlight (s : State) : List Word :=
  match s.engine with
  | .idle => []
  | .exec w => [w]

/-- The words still to run when `ws` are still to be pushed, in their order. -/
def toRun (ws : List Word) (s : State) : List Word := inFlight s ++ s.queue ++ ws

/-- How the run ends if the words still to run have the unit to themselves. -/
def endOf (ws : List Word) (s : State) : RunView := runView (runList (toRun ws s) s)

theorem inFlight_idle {s : State} (h : s.engine = .idle) : inFlight s = [] := by rw [inFlight, h]

theorem inFlight_exec {s : State} {w : Word} (h : s.engine = .exec w) : inFlight s = [w] := by rw [inFlight, h]

theorem endOf_of_err {s : State} (h : s.err = true) (ws : List Word) : endOf ws s = runView s := by
  rw [endOf, runList_of_err h]

/-- With ERR = 1 it does not matter which words are still to run. -/
theorem endOf_congr_of_err {s u : State} {ws vs : List Word} (hs : s.err = true) (hu : u.err = true)
    (hview : runView u = runView s) : endOf vs u = endOf ws s := by
  rw [endOf_of_err hs, endOf_of_err hu, hview]

theorem endOf_congr {s u : State} {ws vs : List Word} (hrun : toRun vs u = toRun ws s) (hview : runView u = runView s) :
    endOf vs u = endOf ws s := by
  rw [endOf, hrun]
  exact runList_congr hview _

/-- An idle unit: the words to push are all there is to run. -/
theorem endOf_of_not_busy {s : State} (h : s.busy = false) (ws : List Word) : endOf ws s = runView (runList ws s) := by
  obtain ⟨hidle, hq⟩ : s.engine = .idle ∧ s.queue = [] := by simpa [State.busy] using h
  rw [endOf, toRun, inFlight_idle hidle, hq]
  rfl

/-! ## The moves -/

/-- Out of reset and staying so, the host has the words `ws` still to push and nothing else to do, and no word is in
flight with ERR = 1. -/
structure Pushing (ws : List Word) (s : State) : Prop where
  running : s.rstN = true
  noReset : ∀ level, Turn.resetPin level ∉ s.sched
  txns : s.txns = ws.map cmdReq
  flightOk : s.engine ≠ .idle → s.err = false

/-- The unit still has the words `vs` to push, and ends as it would have from s. -/
def EndsAs (ws : List Word) (s u : State) : Prop := ∃ vs, Pushing vs u ∧ endOf vs u = endOf ws s

section Moves

variable {ws : List Word} {s : State} (h : Pushing ws s)
include h

theorem Pushing.noReset_tail (level : Bool) : Turn.resetPin level ∉ s.sched.tail := fun hl =>
  h.noReset level (List.mem_of_mem_tail hl)

theorem Pushing.not_pin : ¬ PinMove s := by
  rintro ⟨level, hp⟩
  unfold nextTurn at hp
  split at hp
  · rename_i t ts hs
    exact h.noReset level (by rw [hs, hp]; exact List.mem_cons_self)
  · split_ifs at hp

/-- A turn in which nobody moves. -/
theorem Pushing.pass : EndsAs ws s (passed s) :=
  ⟨ws, ⟨h.running, h.noReset_tail, h.txns, h.flightOk⟩, endOf_congr rfl rfl⟩

/-- The start step moves the head of the queue into flight. -/
theorem Pushing.start (hidle : s.engine = .idle) : EndsAs ws s (startStep (passed s)) := by
  rcases startStep_cases (passed s) with ⟨w, q, herr, hq, heq⟩ | ⟨-, heq⟩ <;> rw [heq]
  · refine ⟨ws, ⟨h.running, h.noReset_tail, h.txns, fun _ => herr⟩, endOf_congr ?_ rfl⟩
    rw [passed_queue] at hq
    rw [toRun, toRun, inFlight_exec rfl, inFlight_idle hidle, hq]
    rfl
  · exact h.pass

/-- The complete step runs the first of the words still to run; after a fault the others have no effect. -/
theorem Pushing.complete {w : Word} {u : State} (hw : s.engine = .exec w)
    (hu : completeStep w (passed s) = .next u) : EndsAs ws s u := by
  have herr : s.err = false := h.flightOk (by simp [hw])
  obtain ⟨u', v, hu', hv, hview⟩ := completeStep_congr (s := passed s) (t := s) rfl w
  cases hu.symm.trans hu'
  have hend : endOf ws s = runView (runList (s.queue ++ ws) u) := by
    rw [endOf, toRun, inFlight_exec hw]
    exact (congrArg runView (runList_cons herr hv _)).trans (runList_congr hview _).symm
  cases completeStep_end hu with
  | retires => exact ⟨ws, ⟨h.running, h.noReset_tail, h.txns, fun hne => absurd rfl hne⟩, hend.symm⟩
  | outOfRange | illegal =>
    refine ⟨ws, ⟨h.running, h.noReset_tail, h.txns, fun hne => absurd rfl hne⟩, ?_⟩
    rw [hend, endOf_of_err rfl, runList_of_err rfl]

end Moves

/-- The host's write moves the next word to push to the end of the queue, or is held; with ERR = 1 it is dropped, and
would have had no effect. -/
theorem Pushing.push {w : Word} {ws : List Word} {s u : State} (h : Pushing (w :: ws) s) (hturn : nextTurn s = .host)
    (hstep : step s = .next u) : EndsAs (w :: ws) s u := by
  have hwrite : HostWrites s 0x018 w (ws.map cmdReq) := ⟨h.running, hturn, cmdReq w, h.txns, rfl, rfl, rfl, rfl⟩
  obtain ⟨hqueued, hheld, hdropped⟩ := commandWrites s w _ hwrite
  cases herr : s.err with
  | true =>
    obtain ⟨r, hnext⟩ := hdropped herr
    cases hstep.symm.trans hnext
    exact ⟨ws, ⟨h.running, h.noReset_tail, rfl, h.flightOk⟩, endOf_congr_of_err herr herr rfl⟩
  | false =>
    by_cases hroom : s.queue.length < s.cfg.cqDepth
    · obtain ⟨r, hnext⟩ := hqueued herr hroom
      cases hstep.symm.trans hnext
      refine ⟨ws, ⟨h.running, h.noReset_tail, rfl, h.flightOk⟩, endOf_congr ?_ rfl⟩
      simp [toRun, inFlight, answered]
    · cases hstep.symm.trans (hheld herr (Nat.le_of_not_lt hroom))
      exact h.pass

/-- Whoever moves, the run ends as it would have. -/
theorem Pushing.endsAs_step {ws : List Word} {s u : State} (h : Pushing ws s) (hstep : step s = .next u) :
    EndsAs ws s u := by
  cases hturn : nextTurn s with
  | resetPin level => exact absurd ⟨level, hturn⟩ h.not_pin
  | engine =>
    have hmove : EngineMoves s := ⟨h.running, hturn⟩
    cases he : s.engine with
    | idle =>
      cases hstep.symm.trans (step_start hmove he)
      exact h.start he
    | exec w => exact h.complete he ((step_complete ⟨hmove, he⟩).symm.trans hstep)
  | host =>
    cases ws with
    | cons w ws => exact h.push hturn hstep
    | nil =>
      rw [step_host hturn, hostTurn, passed_txns, h.txns] at hstep
      cases hstep
      exact h.pass

/-- The same for any number of moves. -/
theorem Pushing.endsAs_steps {n : Nat} {ws : List Word} {s t : State} (h : Pushing ws s) (hsteps : steps n s = some t) :
    EndsAs ws s t := by
  induction n generalizing ws s with
  | zero =>
    cases hsteps
    exact ⟨ws, h, rfl⟩
  | succ n ih =>
    rw [steps] at hsteps
    split at hsteps
    case h_1 u hstep =>
      obtain ⟨vs, hu, hend⟩ := h.endsAs_step hstep
      obtain ⟨xs, ht, hend'⟩ := ih hu hsteps
      exact ⟨xs, ht, hend'.trans hend⟩
    all_goals cases hsteps

/-- Settles O17: at the end nothing is left to run, so the end state is that of the list run from the start. -/
theorem everyInterleavingEndsAsTheCommandList : Obligations.EveryInterleavingEndsAsTheCommandList := by
  unfold Obligations.EveryInterleavingEndsAsTheCommandList
  intro s t ws n hr hidle herr hsched htxns hsteps hdone hidle'
  have h : Pushing ws s := ⟨hr, hsched, htxns, fun _ => herr⟩
  obtain ⟨vs, ht, hend⟩ := h.endsAs_steps hsteps
  have hvs : vs = [] := List.map_eq_nil_iff.1 (ht.txns.symm.trans hdone)
  rw [hvs, endOf_of_not_busy hidle', endOf_of_not_busy hidle] at hend
  exact (runView_eq_iff.1 hend).2

end Sys2Proof.Machine
end
